-- ==== Sys2Proof/Word.lean ====
section
/-! DEFINITION. The words of the SL427 codec core: bytes, command words and 64-bit registers. -/

namespace Sys2Proof

/-- A byte: an 8-bit unsigned value (spec/00_scope.md R10). -/
abbrev Byte := BitVec 8

/-- A command word: what the host writes to CMD (spec/30_encoding.md R70). -/
abbrev CmdWord := BitVec 32

/-- The width of ARG0 and RES0, and INT_WIDTH of ENCINT and DECINT (spec/00_scope.md R7). -/
abbrev Word64 := BitVec 64

end Sys2Proof
end

