-- ==== Sys2Proof/Config.lean ====
section
/-! DEFINITION. The constants and parameters of spec/00_scope.md R6 and R7, and the free values.

LEN_BITS = 10, INT_WIDTH = 64 and RES1_WIDTH = 32 of R7 are the widths of the LEN field
(Decode.lean), of ARG0 and RES0, and of RES1 (Machine/State.lean); they are written there as numerals.
The literals are taken as the spec states them, unaudited (UNVERIFIED; log 16, unsafe). -/

namespace Sys2Proof.Config

/-- START: both start markers of a frame (R6). -/
def start : Byte := 0x68
/-- END: the end marker of a frame (R6). -/
def endMarker : Byte := 0x16
/-- POLY: the checksum feedback constant (R6, 90_conflicts.md C2). -/
def poly : Byte := 0xE4
/-- CSMASK: the mask on the checksum register (R6). -/
def csMask : Byte := 0x7F
/-- MIN_WIRE_LEN: the fewest wire bytes frame decode accepts (R6, 90_conflicts.md C3). -/
def minWireLen : Nat := 7
/-- MAX_REGION: the largest user-data region (R6). -/
def maxRegion : Nat := 255
/-- OVERHEAD: the envelope bytes around the region (R6). -/
def overhead : Nat := 5
/-- ADDR_LEN: the wire bytes of an address (R6). -/
def addrLen : Nat := 5
/-- CODED_TAG: the first address byte that marks a coded address (R6). -/
def codedTag : Byte := 0x00
/-- BUF_SIZE: the bytes in each of IBUF and OBUF (R7). -/
def bufSize : Nat := 512
/-- MAX_INT_BYTES: the most bytes ENCINT and DECINT take (R7). -/
def maxIntBytes : Nat := 8

/-- The two placements of the pad digit of an odd-length digit string (R7, R104). -/
inductive OddPad where
  /-- A zero digit before the first digit: the high nibble of the first byte. -/
  | leading
  /-- A zero digit after the last digit: the low nibble of the last byte. -/
  | trailing
deriving DecidableEq, Repr

/-- ODD_PAD, with the value the spec fixes for this hardware (R7, D13; log 7, unsafe). -/
def oddPad : OddPad := .leading

/-- The two letter cases of the hex digits 10 to 15 (R7, R143). -/
inductive HexCase where
  | upper
  | lower
deriving DecidableEq, Repr, Inhabited

/-- HEX_CASE is OPEN in the spec, with no default (R7, D21): a constant without a body, so every
claim holds for both cases (log 6, safe). -/
opaque hexCase : HexCase

/-- The bytes the host reads from IBUF bytes that nothing has written (R43, P16: "any value"): the
n-th draw, without a body (log 5, safe). -/
opaque freeByte : Nat → Byte

end Sys2Proof.Config
end

