-- ==== Sys2Proof/Syntax.lean ====
section
/-! DEFINITION. The commands of the core: one constructor per row of spec/opcode_table.json, in the
order of spec/30_encoding.md R71. A command that uses LEN carries it as a count (R70, R74). -/

namespace Sys2Proof

/-- A command of the SL427 codec core (spec/30_encoding.md R71). -/
inductive Instr where
  /-- TOBCD (R101): ARG0 to one BCD byte. -/
  | tobcd
  /-- FROMBCD (R102): one BCD byte to its value. -/
  | frombcd
  /-- ISBCD (R103): is a byte valid BCD? -/
  | isbcd
  /-- ENCDIG (R104): `len` ASCII digits to BCD bytes. -/
  | encdig (len : Nat)
  /-- DECDIG (R105): `len` BCD bytes to ASCII digits. -/
  | decdig (len : Nat)
  /-- ENCINT (R106): ARG0 to `len` base-100 bytes. -/
  | encint (len : Nat)
  /-- DECINT (R107): `len` base-100 bytes to an integer. -/
  | decint (len : Nat)
  /-- CSUM (R131): the checksum of `len` bytes. -/
  | csum (len : Nat)
  /-- ADEC (R144): decode an address from `len` available bytes. -/
  | adec (len : Nat)
  /-- AENC (R145): encode an address value. -/
  | aenc
  /-- AVAL (R146): validate an address value. -/
  | aval
  /-- AHEX (R147): the hex text of a coded address. -/
  | ahex
  /-- CDEC (R162): decode a control field from `len` available bytes. -/
  | cdec (len : Nat)
  /-- CENC (R163): encode a control value. -/
  | cenc
  /-- CLEN (R164): the wire length of a control value. -/
  | clen
  /-- FENC (R182): encode a region of `len` bytes into a frame. -/
  | fenc (len : Nat)
  /-- FDEC (R183): decode `len` wire bytes. -/
  | fdec (len : Nat)
  /-- RDFRM (R201): read the next frame from the RX stream. -/
  | rdfrm
  /-- WRFRM (R213): write the frame of a region of `len` bytes to the TX stream. -/
  | wrfrm (len : Nat)
deriving DecidableEq, Repr

end Sys2Proof
end

