-- ==== Sys2Proof/WellFormed.lean ====
section
/-! DEFINITION. Which commands are well-formed: LEN is at most the opcode's LENMAX
(spec/30_encoding.md R74). The other checks of R76 are on the word (Decode.lean) and on ARG0
(Machine/Operands.lean). -/

namespace Sys2Proof

/-- The LEN of a command: 0 for a command that does not use it (R74). -/
def Instr.len : Instr → Nat
  | .tobcd | .frombcd | .isbcd | .aenc | .aval | .ahex | .cenc | .clen | .rdfrm => 0
  | .encdig n | .decdig n | .encint n | .decint n | .csum n | .adec n | .cdec n | .fenc n | .fdec n
  | .wrfrm n => n

/-- LENMAX, per command (R74). -/
def Instr.lenMax : Instr → Nat
  | .tobcd | .frombcd | .isbcd | .aenc | .aval | .ahex | .cenc | .clen | .rdfrm => 0
  | .encdig _ | .csum _ | .adec _ | .cdec _ | .fenc _ | .fdec _ | .wrfrm _ => Config.bufSize
  | .decdig _ => Config.bufSize / 2
  | .encint _ | .decint _ => Config.maxIntBytes

/-- A command is well-formed when its LEN is at most its LENMAX (R74). -/
abbrev Instr.WellFormed (i : Instr) : Prop := i.len ≤ i.lenMax

end Sys2Proof
end

