-- ==== Sys2Proof/Decode.lean ====
section
/-! DEFINITION. The command word: fields (spec/30_encoding.md R70), the opcode map (R71) with LENMAX
(R74), the decoder, which makes the first three issue checks in the order of R76, and the encoder. -/

namespace Sys2Proof

/-- OP, bits 7:0 (R70). -/
def opField (w : CmdWord) : BitVec 8 := w.extractLsb' 0 8

/-- LEN, bits 25:16 (R70): a count of 10 bits. -/
def lenField (w : CmdWord) : BitVec 10 := w.extractLsb' 16 10

/-- Are the reserved bits 15:8 and 31:26 all 0 (R70, R73)? -/
def reservedZero (w : CmdWord) : Bool := w.extractLsb' 8 8 == 0 && w.extractLsb' 26 6 == 0

/-- A row of the opcode map: OP, LENMAX, and the command with a given LEN. -/
structure OpRow where
  op     : BitVec 8
  lenMax : Nat
  make   : Nat → Instr

/-- The opcode map: R71 for OP, R74 for LENMAX (spec/opcode_table.json). -/
def opRows : List OpRow := [
  ⟨0x10, 0, fun _ => .tobcd⟩,
  ⟨0x11, 0, fun _ => .frombcd⟩,
  ⟨0x12, 0, fun _ => .isbcd⟩,
  ⟨0x13, Config.bufSize, .encdig⟩,
  ⟨0x14, Config.bufSize / 2, .decdig⟩,
  ⟨0x15, Config.maxIntBytes, .encint⟩,
  ⟨0x16, Config.maxIntBytes, .decint⟩,
  ⟨0x20, Config.bufSize, .csum⟩,
  ⟨0x30, Config.bufSize, .adec⟩,
  ⟨0x31, 0, fun _ => .aenc⟩,
  ⟨0x32, 0, fun _ => .aval⟩,
  ⟨0x33, 0, fun _ => .ahex⟩,
  ⟨0x40, Config.bufSize, .cdec⟩,
  ⟨0x41, 0, fun _ => .cenc⟩,
  ⟨0x42, 0, fun _ => .clen⟩,
  ⟨0x50, Config.bufSize, .fenc⟩,
  ⟨0x51, Config.bufSize, .fdec⟩,
  ⟨0x60, 0, fun _ => .rdfrm⟩,
  ⟨0x61, Config.bufSize, .wrfrm⟩]

/-- Why a word is no command. Each completes the command with CommandError in its issue step
(R72, R73, R74). -/
inductive DecodeError where
  /-- OP is not in the opcode map (R72). -/
  | unassignedOp
  /-- A reserved bit is 1 (R73). -/
  | reservedBits
  /-- LEN is above the opcode's LENMAX (R74). -/
  | lenTooLong
deriving DecidableEq, Repr

/-- The decoder: checks 1 to 3 of R76, in their order. Total: every word is a command or rejected
by name. -/
def decode (w : CmdWord) : Except DecodeError Instr :=
  match opRows.find? (fun r => r.op == opField w) with
  | none => .error .unassignedOp
  | some r =>
    if reservedZero w then
      if (lenField w).toNat ≤ r.lenMax then .ok (r.make (lenField w).toNat) else .error .lenTooLong
    else .error .reservedBits

/-- The OP of a command (R71). -/
def opcode : Instr → BitVec 8
  | .tobcd => 0x10
  | .frombcd => 0x11
  | .isbcd => 0x12
  | .encdig _ => 0x13
  | .decdig _ => 0x14
  | .encint _ => 0x15
  | .decint _ => 0x16
  | .csum _ => 0x20
  | .adec _ => 0x30
  | .aenc => 0x31
  | .aval => 0x32
  | .ahex => 0x33
  | .cdec _ => 0x40
  | .cenc => 0x41
  | .clen => 0x42
  | .fenc _ => 0x50
  | .fdec _ => 0x51
  | .rdfrm => 0x60
  | .wrfrm _ => 0x61

/-- The word of a command: 31:26 zero, LEN, 15:8 zero, OP (R70). -/
def encode (i : Instr) : CmdWord :=
  (0 : BitVec 6) ++ BitVec.ofNat 10 i.len ++ (0 : BitVec 8) ++ opcode i

/-- The command the decoder reads from the `nbits` low bits of `w`, numbered as
spec/opcode_table.json numbers them. CMD is one 32-bit register written whole, so the word needs no
byte order. -/
def decodeTableWord (nbits w : Nat) : Option Instr :=
  (decode (BitVec.ofNat 32 (w % 2 ^ nbits))).toOption

end Sys2Proof
end

