-- ==== Sys2Proof/Machine/State.lean ====
section
/-! DEFINITION. The state of one core instance (spec/10_state.md R20 to R46), the environment's part
of it, and the reasons a step can stop. Plain data throughout. -/

namespace Sys2Proof.Machine

/-- The error kinds of the status codes 1 to 11 (60_exceptions.md R231). -/
inductive ErrorKind where
  | framingError
  | lengthError
  | checksumError
  | addressError
  | controlError
  /-- Never raised by the core: reserved for the out-of-scope assembler (R231, P9). -/
  | dataError
  /-- Never raised by the core: reserved for the out-of-scope assembler (R231, P9). -/
  | authError
  | incompleteFrameError
  | connectionError
  | bcdError
  | commandError
deriving DecidableEq, Repr

/-- STATUS.CODE (10_state.md R22): OK or an error. Its number is `Code.bits` (Flags.lean). -/
inductive Code where
  | ok
  | err (e : ErrorKind)
deriving DecidableEq, Repr

/-- FSTATE (10_state.md R27). The value 7 is reserved and never held. Its number is `FState.bits`. -/
inductive FState where
  | idle
  | seekStart
  | readLength
  | readSecondStart
  | readBody
  /-- Lasts no step (R27, R207): no state the machine reaches holds it. -/
  | done
  | tx
deriving DecidableEq, Repr

/-- An event of the RX port (10_state.md R37). -/
inductive RxEvent where
  | byte (b : Byte)
  | streamEnd
  | fail
deriving DecidableEq, Repr

/-- An answer of the TX port (10_state.md R38). -/
inductive TxAnswer where
  | accept
  | fail
deriving DecidableEq, Repr

/-- The five host operations (10_state.md R40). A register number, an index and a written value are
whatever the host gives: R40, R43 and R44 say what happens outside the ranges. -/
inductive HostOp where
  | write (r : Nat) (v : Nat)
  | read (r : Nat)
  | writeIbuf (i : Nat) (b : Byte)
  | readIbuf (i : Nat)
  | readObuf (i : Nat)
deriving DecidableEq, Repr

/-- Who takes a step (20_memory.md R57: one total order of all steps). -/
inductive Move where
  /-- A host operation. -/
  | host (op : HostOp)
  /-- The framer or the transmitter, whichever FSTATE enables (46_stream.md R200). -/
  | engine
  /-- The reset input is asserted (10_state.md R39). -/
  | reset
deriving DecidableEq, Repr

/-- A byte buffer: (index, byte) pairs, indices strictly rising. An index that is not listed is an
unwritten byte, which has no value (10_state.md R28, R29; log 4, safe). -/
abbrev Memory := List Host.Cell

/-- The environment: inputs of the step relation, "not state of the core" (10_state.md R20). They are
plain data here because a step is a function of the state alone (DESIGN CHOICE; logs 1, 3, 5, 9). -/
structure Env where
  /-- The moves to come, oldest first. -/
  moves : List Move
  /-- The RX events not yet taken, in stream order (R37). -/
  rx : List RxEvent
  /-- The TX port's answers not yet given, in order (R38). -/
  tx : List TxAnswer
  /-- The bytes the TX port has accepted, in order: the TX stream (20_memory.md R50). -/
  sent : List Byte
  /-- What the host's last read returned, zero-extended (R40). -/
  hostData : Option Word64
  /-- How many free values have been drawn (P16). -/
  draws : Nat
deriving DecidableEq, Repr

/-- The state: everything 10_state.md R20 lists, and the environment. -/
structure State where
  /-- CMD, the last accepted command word (R21). -/
  cmd : CmdWord
  /-- STATUS.CODE (R22). -/
  code : Code
  /-- STATUS.BUSY (R22). -/
  busy : Bool
  /-- STATUS.CMDLOST (R22). -/
  cmdLost : Bool
  /-- ARG0 (R23). -/
  arg0 : Word64
  /-- RES0 (R24). -/
  res0 : Word64
  /-- RES1 (R25). -/
  res1 : BitVec 32
  /-- OLEN (R26). -/
  olen : BitVec 16
  /-- FSTATE (R27). -/
  fstate : FState
  /-- IBUF (R28). -/
  ibuf : Memory
  /-- OBUF (R29). -/
  obuf : Memory
  /-- FL, the framer's length register (R30). -/
  fl : BitVec 8
  /-- FREM, the framer's remaining-count register (R31). -/
  frem : BitVec 9
  /-- FCNT, the framer's consumed-byte counter (R32). -/
  fcnt : BitVec 32
  /-- FBUF, the framer's accumulation buffer (R33). -/
  fbuf : List Byte
  /-- TXBUF, the transmitter's frame buffer (R34). -/
  txbuf : List Byte
  /-- TXPOS, the number of TXBUF bytes the TX port has accepted (R34). -/
  txpos : BitVec 9
  /-- The outside world. -/
  env : Env
deriving DecidableEq, Repr

/-- The model faults of 60_exceptions.md R241: reads of bytes that have no value. -/
inductive Fault where
  /-- FaultUnwrittenInput: raised by a command that reads an IBUF byte nothing has written since
  reset (R52, R241). Safe: the hardware goes on with some value, the model stops. -/
  | unwrittenInput
  /-- FaultUnwrittenOutput: raised by a host read of an OBUF byte nothing has written since reset
  (R44, R241). Safe: the hardware returns some value, the model stops. -/
  | unwrittenOutput
deriving DecidableEq, Repr

/-- The refusals. -/
inductive Refusal where
  /-- Raised only by an arm of `exec` for a command that has no meaning yet. Safe. -/
  | notModelled (mnemonic : String)
deriving DecidableEq, Repr

/-- The environment before anything happens: no move, no event, no answer (DESIGN CHOICE; logs 1, 2,
3, 5, 9). -/
def Env.quiet : Env :=
  { moves := [], rx := [], tx := [], sent := [], hostData := none, draws := 0 }

/-- The machine right after reset: the table of 10_state.md R46. -/
def State.reset : State :=
  { cmd := 0, code := .ok, busy := false, cmdLost := false, arg0 := 0, res0 := 0, res1 := 0, olen := 0,
    fstate := .idle, ibuf := [], obuf := [], fl := 0, frem := 0, fcnt := 0, fbuf := [], txbuf := [],
    txpos := 0, env := Env.quiet }

end Sys2Proof.Machine
end

