-- ==== Sys2Proof/Machine/Flags.lean ====
section
/-! DEFINITION. The numbers of the status codes and of FSTATE, and the STATUS and FSTATE words the
host reads (spec/10_state.md R22, R27; spec/60_exceptions.md R231). The core has no other flags
(R35). -/

namespace Sys2Proof.Machine

/-- The status code of an error (60_exceptions.md R231). -/
def errorBits : ErrorKind → BitVec 4
  | .framingError => 1
  | .lengthError => 2
  | .checksumError => 3
  | .addressError => 4
  | .controlError => 5
  | .dataError => 6
  | .authError => 7
  | .incompleteFrameError => 8
  | .connectionError => 9
  | .bcdError => 10
  | .commandError => 11

/-- STATUS[3:0] (R22, R231). -/
def codeBits : Code → BitVec 4
  | .ok => 0
  | .err e => errorBits e

/-- FSTATE[2:0] (R27). -/
def fstateBits : FState → BitVec 3
  | .idle => 0
  | .seekStart => 1
  | .readLength => 2
  | .readSecondStart => 3
  | .readBody => 4
  | .done => 5
  | .tx => 6

/-- The STATUS word: CMDLOST in bit 9, BUSY in bit 8, CODE in 3:0, the reserved bits 0 (R22). -/
def statusWord (s : State) : BitVec 32 :=
  (0 : BitVec 22) ++ BitVec.ofBool s.cmdLost ++ BitVec.ofBool s.busy ++ (0 : BitVec 4)
    ++ codeBits s.code

/-- The FSTATE word: bits 7:3 hardwired 0 (R27). -/
def fstateWord (f : FState) : BitVec 8 := (0 : BitVec 5) ++ fstateBits f

/-- The framer is running: FSTATE is 1 to 4 (46_stream.md R200, R202). -/
def isReading : FState → Bool
  | .seekStart | .readLength | .readSecondStart | .readBody => true
  | .idle | .done | .tx => false

end Sys2Proof.Machine
end

