-- ==== Sys2Proof/Machine/Operands.lean ====
section
/-! DEFINITION. The operand forms: nibbles (spec/30_encoding.md R77), the well-formedness of ARG0
(R75), the register formats AV, CV and FR (R83 to R85), and the register numbers
(spec/10_state.md R21 to R27). -/

namespace Sys2Proof.Machine

/-- The high nibble, `b[7:4]`. -/
def hiNibble (b : Byte) : BitVec 4 := b.extractLsb' 4 4

/-- The low nibble, `b[3:0]`. -/
def loNibble (b : Byte) : BitVec 4 := b.extractLsb' 0 4

/-- ARG0 holds a byte: `ARG0[63:8] = 0` (R75, FROMBCD and ISBCD). -/
def byteArgOk (a : Word64) : Bool := a.extractLsb' 8 56 == 0

/-- The byte `ARG0[7:0]`. -/
def byteArg (a : Word64) : Byte := a.extractLsb' 0 8

/-- AV's TAG, bit 40: 1 for a coded address (R83). -/
def avTag (av : Word64) : Bool := av.getLsbD 40

/-- The wire byte `a_i` of an AV, i from 0 to 4: `a_0` is bits 39:32, `a_4` is bits 7:0 (R83, R55). -/
def avByte (av : Word64) (i : Nat) : Byte := av.extractLsb' (8 * (4 - i)) 8

/-- The five wire bytes of an AV in order (R83). -/
def avBytes (av : Word64) : List Byte :=
  [avByte av 0, avByte av 1, avByte av 2, avByte av 3, avByte av 4]

/-- The station id of an AV, bits 15:0 (R83). -/
def avStation (av : Word64) : BitVec 16 := av.extractLsb' 0 16

/-- ARG0 holds a well-formed AV: bits 63:41 are 0, and 39:32 too when TAG = 1 (R75). -/
def avOk (av : Word64) : Bool := av.extractLsb' 41 23 == 0 && (!avTag av || avByte av 0 == 0)

/-- The AV with a tag and five wire bytes (R83). -/
def avOf (tag : Bool) (a0 a1 a2 a3 a4 : Byte) : Word64 :=
  (0 : BitVec 23) ++ BitVec.ofBool tag ++ a0 ++ a1 ++ a2 ++ a3 ++ a4

/-- ARG0 holds a CV: bits 63:16 are 0 (R75). -/
def cvOk (cv : Word64) : Bool := cv.extractLsb' 16 48 == 0

/-- The first control byte c0 of a CV, bits 7:0 (R84). -/
def cvFirst (cv : Word64) : Byte := cv.extractLsb' 0 8

/-- SPLITCNT of a CV, bits 15:8 (R84). -/
def cvSplitCount (cv : Word64) : Byte := cv.extractLsb' 8 8

/-- The CV with a split count and a first byte (R84). -/
def cvOf (splitCount c0 : Byte) : Word64 := (0 : BitVec 48) ++ splitCount ++ c0

/-- SPLIT, bit 6 of the first control byte (R78). -/
def splitFlag (c0 : Byte) : Bool := c0.getLsbD 6

/-- The frame result FR: the length byte in 7:0, the checksum byte in 15:8 (R85). -/
def frOf (l cs : Byte) : Word64 := (0 : BitVec 48) ++ cs ++ l

/-- The registers (10_state.md R21 to R27). -/
inductive Reg where
  | cmd
  | status
  | arg0
  | res0
  | res1
  | olen
  | fstate
deriving DecidableEq, Repr

/-- The register with a number. Numbers 7 and above do not exist (R40). -/
def regOf : Nat → Option Reg
  | 0 => some .cmd
  | 1 => some .status
  | 2 => some .arg0
  | 3 => some .res0
  | 4 => some .res1
  | 5 => some .olen
  | 6 => some .fstate
  | _ => none

/-- The number of a register. -/
def regNumber : Reg → Nat
  | .cmd => 0
  | .status => 1
  | .arg0 => 2
  | .res0 => 3
  | .res1 => 4
  | .olen => 5
  | .fstate => 6

end Sys2Proof.Machine
end

