-- ==== Sys2Proof/Machine/Ops.lean ====
section
/-! DEFINITION. The shared operations: the buffers (spec/20_memory.md R50 to R53), the register reads
and writes of the host (spec/10_state.md R40 to R45), and the two ways a command ends, success (R233)
and error (R232, spec/60_exceptions.md). An error is a completion, not a trap: nothing is saved, no
handler exists and nothing returns from it (R230, R236, R237), so `errorCompletion` is all of "taking
an exception" on this hardware. -/

namespace Sys2Proof.Machine

/-- The byte at an index of a buffer, or nothing if it is unwritten. -/
def Memory.load : Memory → Nat → Option Byte
  | [], _ => none
  | (k, v) :: m, a => if a = k then some v else Memory.load m a

/-- Writes one byte, keeping the indices strictly rising. -/
def Memory.store : Memory → Nat → Byte → Memory
  | [], a, b => [(a, b)]
  | (k, v) :: m, a, b =>
    if a < k then (a, b) :: (k, v) :: m
    else if a = k then (a, b) :: m
    else (k, v) :: Memory.store m a b

/-- `MemRead(buffer, a, n)`, or nothing if one of the n bytes is unwritten (R52). -/
def Memory.loadRange (m : Memory) (a : Nat) : Nat → Option (List Byte)
  | 0 => some []
  | n + 1 =>
    match Memory.load m a, Memory.loadRange m (a + 1) n with
    | some b, some bs => some (b :: bs)
    | _, _ => none

/-- `MemWrite(buffer, a, n, v)` with n the length of v (R53). -/
def Memory.storeRange (m : Memory) (a : Nat) : List Byte → Memory
  | [] => m
  | b :: bs => Memory.storeRange (Memory.store m a b) (a + 1) bs

/-- The canonical form of a buffer: indices strictly rising. No entry equals what an unlisted index
reads as, since that is no value. -/
abbrev Memory.wf (m : Memory) : Prop := m.Pairwise (fun c d => c.1 < d.1)

/-- What a successful command produces: RES0, RES1 and the bytes it writes at OBUF index 0. A result
its rule does not name is 0 (60_exceptions.md R233). -/
structure Result where
  res0 : Word64 := 0
  res1 : BitVec 32 := 0
  out  : List Byte := []
deriving DecidableEq, Repr

/-- A result with output bytes only. -/
def outputOnly (out : List Byte) : Result := { out := out }

/-- The success completion `complete(...)` (R233): CODE, the results, OLEN and the OBUF bytes change
in one step; BUSY and FSTATE end at 0 and IDLE. OLEN is the number of bytes written (R53). -/
def complete (r : Result) (s : State) : State :=
  { s with
    code := .ok, res0 := r.res0, res1 := r.res1, olen := BitVec.ofNat 16 r.out.length,
    obuf := Memory.storeRange s.obuf 0 r.out, busy := false, fstate := .idle }

/-- The error completion (R232): CODE is the error, the results are 0, OBUF keeps its bytes. -/
def errorCompletion (e : ErrorKind) (s : State) : State :=
  { s with code := .err e, res0 := 0, res1 := 0, olen := 0, busy := false, fstate := .idle }

/-- Ends a command with what its rule computed: `complete` or `raise` (R232, R233). -/
def settle (r : Except ErrorKind Result) (s : State) : State :=
  match r with
  | .ok x => complete x s
  | .error e => errorCompletion e s

/-- A command that reads `IBUF[0..n-1]` and ends with what `f` computes from it. Reading an unwritten
byte is FaultUnwrittenInput (R52, R241; log 4, safe). -/
def onInput (n : Nat) (f : List Byte → Except ErrorKind Result) (s : State) :
    Host.Outcome State Fault Refusal :=
  match Memory.loadRange s.ibuf 0 n with
  | some x => .next (settle (f x) s)
  | none => .fault .unwrittenInput

/-- A command that reads ARG0: check 4 of 30_encoding.md R76 first, then what its rule computes. -/
def onArg (argOk : Word64 → Bool) (f : Word64 → Except ErrorKind Result) (s : State) : State :=
  if argOk s.arg0 then settle (f s.arg0) s else errorCompletion .commandError s

/-- A CMD write is accepted: CMD takes the word, CMDLOST is cleared (10_state.md R41). -/
def acceptCmd (w : CmdWord) (s : State) : State := { s with cmd := w, cmdLost := false }

/-- A CMD write while BUSY = 1: only CMDLOST changes (R42). -/
def loseCmd (s : State) : State := { s with cmdLost := true }

/-- The value of a register, zero-extended (R21 to R27, R40). -/
def regValue (s : State) : Reg → Word64
  | .cmd => s.cmd.setWidth 64
  | .status => (statusWord s).setWidth 64
  | .arg0 => s.arg0
  | .res0 => s.res0
  | .res1 => s.res1.setWidth 64
  | .olen => s.olen.setWidth 64
  | .fstate => (fstateWord s.fstate).setWidth 64

/-- `HostRead(r)`: a register that does not exist reads as 0 (R40). -/
def readRegister (s : State) (r : Nat) : Word64 :=
  match regOf r with
  | some g => regValue s g
  | none => 0

/-- `HostWrite(r, v)` to a register other than CMD: only ARG0 is written, with the 64 low bits of the
value; a write to a read-only register or to none has no effect (R40, R45). -/
def writeRegister (r v : Nat) (s : State) : State :=
  match regOf r with
  | some .arg0 => { s with arg0 := BitVec.ofNat 64 v }
  | _ => s

/-- Hands a value to the host: the result of its read (R40; log 9). -/
def giveHost (v : Word64) (s : State) : State := { s with env := { s.env with hostData := some v } }

/-- `HostWriteIbuf(i, b)` (R43). -/
def writeIbuf (i : Nat) (b : Byte) (s : State) : State :=
  if i < Config.bufSize then { s with ibuf := Memory.store s.ibuf i b } else s

/-- A free value is drawn: the counter moves on (P16; log 5). -/
def drawFree (s : State) : State := { s with env := { s.env with draws := s.env.draws + 1 } }

/-- `HostReadIbuf(i)` (R43): the byte, 0 outside the buffer, any value if nothing wrote the byte (P16). -/
def readIbuf (i : Nat) (s : State) : State :=
  if i < Config.bufSize then
    match Memory.load s.ibuf i with
    | some b => giveHost (b.setWidth 64) s
    | none => giveHost ((Config.freeByte s.env.draws).setWidth 64) (drawFree s)
  else giveHost 0 s

/-- `HostReadObuf(i)` (R44): the byte, 0 outside the buffer, FaultUnwrittenOutput if nothing wrote the
byte (R241; log 4, safe). -/
def readObuf (i : Nat) (s : State) : Host.Outcome State Fault Refusal :=
  if i < Config.bufSize then
    match Memory.load s.obuf i with
    | some b => .next (giveHost (b.setWidth 64) s)
    | none => .fault .unwrittenOutput
  else .next (giveHost 0 s)

/-- Reset (10_state.md R39, R46; 70_reset_and_hazards.md R260, R261): every piece of the core's state
takes its reset value, and the streams, which belong to the environment, stay as they are. -/
def applyReset (s : State) : State := { State.reset with env := s.env }

/-- The moves still to come. -/
def withMoves (ms : List Move) (s : State) : State := { s with env := { s.env with moves := ms } }

end Sys2Proof.Machine
end

