-- ==== Sys2Proof/Machine/Bcd.lean ====
section
/-! DEFINITION. The BCD codec: spec/41_bcd.md R100 to R107. -/

namespace Sys2Proof.Machine

/-- `isValidBCD(b)`: both nibbles are 0 to 9 (R100, 30_encoding.md R77). -/
def isValidBCD (b : Byte) : Bool := decide ((hiNibble b).toNat ≤ 9) && decide ((loNibble b).toNat ≤ 9)

/-- `bcdVal(b)`: tens in the high nibble, ones in the low one (R100). -/
def bcdVal (b : Byte) : Nat := (hiNibble b).toNat * 10 + (loNibble b).toNat

/-- `bcdByte(v)` for v from 0 to 99 (R100). -/
def bcdByte (v : Nat) : Byte := BitVec.ofNat 4 (v / 10) ++ BitVec.ofNat 4 (v % 10)

/-- The value or BcdError of TOBCD (R101). -/
def toBCD (v : Word64) : Except ErrorKind Result :=
  if v.toNat > 99 then .error .bcdError else .ok { res0 := (bcdByte v.toNat).setWidth 64 }

/-- The value or BcdError of FROMBCD (R102). -/
def fromBCD (b : Byte) : Except ErrorKind Result :=
  if isValidBCD b then .ok { res0 := BitVec.ofNat 64 (bcdVal b) } else .error .bcdError

/-- An ASCII decimal digit: `0x30` to `0x39` (R104, 00_scope.md R11). -/
def isDigit (b : Byte) : Bool := decide (0x30 ≤ b.toNat) && decide (b.toNat ≤ 0x39)

/-- The digit of an ASCII code: `s[i] - 0x30` (R104). -/
def digitOf (b : Byte) : BitVec 4 := (b - 0x30).setWidth 4

/-- The ASCII code of a digit: `0x30 + d` (R105). -/
def asciiOf (d : BitVec 4) : Byte := 0x30 + d.setWidth 8

/-- Adds the pad digit to an odd number of digits (R104). -/
def padDigits (pad : Config.OddPad) (d : List (BitVec 4)) : List (BitVec 4) :=
  if d.length % 2 = 1 then
    match pad with
    | .leading => 0 :: d
    | .trailing => d ++ [0]
  else d

/-- Packs digits two to a byte, the first of a pair in the high nibble (R104). -/
def packDigits : List (BitVec 4) → List Byte
  | h :: l :: d => (h ++ l) :: packDigits d
  | _ => []

/-- ENCDIG's bytes, or BcdError when some byte is no digit (R104). -/
def encodeDigits (pad : Config.OddPad) (s : List Byte) : Except ErrorKind (List Byte) :=
  if s.all isDigit then .ok (packDigits (padDigits pad (s.map digitOf))) else .error .bcdError

/-- DECDIG's digits, or BcdError when some byte is not valid BCD (R105). -/
def decodeDigits (x : List Byte) : Except ErrorKind (List Byte) :=
  if x.all isValidBCD then
    .ok (x.flatMap fun b => [asciiOf (hiNibble b), asciiOf (loNibble b)])
  else .error .bcdError

/-- ENCINT's bytes, most significant first, or BcdError when n does not fit k base-100 digits (R106). -/
def encodeInt (n k : Nat) : Except ErrorKind (List Byte) :=
  if n ≥ 100 ^ k then .error .bcdError
  else .ok ((List.range k).map fun i => bcdByte (n / 100 ^ (k - 1 - i) % 100))

/-- DECINT's integer, or BcdError when some byte is not valid BCD (R107). -/
def decodeInt (x : List Byte) : Except ErrorKind Nat :=
  if x.all isValidBCD then .ok (x.foldl (fun n b => n * 100 + bcdVal b) 0) else .error .bcdError

/-- TOBCD (R101). -/
def execTobcd (s : State) : Host.Outcome State Fault Refusal := .next (settle (toBCD s.arg0) s)

/-- FROMBCD (R102). -/
def execFrombcd (s : State) : Host.Outcome State Fault Refusal :=
  .next (onArg byteArgOk (fun a => fromBCD (byteArg a)) s)

/-- ISBCD (R103). -/
def execIsbcd (s : State) : Host.Outcome State Fault Refusal :=
  .next (onArg byteArgOk (fun a => .ok { res0 := if isValidBCD (byteArg a) then 1 else 0 }) s)

/-- ENCDIG (R104). -/
def execEncdig (len : Nat) (s : State) : Host.Outcome State Fault Refusal :=
  onInput len (fun x => (encodeDigits Config.oddPad x).map outputOnly) s

/-- DECDIG (R105). -/
def execDecdig (len : Nat) (s : State) : Host.Outcome State Fault Refusal :=
  onInput len (fun x => (decodeDigits x).map outputOnly) s

/-- ENCINT (R106). -/
def execEncint (len : Nat) (s : State) : Host.Outcome State Fault Refusal :=
  .next (settle ((encodeInt s.arg0.toNat len).map outputOnly) s)

/-- DECINT (R107). -/
def execDecint (len : Nat) (s : State) : Host.Outcome State Fault Refusal :=
  onInput len (fun x => (decodeInt x).map fun n => { res0 := BitVec.ofNat 64 n }) s

end Sys2Proof.Machine
end

