-- ==== Sys2Proof/Machine/Address.lean ====
section
/-! DEFINITION. The address codec: spec/43_address.md R140 to R147. -/

namespace Sys2Proof.Machine

/-- `addrDecode(a)`: an AV, or AddressError for an admin address whose code is not BCD (R140). A list
of other than five bytes never reaches it (R144). -/
def addrDecode : List Byte → Except ErrorKind Word64
  | [a0, a1, a2, a3, a4] =>
    if a0 = Config.codedTag then .ok (avOf true a0 a1 a2 a3 a4)
    else if isValidBCD a0 && isValidBCD a1 && isValidBCD a2 then .ok (avOf false a0 a1 a2 a3 a4)
    else .error .addressError
  | _ => .error .addressError

/-- The three bytes of an AV's admin code are valid BCD. -/
def adminCodeOk (av : Word64) : Bool :=
  isValidBCD (avByte av 0) && isValidBCD (avByte av 1) && isValidBCD (avByte av 2)

/-- `addrEncode(av)`: the five wire bytes, or AddressError for an admin address that would decode as
another address or not at all (R141). -/
def addrEncode (av : Word64) : Except ErrorKind (List Byte) :=
  if avTag av then .ok (avBytes av)
  else if avByte av 0 = Config.codedTag then .error .addressError
  else if adminCodeOk av then .ok (avBytes av)
  else .error .addressError

/-- `addrValidate(av)`: the class, 1 monitoring, 2 relay, 3 broadcast, 4 coded, or AddressError
(R142). -/
def addrValidate (av : Word64) : Except ErrorKind Nat :=
  if avTag av then .ok 4
  else if !adminCodeOk av then .error .addressError
  else if (avStation av).toNat = 0 then .error .addressError
  else if (avStation av).toNat ≤ 60000 then .ok 1
  else if (avStation av).toNat ≤ 65534 then .ok 2
  else .ok 3

/-- The ASCII code of a hex digit, letters in the given case (R143, 00_scope.md R11). -/
def hexChar (case : Config.HexCase) (n : BitVec 4) : Byte :=
  if n.toNat ≤ 9 then 0x30 + n.setWidth 8
  else
    match case with
    | .upper => 0x41 + (n.setWidth 8 - 10)
    | .lower => 0x61 + (n.setWidth 8 - 10)

/-- `hexText(c)`: two hex digits a byte, high nibble first (R143). -/
def hexText (case : Config.HexCase) (c : List Byte) : List Byte :=
  c.flatMap fun b => [hexChar case (hiNibble b), hexChar case (loNibble b)]

/-- AHEX's characters: of the four code bytes of a coded address; CommandError for an admin address
(R147). -/
def addrHex (case : Config.HexCase) (av : Word64) : Except ErrorKind (List Byte) :=
  if avTag av then .ok (hexText case [avByte av 1, avByte av 2, avByte av 3, avByte av 4])
  else .error .commandError

/-- ADEC (R144): IBUF is read only when at least ADDR_LEN bytes are available. -/
def execAdec (len : Nat) (s : State) : Host.Outcome State Fault Refusal :=
  if len < Config.addrLen then .next (errorCompletion .addressError s)
  else onInput Config.addrLen (fun x => (addrDecode x).map fun av => { res0 := av, res1 := 5 }) s

/-- AENC (R145). -/
def execAenc (s : State) : Host.Outcome State Fault Refusal :=
  .next (onArg avOk (fun av => (addrEncode av).map outputOnly) s)

/-- AVAL (R146). -/
def execAval (s : State) : Host.Outcome State Fault Refusal :=
  .next (onArg avOk (fun av => (addrValidate av).map fun c => { res0 := BitVec.ofNat 64 c }) s)

/-- AHEX (R147). -/
def execAhex (s : State) : Host.Outcome State Fault Refusal :=
  .next (onArg avOk (fun av => (addrHex Config.hexCase av).map outputOnly) s)

end Sys2Proof.Machine
end

