-- ==== Sys2Proof/Machine/Control.lean ====
section
/-! DEFINITION. The control field codec: spec/44_control.md R160 to R164. -/

namespace Sys2Proof.Machine

/-- `ctrlDecode(x, n)`: the CV and the bytes consumed, or ControlError when a byte is missing (R160).
`x` holds the bytes the command has read, `n` is how many are available. -/
def ctrlDecode (x : List Byte) (n : Nat) : Except ErrorKind (Word64 × BitVec 32) :=
  if n = 0 then .error .controlError
  else
    match x with
    | [] => .error .controlError
    | c0 :: rest =>
      if splitFlag c0 then
        if n < 2 then .error .controlError
        else
          match rest with
          | [] => .error .controlError
          | c1 :: _ => .ok (cvOf c1 c0, 2)
      else .ok (cvOf 0 c0, 1)

/-- `ctrlEncode(cv)`: one or two wire bytes, or ControlError for a split count without the split flag
(R161). -/
def ctrlEncode (cv : Word64) : Except ErrorKind (List Byte) :=
  if splitFlag (cvFirst cv) then .ok [cvFirst cv, cvSplitCount cv]
  else if cvSplitCount cv = 0 then .ok [cvFirst cv]
  else .error .controlError

/-- How many IBUF bytes CDEC reads: `IBUF[0]` when LEN ≥ 1, and `IBUF[1]` when its SPLIT bit is 1 and
LEN ≥ 2 (R162, 30_encoding.md R74). -/
def cdecReads (len : Nat) (m : Memory) : Nat :=
  if len = 0 then 0
  else
    match Memory.load m 0 with
    | some c0 => if splitFlag c0 && decide (2 ≤ len) then 2 else 1
    | none => 1

/-- CDEC (R162). -/
def execCdec (len : Nat) (s : State) : Host.Outcome State Fault Refusal :=
  onInput (cdecReads len s.ibuf)
    (fun x => (ctrlDecode x len).map fun p => { res0 := p.1, res1 := p.2 }) s

/-- CENC (R163). -/
def execCenc (s : State) : Host.Outcome State Fault Refusal :=
  .next (onArg cvOk (fun cv => (ctrlEncode cv).map outputOnly) s)

/-- CLEN (R164). -/
def execClen (s : State) : Host.Outcome State Fault Refusal :=
  .next (onArg cvOk (fun cv => .ok { res0 := if splitFlag (cvFirst cv) then 2 else 1 }) s)

end Sys2Proof.Machine
end

