-- ==== Sys2Proof/Machine/Checksum.lean ====
section
/-! DEFINITION. The checksum engine: spec/42_checksum.md R130, R131. -/

namespace Sys2Proof.Machine

/-- One shift of the checksum register: left by one within 8 bits, then xor POLY if bit 7 was 1
(R130). -/
def crcShift (c : Byte) : Byte := if c.getLsbD 7 then (c <<< 1) ^^^ Config.poly else c <<< 1

/-- `n` shifts of the checksum register. -/
def crcShifts : Nat → Byte → Byte
  | 0, c => c
  | n + 1, c => crcShifts n (crcShift c)

/-- One byte of the region: xor it in, then 8 shifts (R130). -/
def crcByte (c b : Byte) : Byte := crcShifts 8 (c ^^^ b)

/-- `checksum(region)` (R130). -/
def checksum (region : List Byte) : Byte := region.foldl crcByte 0 &&& Config.csMask

/-- CSUM (R131). -/
def execCsum (len : Nat) (s : State) : Host.Outcome State Fault Refusal :=
  onInput len (fun x => .ok { res0 := (checksum x).setWidth 64 }) s

end Sys2Proof.Machine
end

