-- ==== Sys2Proof/Machine/Frame.lean ====
section
/-! DEFINITION. The frame codec: spec/45_frame.md R180 to R183. -/

namespace Sys2Proof.Machine

/-- `frameEncode(r)`: the wire bytes of a region, or LengthError (R180). -/
def frameEncode (r : List Byte) : Except ErrorKind (List Byte) :=
  if r.length = 0 ∨ r.length > Config.maxRegion then .error .lengthError
  else .ok ([Config.start, BitVec.ofNat 8 r.length, Config.start] ++ r ++ [checksum r, Config.endMarker])

/-- What frame decode returns: the region, the length byte and the checksum byte (R181). -/
structure Frame where
  region : List Byte
  l      : Byte
  cs     : Byte
deriving DecidableEq, Repr

/-- `frameDecode(w)`: five checks in the order of R181; the first that fails gives the error. -/
def frameDecode (w : List Byte) : Except ErrorKind Frame :=
  let l := w.getD 1 0
  let region := (w.drop 3).take l.toNat
  let cs := w.getD (3 + l.toNat) 0
  if w.length < Config.minWireLen then .error .framingError
  else if w.getD 0 0 ≠ Config.start ∨ w.getD 2 0 ≠ Config.start then .error .framingError
  else if w.length ≠ l.toNat + Config.overhead then .error .lengthError
  else if w.getD (w.length - 1) 0 ≠ Config.endMarker then .error .framingError
  else if checksum region ≠ cs then .error .checksumError
  else .ok { region := region, l := l, cs := cs }

/-- The result of a frame encode: the wire bytes, and FR of the region (R182, 30_encoding.md R85). -/
def fencResult (r : List Byte) (f : List Byte) : Result :=
  { res0 := frOf (BitVec.ofNat 8 r.length) (checksum r), out := f }

/-- FENC (R182). -/
def execFenc (len : Nat) (s : State) : Host.Outcome State Fault Refusal :=
  onInput len (fun r => (frameEncode r).map (fencResult r)) s

/-- FDEC (R183). -/
def execFdec (len : Nat) (s : State) : Host.Outcome State Fault Refusal :=
  onInput len (fun w => (frameDecode w).map fun f => { res0 := frOf f.l f.cs, out := f.region }) s

end Sys2Proof.Machine
end

