-- ==== Sys2Proof/Machine/Stream.lean ====
section
/-! DEFINITION. The stream framer: spec/46_stream.md R200 to R216. RDFRM and WRFRM start here; the
framer's and the transmitter's own steps follow. -/

namespace Sys2Proof.Machine

/-- RDFRM, the issue step (R201). It takes no RX event. -/
def execRdfrm (s : State) : Host.Outcome State Fault Refusal :=
  .next { s with fcnt := 0, fbuf := [], fl := 0, frem := 0, fstate := .seekStart, busy := true }

/-- The transmitter is loaded with a frame (R213). -/
def startSend (f : List Byte) (s : State) : State :=
  { s with txbuf := f, txpos := 0, fstate := .tx, busy := true }

/-- WRFRM, the issue step (R213): the frame is fixed here; LengthError ends the command at once. -/
def execWrfrm (len : Nat) (s : State) : Host.Outcome State Fault Refusal :=
  match Memory.loadRange s.ibuf 0 len with
  | none => .fault .unwrittenInput
  | some r =>
    match frameEncode r with
    | .ok f => .next (startSend f s)
    | .error e => .next (errorCompletion e s)

/-- `finishErr(E)` of an RDFRM that fails in the state `f` (R210): RES0 is the number of that state,
RES1 the bytes consumed. -/
def finishErr (f : FState) (e : ErrorKind) (s : State) : State :=
  { s with
    code := .err e, res0 := (fstateWord f).setWidth 64, res1 := s.fcnt, olen := 0,
    busy := false, fstate := .idle }

/-- `finalize()`, the step of DONE (R207): the whole frame decode of what was accumulated. -/
def finalize (s : State) : State :=
  match frameDecode s.fbuf with
  | .ok f => complete { res0 := frOf f.l f.cs, res1 := s.fcnt, out := f.region } s
  | .error e => finishErr .readBody e s

/-- A byte is consumed (R203 to R206): FCNT counts it, modulo 2^32. -/
def countByte (s : State) : State := { s with fcnt := s.fcnt + 1 }

/-- A byte is consumed and kept in FBUF (R204 to R206). -/
def keepByte (b : Byte) (s : State) : State := { countByte s with fbuf := s.fbuf ++ [b] }

/-- `RxByte(b)` in SEEK_START (R203): noise is counted and dropped, START commits the read. -/
def seekStartByte (b : Byte) (s : State) : State :=
  if b = Config.start then { countByte s with fbuf := [b], fstate := .readLength } else countByte s

/-- `RxByte(b)` in READ_LENGTH (R204). -/
def readLengthByte (b : Byte) (s : State) : State :=
  let t := { keepByte b s with fl := b }
  if b = 0 then finishErr .readLength .lengthError t else { t with fstate := .readSecondStart }

/-- `RxByte(b)` in READ_SECOND_START (R205): a bad marker aborts, and is not scanned again. -/
def readSecondStartByte (b : Byte) (s : State) : State :=
  if b = Config.start then
    { keepByte b s with frem := s.fl.setWidth 9 + 2, fstate := .readBody }
  else finishErr .readSecondStart .framingError (keepByte b s)

/-- `RxByte(b)` in READ_BODY (R206). -/
def readBodyByte (b : Byte) (s : State) : State :=
  let t := { keepByte b s with frem := s.frem - 1 }
  if t.frem = 0 then finalize t else t

/-- The framer takes one byte, as FSTATE says (R203 to R206). Outside 1 to 4 it takes none. -/
def takeByte (b : Byte) (s : State) : State :=
  match s.fstate with
  | .seekStart => seekStartByte b s
  | .readLength => readLengthByte b s
  | .readSecondStart => readSecondStartByte b s
  | .readBody => readBodyByte b s
  | .idle | .done | .tx => s

/-- The framer takes one RX event (R202 to R209). -/
def takeEvent (e : RxEvent) (s : State) : State :=
  match e with
  | .byte b => takeByte b s
  | .streamEnd => finishErr s.fstate .incompleteFrameError s
  | .fail => finishErr s.fstate .connectionError s

/-- The byte the transmitter offers, `TXBUF[TXPOS]` (10_state.md R38). -/
def offeredByte (s : State) : Option Byte := s.txbuf[s.txpos.toNat]?

/-- The offered byte goes out on the TX stream (20_memory.md R50; log 11). -/
def sendByte (s : State) : State :=
  { s with env := { s.env with sent := s.env.sent ++ (offeredByte s).toList }, txpos := s.txpos + 1 }

/-- The FR of the frame in TXBUF: `TXBUF[1]` and `TXBUF[len-2]` (R214). -/
def sentFr (s : State) : Word64 := frOf (s.txbuf.getD 1 0) (s.txbuf.getD (s.txbuf.length - 2) 0)

/-- `TxAccept` (R214). -/
def acceptByte (s : State) : State :=
  let t := sendByte s
  if t.txpos.toNat = t.txbuf.length then
    complete { res0 := sentFr t, res1 := t.txpos.setWidth 32 } t
  else t

/-- `TxFail` (R215). -/
def failSend (s : State) : State :=
  { s with
    code := .err .connectionError, res0 := 0, res1 := s.txpos.setWidth 32, olen := 0,
    busy := false, fstate := .idle }

/-- The transmitter gets an answer (R214, R215). -/
def takeAnswer (a : TxAnswer) (s : State) : State :=
  match a with
  | .accept => acceptByte s
  | .fail => failSend s

/-- The RX events still to be taken. -/
def withRx (es : List RxEvent) (s : State) : State := { s with env := { s.env with rx := es } }

/-- The TX answers still to come. -/
def withTx (as : List TxAnswer) (s : State) : State := { s with env := { s.env with tx := as } }

/-- The step of the engine that FSTATE enables (R200, R202, R214): the framer takes the next RX event,
the transmitter the next answer. With none ready it waits, and in IDLE it does nothing (log 10). -/
def engineStep (s : State) : State :=
  match s.fstate with
  | .seekStart | .readLength | .readSecondStart | .readBody =>
    match s.env.rx with
    | [] => s
    | e :: rest => takeEvent e (withRx rest s)
  | .tx =>
    match s.env.tx with
    | [] => s
    | a :: rest => takeAnswer a (withTx rest s)
  | .idle | .done => s

end Sys2Proof.Machine
end

