-- ==== Sys2Proof/Machine/Dispatch.lean ====
section
/-! DEFINITION. `exec`: one arm per command, each a direct call of its meaning. -/

namespace Sys2Proof.Machine

-- The issue of a command whose word has passed checks 1 to 3 of spec/30_encoding.md R76.
def exec (i : Instr) (s : State) : Host.Outcome State Fault Refusal :=
  match i with
  -- BCD codec, 41_bcd.md
  | .tobcd => Sys2Proof.Machine.execTobcd s
  | .frombcd => Sys2Proof.Machine.execFrombcd s
  | .isbcd => Sys2Proof.Machine.execIsbcd s
  | .encdig len => Sys2Proof.Machine.execEncdig len s
  | .decdig len => Sys2Proof.Machine.execDecdig len s
  | .encint len => Sys2Proof.Machine.execEncint len s
  | .decint len => Sys2Proof.Machine.execDecint len s
  -- checksum engine, 42_checksum.md
  | .csum len => Sys2Proof.Machine.execCsum len s
  -- address codec, 43_address.md
  | .adec len => Sys2Proof.Machine.execAdec len s
  | .aenc => Sys2Proof.Machine.execAenc s
  | .aval => Sys2Proof.Machine.execAval s
  | .ahex => Sys2Proof.Machine.execAhex s
  -- control field codec, 44_control.md
  | .cdec len => Sys2Proof.Machine.execCdec len s
  | .cenc => Sys2Proof.Machine.execCenc s
  | .clen => Sys2Proof.Machine.execClen s
  -- frame codec, 45_frame.md
  | .fenc len => Sys2Proof.Machine.execFenc len s
  | .fdec len => Sys2Proof.Machine.execFdec len s
  -- stream framer, 46_stream.md
  | .rdfrm => Sys2Proof.Machine.execRdfrm s
  | .wrfrm len => Sys2Proof.Machine.execWrfrm len s

end Sys2Proof.Machine
end

