-- ==== Sys2Proof/Machine/Issue.lean ====
section
/-! DEFINITION. The issue of a command word (spec/10_state.md R41, R42; spec/30_encoding.md R76), the
host operations as steps (R40 to R45), and what a move does. -/

namespace Sys2Proof.Machine

/-- A word is issued: a word that is no command ends with CommandError (R72, R73, R74), a command runs
(R76). -/
def issue (w : CmdWord) (s : State) : Host.Outcome State Fault Refusal :=
  match decode w with
  | .ok i => exec i s
  | .error _ => .next (errorCompletion .commandError s)

/-- `HostWrite(0, w)`: ignored while BUSY = 1 except for CMDLOST (R42), else accepted and issued in
the same step (R41). -/
def writeCmd (w : CmdWord) (s : State) : Host.Outcome State Fault Refusal :=
  if s.busy then .next (loseCmd s) else issue w (acceptCmd w s)

/-- A host operation (R40). A value wider than its register keeps the register's width. -/
def hostStep (op : HostOp) (s : State) : Host.Outcome State Fault Refusal :=
  match op with
  | .write r v => if r = 0 then writeCmd (BitVec.ofNat 32 v) s else .next (writeRegister r v s)
  | .read r => .next (giveHost (readRegister s r) s)
  | .writeIbuf i b => .next (writeIbuf i b s)
  | .readIbuf i => .next (readIbuf i s)
  | .readObuf i => readObuf i s

/-- A move is made (20_memory.md R57). -/
def perform (m : Move) (s : State) : Host.Outcome State Fault Refusal :=
  match m with
  | .host op => hostStep op s
  | .engine => .next (engineStep s)
  | .reset => .next (applyReset s)

/-- The state in which the very next step is the host's write of the `nbits` low bits of `w` to CMD,
on a core that is ready for a command: no stream command in progress (log 2). -/
def stageCommand (s : State) (nbits w : Nat) : State :=
  { s with
    busy := false, fstate := .idle,
    env := { s.env with moves := .host (.write 0 (w % 2 ^ nbits)) :: s.env.moves } }

end Sys2Proof.Machine
end

