-- ==== Sys2Proof/Machine/Step.lean ====
section
/-! DEFINITION. One step of the machine (spec/20_memory.md R57). The core has no program counter and
fetches nothing (spec/10_state.md R36): its commands are the host's writes to CMD. -/

namespace Sys2Proof.Machine

/-- One step: the next move is made. With no move left only the core's own engine can step, and it
waits when it has nothing to take (46_stream.md R200, R202; logs 1 and 10). -/
def step (s : State) : Host.Outcome State Fault Refusal :=
  match s.env.moves with
  | [] => .next (engineStep s)
  | m :: rest => perform m (withMoves rest s)

/-- `s` with the command word `w` of `nbits` bits placed where the next step takes its command: as the
host's next operation (log 2). -/
def State.withFetchWord (s : State) (nbits w : Nat) : State := stageCommand s nbits w

end Sys2Proof.Machine
end

