-- ==== Sys2Proof/Safety.lean ====
section
/-! DEFINITION. What counts as a good state of the core, and the words the statements are written in:
how a command ends, what a buffer holds, the shapes of numbers the rules of the spec speak of, and open
runs with the fairness premise of R269. The
number shapes are written over Nat, apart from the bit slices the meanings use. -/

namespace Sys2Proof.Machine

/-- A buffer in canonical form, all of whose bytes lie below BUF_SIZE (spec/20_memory.md R51). -/
def Memory.ok (m : Memory) : Prop := Memory.wf m ∧ ∀ c ∈ m, c.1 < Config.bufSize

/-- What the framer's hidden registers hold in each state of a read, and the transmitter's in TX
(spec/10_state.md R30 to R34, spec/46_stream.md R201 to R214). DONE is never held (R207). -/
def engineOk (s : State) : Prop :=
  match s.fstate with
  | .idle => True
  | .seekStart => s.fbuf = [] ∧ s.fl = 0 ∧ s.frem = 0
  | .readLength => s.fbuf = [Config.start] ∧ s.fl = 0 ∧ s.frem = 0
  | .readSecondStart => s.fbuf = [Config.start, s.fl] ∧ s.fl ≠ 0 ∧ s.frem = 0
  | .readBody =>
    s.fbuf.take 3 = [Config.start, s.fl, Config.start] ∧ s.fl ≠ 0 ∧ s.frem ≠ 0 ∧
      s.fbuf.length + s.frem.toNat = s.fl.toNat + 5
  | .done => False
  | .tx => (∃ r, frameEncode r = .ok s.txbuf) ∧ s.txpos.toNat < s.txbuf.length

/-- The invariant: the buffers are canonical, the list registers keep their sizes (R33, R34), OLEN is
at most BUF_SIZE (R26), CODE is a code the core raises (R231), BUSY is 1 exactly while a stream
command is in progress (R22, R27), and the engine's registers fit its state. -/
structure State.Inv (s : State) : Prop where
  ibuf_ok   : Memory.ok s.ibuf
  obuf_ok   : Memory.ok s.obuf
  fbuf_size : s.fbuf.length ≤ 260
  txbuf_size : s.txbuf.length ≤ 260
  olen_le   : s.olen.toNat ≤ Config.bufSize
  code_ok   : s.code ≠ .err .dataError ∧ s.code ≠ .err .authError
  busy_iff  : s.busy = true ↔ s.fstate ≠ .idle
  engine_ok : engineOk s

/-- `s` after a success that names RES0 and RES1 and writes no OBUF byte (spec/60_exceptions.md
R233). -/
def succeeded (s : State) (r0 : Word64) (r1 : BitVec 32) : State :=
  { s with code := .ok, res0 := r0, res1 := r1, olen := 0, busy := false, fstate := .idle }

/-- `s` after an error completion (spec/60_exceptions.md R232). -/
def failed (s : State) (e : ErrorKind) : State :=
  { s with code := .err e, res0 := 0, res1 := 0, olen := 0, busy := false, fstate := .idle }

/-- `t` is `s` after a success that writes the bytes `out` at OBUF index 0 and names RES0 and RES1:
every other OBUF byte, and everything else, is as before (R233, spec/20_memory.md R53). -/
def Stored (s t : State) (out : List Byte) (r0 : Word64) (r1 : BitVec 32) : Prop :=
  t = { s with
        code := .ok, res0 := r0, res1 := r1, olen := BitVec.ofNat 16 out.length, obuf := t.obuf,
        busy := false, fstate := .idle } ∧
  ∀ a, Memory.load t.obuf a = if a < out.length then out[a]? else Memory.load s.obuf a

/-- A buffer holds the bytes `x` from index 0 on. -/
def Holds (m : Memory) (x : List Byte) : Prop := ∀ i, i < x.length → Memory.load m i = x[i]?

/-- Some byte among the first `n` of a buffer is unwritten. -/
def Unwritten (m : Memory) (n : Nat) : Prop := ∃ i, i < n ∧ Memory.load m i = none

/-- The words of an opcode: with LEN up to `max` the word `op + LEN * 2^16` issues the command, with
a larger LEN it ends with CommandError (spec/30_encoding.md R70, R74, R76). -/
def Encoded (op max : Nat) (mk : Nat → Instr) : Prop :=
  ∀ n, n < 1024 → ∀ s,
    (n ≤ max → issue (BitVec.ofNat 32 (op + n * 65536)) s = exec (mk n) s) ∧
    (max < n → issue (BitVec.ofNat 32 (op + n * 65536)) s = .next (failed s .commandError))

/-- A number below 256 whose two hexadecimal digits are decimal digits (R77). -/
def IsBcd (n : Nat) : Prop := n / 16 ≤ 9 ∧ n % 16 ≤ 9

/-- The BCD byte of a number from 0 to 99, as a number (spec/41_bcd.md R100). -/
def bcdNat (v : Nat) : Nat := v / 10 * 16 + v % 10

/-- Digits made even in number by a zero digit, placed as ODD_PAD says (spec/41_bcd.md R104). -/
def padNat (pad : Config.OddPad) (d : List Nat) : List Nat :=
  if d.length % 2 = 0 then d
  else
    match pad with
    | .leading => 0 :: d
    | .trailing => d ++ [0]

/-- The ASCII code of a hex digit in the given case, as a number (spec/43_address.md R143). -/
def hexNat (case : Config.HexCase) (n : Nat) : Nat :=
  if n ≤ 9 then 0x30 + n
  else
    match case with
    | .upper => 0x41 + (n - 10)
    | .lower => 0x61 + (n - 10)

/-- Bytes read as one big-endian number (spec/20_memory.md R54). -/
def wireNat (x : List Byte) : Nat := x.foldl (fun n b => n * 256 + b.toNat) 0

/-- A well-formed address value, as a number (R75, R83). -/
def AddrFormed (av : Nat) : Prop := av < 2 ^ 41 ∧ (2 ^ 40 ≤ av → av / 2 ^ 32 % 256 = 0)

/-- Wire byte i of an address value, as a number (R83). -/
def addrByteNat (av i : Nat) : Nat := av / 256 ^ (4 - i) % 256

/-- The admin code of an address value is BCD: wire bytes 0 to 2 (R80). -/
def AdminBcd (av : Nat) : Prop :=
  IsBcd (addrByteNat av 0) ∧ IsBcd (addrByteNat av 1) ∧ IsBcd (addrByteNat av 2)

/-- The opcode map with LENMAX, as the tables of R71 and R74 give it. -/
def opTable : List (Nat × Nat) :=
  [(0x10, 0), (0x11, 0), (0x12, 0), (0x13, 512), (0x14, 256), (0x15, 8), (0x16, 8), (0x20, 512),
   (0x30, 512), (0x31, 0), (0x32, 0), (0x33, 0), (0x40, 512), (0x41, 0), (0x42, 0), (0x50, 512),
   (0x51, 512), (0x60, 0), (0x61, 512)]

/-- One shift of the checksum register, over numbers below 256 (spec/42_checksum.md R130). -/
def crcShiftNat (c : Nat) : Nat := if 128 ≤ c then (2 * c % 256) ^^^ 0xE4 else 2 * c

/-- The checksum of R130 over numbers. -/
def checksumNat (r : List Nat) : Nat :=
  r.foldl (fun c b => Nat.repeat crcShiftNat 8 (c ^^^ b)) 0 % 128

/-- The results of the last completed command are the same (spec/20_memory.md R58). -/
def SameResults (s t : State) : Prop :=
  t.code = s.code ∧ t.res0 = s.res0 ∧ t.res1 = s.res1 ∧ t.olen = s.olen ∧ t.obuf = s.obuf

/-- The run of n steps. -/
def runs (n : Nat) (s : State) : Host.Outcome State Fault Refusal :=
  match n with
  | 0 => .next s
  | k + 1 =>
    match step s with
    | .next t => runs k t
    | .fault f => .fault f
    | .refused r => .refused r

/-- A bound on how many RX events or TX answers the command in progress still takes, in a state that
meets the invariant: READ_LENGTH is followed by a length, a marker and at most 255 + 2 body bytes. In
SEEK_START it counts the start marker and what follows it, not the noise before it. -/
def eventsLeft (s : State) : Nat :=
  match s.fstate with
  | .idle | .done => 0
  | .seekStart => 260
  | .readLength => 259
  | .readSecondStart => s.fl.toNat + 3
  | .readBody => s.frem.toNat
  | .tx => s.txbuf.length - s.txpos.toNat

/-- An RX event that leaves a read in SEEK_START: noise (spec/46_stream.md R203). -/
def isNoise (e : RxEvent) : Bool :=
  match e with
  | .byte b => b ≠ Config.start
  | .streamEnd | .fail => false

/-- What the environment brings between two steps: moves, RX events, TX answers. -/
structure Delivery where
  moves : List Move
  rx    : List RxEvent
  tx    : List TxAnswer
deriving DecidableEq, Repr

/-- A delivery joins the queues, behind what already waits there: events not yet taken are not lost
(spec/10_state.md R37). -/
def deliver (d : Delivery) (s : State) : State :=
  { s with env := { s.env with
      moves := s.env.moves ++ d.moves, rx := s.env.rx ++ d.rx, tx := s.env.tx ++ d.tx } }

/-- The state in which step n of an open run is made: after the n-th delivery. -/
def before (d : Nat → Delivery) (σ : Nat → State) (n : Nat) : State := deliver (d n) (σ n)

/-- An endless run whose environment goes on delivering, whatever it likes, before every step. -/
def OpenRun (d : Nat → Delivery) (σ : Nat → State) : Prop :=
  ∀ n, step (before d σ n) = .next (σ (n + 1))

/-- The step about to be made is one of the engine. -/
def engineTurn (s : State) : Prop := s.env.moves = [] ∨ s.env.moves.head? = some .engine

/-- The fairness premise of spec/70_reset_and_hazards.md R269, about the environment alone. While a read
waits the RX port eventually delivers an event, and while a write waits the TX port eventually answers:
later there is a step of the engine with an event, or an answer, ready for it, unless the command has
ended by then (log 14). -/
structure FairPorts (d : Nat → Delivery) (σ : Nat → State) : Prop where
  rx : ∀ n, isReading (σ n).fstate = true → ∃ m, n ≤ m ∧
    (isReading (σ m).fstate = false ∨ (engineTurn (before d σ m) ∧ (before d σ m).env.rx ≠ []))
  tx : ∀ n, (σ n).fstate = .tx → ∃ m, n ≤ m ∧
    ((σ m).fstate ≠ .tx ∨ (engineTurn (before d σ m) ∧ (before d σ m).env.tx ≠ []))

/-- From step n on a read stays in SEEK_START, and all it ever takes is noise. -/
def NoiseForEver (d : Nat → Delivery) (σ : Nat → State) (n : Nat) : Prop :=
  ∀ m, n ≤ m → (σ m).fstate = .seekStart ∧
    ∀ e rest, engineTurn (before d σ m) → (before d σ m).env.rx = e :: rest → isNoise e = true

end Sys2Proof.Machine
end

