-- ==== Sys2Proof/Certificates/Slice0/Obligations.lean ====
section
/-! DEFINITION. The statements for the provers. Where one speaks of `env`, it rests on the model's own
form of the environment's inputs (logs 1, 3 and 9), as its docstring says. -/

open Sys2Proof Sys2Proof.Machine

/-! ## Reset, the invariant, the encodings -/

/-- R46: the state after reset, every register at the value of its table, every buffer byte
unwritten. -/
def Obligations.ResetLeavesTheTableOfValues : Prop :=
  let s := State.reset
  s.cmd = 0 ∧ statusWord s = 0 ∧ s.arg0 = 0 ∧ s.res0 = 0 ∧ s.res1 = 0 ∧ s.olen = 0 ∧
    fstateWord s.fstate = 0 ∧ (∀ i, Memory.load s.ibuf i = none) ∧ (∀ i, Memory.load s.obuf i = none) ∧
    s.fl = 0 ∧ s.frem = 0 ∧ s.fcnt = 0 ∧ s.fbuf = [] ∧ s.txbuf = [] ∧ s.txpos = 0

/-- R231 and R27: the numbers of the status codes and of the sequencer states. -/
def Obligations.CodesAndStatesHaveTheirNumbers : Prop :=
  codeBits .ok = 0 ∧
  [ErrorKind.framingError, .lengthError, .checksumError, .addressError, .controlError, .dataError,
    .authError, .incompleteFrameError, .connectionError, .bcdError, .commandError].map
      (fun e => (codeBits (.err e)).toNat) = [1, 2, 3, 4, 5, 6, 7, 8, 9, 10, 11] ∧
  [FState.idle, .seekStart, .readLength, .readSecondStart, .readBody, .done, .tx].map
      (fun f => (fstateWord f).toNat) = [0, 1, 2, 3, 4, 5, 6]

/-- The invariant of Safety.lean holds right after reset. -/
def Obligations.ResetMeetsTheInvariant : Prop := State.reset.Inv

/-- Every step keeps the invariant: the buffers stay canonical and below BUF_SIZE, OLEN stays at most
BUF_SIZE, CODE stays a code the core raises, BUSY says whether a stream command is in progress, DONE
is never held, and the hidden registers of the framer and the transmitter fit FSTATE. -/
def Obligations.StepKeepsTheInvariant : Prop :=
  ∀ s t, s.Inv → step s = .next t → t.Inv

/-- Decoding the word of a well-formed command gives the command back: no operand bit is dropped. -/
def Obligations.DecodeOfEncodeIsTheCommand : Prop :=
  ∀ i : Instr, i.WellFormed → decode (encode i) = .ok i

/-- A word that decodes has one meaning: the command is well-formed and its word is that word. -/
def Obligations.EncodeOfDecodeIsTheWord : Prop :=
  ∀ w i, decode w = .ok i → i.WellFormed ∧ encode i = w

/-- Words written out from R70 and R71 decode to their commands. -/
def Obligations.WrittenOutWordsDecode : Prop :=
  decode 0b000000_0000000000_00000000_00010000#32 = .ok .tobcd ∧
  decode 0b000000_0000000011_00000000_00010011#32 = .ok (.encdig 3) ∧
  decode 0b000000_1000000000_00000000_00100000#32 = .ok (.csum 512) ∧
  decode 0b000000_0000000101_00000000_00110000#32 = .ok (.adec 5) ∧
  decode 0b000000_0000000010_00000000_01000000#32 = .ok (.cdec 2) ∧
  decode 0b000000_0011111111_00000000_01010000#32 = .ok (.fenc 255) ∧
  decode 0b000000_0000000000_00000000_01100000#32 = .ok .rdfrm ∧
  decode 0b000000_0000000111_00000000_01100001#32 = .ok (.wrfrm 7)

/-! ## Issue -/

/-- A step makes the next move (DESIGN CHOICE of the model, log 1). When that is the host's write of a
word to CMD and BUSY = 0, CMD takes the word, CMDLOST is cleared, and the step is the decoded command
at that state; an engine move, or no move, is a step of the engine. `withFetchWord` places a word so
that the next step issues it (log 2). -/
def Obligations.StepRunsTheDecodedCommand : Prop :=
  (∀ s v rest i, s.busy = false → s.env.moves = .host (.write 0 v) :: rest →
    decode (BitVec.ofNat 32 v) = .ok i →
    step s = exec i { s with cmd := BitVec.ofNat 32 v, cmdLost := false,
                             env := { s.env with moves := rest } }) ∧
  (∀ s rest, s.env.moves = .engine :: rest →
    step s = .next (engineStep { s with env := { s.env with moves := rest } })) ∧
  (∀ s, s.env.moves = [] → step s = .next (engineStep s)) ∧
  (∀ (s : State) w i, w < 2 ^ 32 → decode (BitVec.ofNat 32 w) = .ok i →
    step (s.withFetchWord 32 w) = exec i { s with cmd := BitVec.ofNat 32 w, cmdLost := false,
                                                  busy := false, fstate := .idle })

/-- R72, R73: a word with an unassigned OP, with a reserved bit set, or with a LEN above the opcode's
LENMAX completes in its issue step with CommandError; CMD keeps the word. -/
def Obligations.IllegalWordsGiveCommandError : Prop :=
  ∀ s (w : CmdWord) rest, s.busy = false → s.env.moves = .host (.write 0 w.toNat) :: rest →
    ((∀ m, (w.toNat % 256, m) ∉ opTable) ∨ w.toNat / 256 % 256 ≠ 0 ∨ w.toNat / 2 ^ 26 ≠ 0 ∨
      ∃ m, (w.toNat % 256, m) ∈ opTable ∧ m < w.toNat / 65536 % 1024) →
    step s = .next (failed { s with cmd := w, cmdLost := false, env := { s.env with moves := rest } }
      .commandError)

/-- R42: a CMD write while BUSY = 1 changes CMDLOST and nothing else. -/
def Obligations.BusyWriteOnlySetsCmdLost : Prop :=
  ∀ s v rest, s.busy = true → s.env.moves = .host (.write 0 v) :: rest →
    step s = .next { s with cmdLost := true, env := { s.env with moves := rest } }

/-! ## Host access -/

/-- R40, R45: a host read of a register returns its value, zero-extended, 0 for a number above 6, and
changes nothing of the core. STATUS is laid out as R22 says. (That the value stands in `env.hostData`
is the model's choice, log 9.) -/
def Obligations.HostReadReturnsTheRegister : Prop :=
  ∀ s r rest, s.env.moves = .host (.read r) :: rest → ∃ v : Word64,
    step s = .next { s with env := { s.env with moves := rest, hostData := some v } } ∧
    (r = 0 → v.toNat = s.cmd.toNat) ∧
    (r = 1 → v.toNat = (codeBits s.code).toNat + (if s.busy then 2 ^ 8 else 0) +
      (if s.cmdLost then 2 ^ 9 else 0)) ∧
    (r = 2 → v = s.arg0) ∧ (r = 3 → v = s.res0) ∧ (r = 4 → v.toNat = s.res1.toNat) ∧
    (r = 5 → v.toNat = s.olen.toNat) ∧ (r = 6 → v.toNat = (fstateBits s.fstate).toNat) ∧
    (7 ≤ r → v = 0)

/-- R45 and R40: of the writes to a register other than CMD only the one to ARG0 has an effect, and
ARG0 keeps the 64 low bits of the value. -/
def Obligations.HostWriteReachesOnlyArg0 : Prop :=
  ∀ s r v rest, s.env.moves = .host (.write r v) :: rest → r ≠ 0 →
    (r = 2 → step s = .next { s with arg0 := BitVec.ofNat 64 v, env := { s.env with moves := rest } }) ∧
    (r ≠ 2 → step s = .next { s with env := { s.env with moves := rest } })

/-- R43: host access to IBUF. A write below BUF_SIZE changes that byte only; a read returns the byte,
0 outside the buffer, and some byte where nothing was written. -/
def Obligations.HostAccessToIbuf : Prop :=
  (∀ s i b rest, s.env.moves = .host (.writeIbuf i b) :: rest →
    (i < 512 → ∃ m, step s = .next { s with ibuf := m, env := { s.env with moves := rest } } ∧
      ∀ a, Memory.load m a = if a = i then some b else Memory.load s.ibuf a) ∧
    (512 ≤ i → step s = .next { s with env := { s.env with moves := rest } })) ∧
  (∀ s i rest, s.env.moves = .host (.readIbuf i) :: rest →
    (512 ≤ i → step s = .next { s with env := { s.env with moves := rest, hostData := some 0 } }) ∧
    (i < 512 → ∀ b, Memory.load s.ibuf i = some b →
      step s = .next { s with env := { s.env with moves := rest, hostData := some (b.setWidth 64) } }) ∧
    (i < 512 → Memory.load s.ibuf i = none → ∃ (b : Byte) (n : Nat),
      step s = .next { s with env := { s.env with
        moves := rest, hostData := some (b.setWidth 64), draws := n } }))

/-- R44: a host read of OBUF returns the byte, 0 outside the buffer, and is a fault where nothing was
written (R241). -/
def Obligations.HostAccessToObuf : Prop :=
  ∀ s i rest, s.env.moves = .host (.readObuf i) :: rest →
    (512 ≤ i → step s = .next { s with env := { s.env with moves := rest, hostData := some 0 } }) ∧
    (i < 512 → ∀ b, Memory.load s.obuf i = some b →
      step s = .next { s with env := { s.env with moves := rest, hostData := some (b.setWidth 64) } }) ∧
    (i < 512 → Memory.load s.obuf i = none → step s = .fault .unwrittenOutput)

/-- R39, R261: reset, at any time, puts the core's state to its reset values and leaves the streams
as they are. -/
def Obligations.ResetAbandonsEverything : Prop :=
  ∀ s rest, s.env.moves = .reset :: rest →
    step s = .next { State.reset with env := { s.env with moves := rest } }

/-! ## BCD codec -/

/-- R101: TOBCD. -/
def Obligations.TobcdPacksTwoDigits : Prop :=
  Encoded 0x10 0 (fun _ => .tobcd) ∧
  ∀ s,
    (s.arg0.toNat ≤ 99 →
      exec .tobcd s = .next (succeeded s (BitVec.ofNat 64 (bcdNat s.arg0.toNat)) 0)) ∧
    (99 < s.arg0.toNat → exec .tobcd s = .next (failed s .bcdError))

/-- R102: FROMBCD. -/
def Obligations.FrombcdUnpacksTwoDigits : Prop :=
  Encoded 0x11 0 (fun _ => .frombcd) ∧
  ∀ s,
    (256 ≤ s.arg0.toNat → exec .frombcd s = .next (failed s .commandError)) ∧
    (s.arg0.toNat < 256 → IsBcd s.arg0.toNat → exec .frombcd s =
      .next (succeeded s (BitVec.ofNat 64 (s.arg0.toNat / 16 * 10 + s.arg0.toNat % 16)) 0)) ∧
    (s.arg0.toNat < 256 → ¬ IsBcd s.arg0.toNat → exec .frombcd s = .next (failed s .bcdError))

/-- R103: ISBCD. -/
def Obligations.IsbcdAnswersForEveryByte : Prop :=
  Encoded 0x12 0 (fun _ => .isbcd) ∧
  ∀ s,
    (256 ≤ s.arg0.toNat → exec .isbcd s = .next (failed s .commandError)) ∧
    (s.arg0.toNat < 256 → IsBcd s.arg0.toNat → exec .isbcd s = .next (succeeded s 1 0)) ∧
    (s.arg0.toNat < 256 → ¬ IsBcd s.arg0.toNat → exec .isbcd s = .next (succeeded s 0 0))

/-- R104: ENCDIG. A zero digit makes the digits even in number, placed as ODD_PAD says; each pair is
one byte, its first digit in the high nibble. -/
def Obligations.EncdigPacksDigitPairs : Prop :=
  Encoded 0x13 512 .encdig ∧
  ∀ s (x : List Byte), Holds s.ibuf x →
    ((∀ b ∈ x, 0x30 ≤ b.toNat ∧ b.toNat ≤ 0x39) → ∃ t out,
      exec (.encdig x.length) s = .next t ∧ Stored s t out 0 0 ∧
      let d := padNat Config.oddPad (x.map fun b => b.toNat - 0x30)
      2 * out.length = d.length ∧ ∀ j, j < out.length →
        (out.getD j 0).toNat = 16 * d.getD (2 * j) 0 + d.getD (2 * j + 1) 0) ∧
    ((∃ b ∈ x, b.toNat < 0x30 ∨ 0x39 < b.toNat) →
      exec (.encdig x.length) s = .next (failed s .bcdError))

/-- R105: DECDIG. Two ASCII digits for each byte, high nibble first. -/
def Obligations.DecdigUnpacksDigitPairs : Prop :=
  Encoded 0x14 256 .decdig ∧
  ∀ s (x : List Byte), Holds s.ibuf x →
    ((∀ b ∈ x, IsBcd b.toNat) → ∃ t out,
      exec (.decdig x.length) s = .next t ∧ Stored s t out 0 0 ∧ out.length = 2 * x.length ∧
      ∀ j, j < x.length →
        (out.getD (2 * j) 0).toNat = 0x30 + (x.getD j 0).toNat / 16 ∧
        (out.getD (2 * j + 1) 0).toNat = 0x30 + (x.getD j 0).toNat % 16) ∧
    ((∃ b ∈ x, ¬ IsBcd b.toNat) → exec (.decdig x.length) s = .next (failed s .bcdError))

/-- R106: ENCINT. Byte i of k is the BCD byte of the base-100 digit of weight 100^(k-1-i). -/
def Obligations.EncintWritesBase100Digits : Prop :=
  Encoded 0x15 8 .encint ∧
  ∀ s k,
    (s.arg0.toNat < 100 ^ k → ∃ t out,
      exec (.encint k) s = .next t ∧ Stored s t out 0 0 ∧ out.length = k ∧
      ∀ i, i < k → (out.getD i 0).toNat = bcdNat (s.arg0.toNat / 100 ^ (k - 1 - i) % 100)) ∧
    (100 ^ k ≤ s.arg0.toNat → exec (.encint k) s = .next (failed s .bcdError))

/-- R107: DECINT. RES0 is the sum of the base-100 digits times their weights. -/
def Obligations.DecintReadsBase100Digits : Prop :=
  Encoded 0x16 8 .decint ∧
  ∀ s (x : List Byte), Holds s.ibuf x → x.length ≤ 8 →
    ((∀ b ∈ x, IsBcd b.toNat) → ∃ n, exec (.decint x.length) s = .next (succeeded s n 0) ∧
      n.toNat = ((List.range x.length).map fun i =>
        ((x.getD i 0).toNat / 16 * 10 + (x.getD i 0).toNat % 16) * 100 ^ (x.length - 1 - i)).sum) ∧
    ((∃ b ∈ x, ¬ IsBcd b.toNat) → exec (.decint x.length) s = .next (failed s .bcdError))

/-! ## Checksum engine -/

/-- R130, R131: the checksum is the documented shift-and-xor algorithm with 0xE4, over numbers, and
CSUM returns it. No region is rejected. -/
def Obligations.CsumReturnsTheDocumentedChecksum : Prop :=
  (∀ r : List Byte, (checksum r).toNat = checksumNat (r.map fun b => b.toNat)) ∧
  Encoded 0x20 512 .csum ∧
  ∀ s (x : List Byte), Holds s.ibuf x → exec (.csum x.length) s =
    .next (succeeded s (BitVec.ofNat 64 (checksumNat (x.map fun b => b.toNat))) 0)

/-! ## Address codec -/

/-- R144 with R140: ADEC. The AV is the big-endian number of the five bytes, with TAG (bit 40) set for
a coded address. -/
def Obligations.AdecDecodesFiveBytes : Prop :=
  Encoded 0x30 512 .adec ∧
  (∀ s len, len < 5 → exec (.adec len) s = .next (failed s .addressError)) ∧
  ∀ s len (x : List Byte), 5 ≤ len → x.length = 5 → Holds s.ibuf x →
    let admin := IsBcd (x.getD 0 0).toNat ∧ IsBcd (x.getD 1 0).toNat ∧ IsBcd (x.getD 2 0).toNat
    ((x.getD 0 0).toNat = 0 →
      exec (.adec len) s = .next (succeeded s (BitVec.ofNat 64 (2 ^ 40 + wireNat x)) 5)) ∧
    ((x.getD 0 0).toNat ≠ 0 → admin →
      exec (.adec len) s = .next (succeeded s (BitVec.ofNat 64 (wireNat x)) 5)) ∧
    ((x.getD 0 0).toNat ≠ 0 → ¬ admin → exec (.adec len) s = .next (failed s .addressError))

/-- R145 with R141: AENC. -/
def Obligations.AencEncodesFiveBytes : Prop :=
  Encoded 0x31 0 (fun _ => .aenc) ∧
  ∀ s,
    let av := s.arg0.toNat
    (¬ AddrFormed av → exec .aenc s = .next (failed s .commandError)) ∧
    (AddrFormed av → av < 2 ^ 40 → (addrByteNat av 0 = 0 ∨ ¬ AdminBcd av) →
      exec .aenc s = .next (failed s .addressError)) ∧
    (AddrFormed av → (2 ^ 40 ≤ av ∨ (addrByteNat av 0 ≠ 0 ∧ AdminBcd av)) → ∃ t out,
      exec .aenc s = .next t ∧ Stored s t out 0 0 ∧
      out.map (fun b => b.toNat) = (List.range 5).map (addrByteNat av))

/-- R146 with R142: AVAL. The classes 1 monitoring, 2 relay, 3 broadcast, 4 coded. -/
def Obligations.AvalClassifiesTheStation : Prop :=
  Encoded 0x32 0 (fun _ => .aval) ∧
  ∀ s,
    let av := s.arg0.toNat
    let sid := av % 65536
    (¬ AddrFormed av → exec .aval s = .next (failed s .commandError)) ∧
    (AddrFormed av → 2 ^ 40 ≤ av → exec .aval s = .next (succeeded s 4 0)) ∧
    (av < 2 ^ 40 → (¬ AdminBcd av ∨ sid = 0) → exec .aval s = .next (failed s .addressError)) ∧
    (av < 2 ^ 40 → AdminBcd av → 1 ≤ sid → sid ≤ 60000 →
      exec .aval s = .next (succeeded s 1 0)) ∧
    (av < 2 ^ 40 → AdminBcd av → 60001 ≤ sid → sid ≤ 65534 →
      exec .aval s = .next (succeeded s 2 0)) ∧
    (av < 2 ^ 40 → AdminBcd av → sid = 65535 → exec .aval s = .next (succeeded s 3 0))

/-- R147 with R143: AHEX. Eight hex characters, the most significant digit of the station code first,
for either value of HEX_CASE. -/
def Obligations.AhexRendersTheStationCode : Prop :=
  Encoded 0x33 0 (fun _ => .ahex) ∧
  ∀ s,
    let av := s.arg0.toNat
    ((¬ AddrFormed av ∨ av < 2 ^ 40) → exec .ahex s = .next (failed s .commandError)) ∧
    (AddrFormed av → 2 ^ 40 ≤ av → ∃ t out,
      exec .ahex s = .next t ∧ Stored s t out 0 0 ∧ out.map (fun b => b.toNat) =
        (List.range 8).map fun i => hexNat Config.hexCase (av / 16 ^ (7 - i) % 16))

/-! ## Control field codec -/

/-- R162 with R160: CDEC. A second byte is read exactly when SPLIT (bit 6 of the first) is 1 and LEN is
at least 2. -/
def Obligations.CdecDecodesOneOrTwoBytes : Prop :=
  Encoded 0x40 512 .cdec ∧
  (∀ s, exec (.cdec 0) s = .next (failed s .controlError)) ∧
  ∀ s len c0, 1 ≤ len → Memory.load s.ibuf 0 = some c0 →
    (c0.toNat / 64 % 2 = 0 →
      exec (.cdec len) s = .next (succeeded s (BitVec.ofNat 64 c0.toNat) 1)) ∧
    (c0.toNat / 64 % 2 = 1 → len = 1 → exec (.cdec len) s = .next (failed s .controlError)) ∧
    (c0.toNat / 64 % 2 = 1 → 2 ≤ len → ∀ c1, Memory.load s.ibuf 1 = some c1 →
      exec (.cdec len) s = .next (succeeded s (BitVec.ofNat 64 (c1.toNat * 256 + c0.toNat)) 2))

/-- R163 with R161: CENC. -/
def Obligations.CencEncodesOneOrTwoBytes : Prop :=
  Encoded 0x41 0 (fun _ => .cenc) ∧
  ∀ s,
    let cv := s.arg0.toNat
    (65536 ≤ cv → exec .cenc s = .next (failed s .commandError)) ∧
    (cv < 65536 → cv / 64 % 2 = 1 → ∃ t out, exec .cenc s = .next t ∧ Stored s t out 0 0 ∧
      out.map (fun b => b.toNat) = [cv % 256, cv / 256]) ∧
    (cv < 256 → cv / 64 % 2 = 0 → ∃ t out, exec .cenc s = .next t ∧ Stored s t out 0 0 ∧
      out.map (fun b => b.toNat) = [cv]) ∧
    (256 ≤ cv → cv < 65536 → cv / 64 % 2 = 0 → exec .cenc s = .next (failed s .controlError))

/-- R164: CLEN. -/
def Obligations.ClenGivesOneOrTwo : Prop :=
  Encoded 0x42 0 (fun _ => .clen) ∧
  ∀ s,
    (65536 ≤ s.arg0.toNat → exec .clen s = .next (failed s .commandError)) ∧
    (s.arg0.toNat < 65536 →
      exec .clen s = .next (succeeded s (BitVec.ofNat 64 (1 + s.arg0.toNat / 64 % 2)) 0))

/-! ## Frame codec -/

/-- R182 with R180: FENC. -/
def Obligations.FencWrapsTheRegion : Prop :=
  Encoded 0x50 512 .fenc ∧
  ∀ s (r : List Byte), Holds s.ibuf r →
    ((r.length = 0 ∨ 255 < r.length) →
      exec (.fenc r.length) s = .next (failed s .lengthError)) ∧
    (1 ≤ r.length → r.length ≤ 255 → ∃ t, exec (.fenc r.length) s = .next t ∧
      Stored s t ([0x68, BitVec.ofNat 8 r.length, 0x68] ++ r ++ [checksum r, 0x16])
        (BitVec.ofNat 64 (r.length + 256 * (checksum r).toNat)) 0)

/-- R183 with R181: FDEC, its five checks in their order. -/
def Obligations.FdecChecksInOrder : Prop :=
  Encoded 0x51 512 .fdec ∧
  ∀ s (w : List Byte), Holds s.ibuf w →
    let n := w.length
    let byte := fun i => (w.getD i 0).toNat
    let region := (w.drop 3).take (byte 1)
    let run := exec (.fdec n) s
    (n < 7 → run = .next (failed s .framingError)) ∧
    (7 ≤ n → (byte 0 ≠ 0x68 ∨ byte 2 ≠ 0x68) → run = .next (failed s .framingError)) ∧
    (7 ≤ n → byte 0 = 0x68 → byte 2 = 0x68 →
      (n ≠ byte 1 + 5 → run = .next (failed s .lengthError)) ∧
      (n = byte 1 + 5 → byte (n - 1) ≠ 0x16 → run = .next (failed s .framingError)) ∧
      (n = byte 1 + 5 → byte (n - 1) = 0x16 → (checksum region).toNat ≠ byte (n - 2) →
        run = .next (failed s .checksumError)) ∧
      (n = byte 1 + 5 → byte (n - 1) = 0x16 → (checksum region).toNat = byte (n - 2) → ∃ t,
        run = .next t ∧ Stored s t region (BitVec.ofNat 64 (byte 1 + 256 * byte (n - 2))) 0))

/-! ## Stream framer -/

/-- R201: RDFRM starts a read. Its issue step takes no RX event. -/
def Obligations.RdfrmStartsTheFramer : Prop :=
  Encoded 0x60 0 (fun _ => .rdfrm) ∧
  ∀ s, exec .rdfrm s = .next { s with
    fcnt := 0, fbuf := [], fl := 0, frem := 0, fstate := .seekStart, busy := true }

/-- R213: WRFRM fixes its frame at issue. -/
def Obligations.WrfrmLoadsTheFrame : Prop :=
  Encoded 0x61 512 .wrfrm ∧
  ∀ s (r : List Byte), Holds s.ibuf r →
    ((r.length = 0 ∨ 255 < r.length) →
      exec (.wrfrm r.length) s = .next (failed s .lengthError)) ∧
    (1 ≤ r.length → r.length ≤ 255 → exec (.wrfrm r.length) s = .next { s with
      txbuf := [0x68, BitVec.ofNat 8 r.length, 0x68] ++ r ++ [checksum r, 0x16],
      txpos := 0, fstate := .tx, busy := true })

/-- R241, R52: a command that reads an unwritten IBUF byte faults; which bytes each command reads is
R74's. -/
def Obligations.UnwrittenInputFaults : Prop :=
  ∀ s n, Unwritten s.ibuf n →
    exec (.encdig n) s = .fault .unwrittenInput ∧ exec (.decdig n) s = .fault .unwrittenInput ∧
    exec (.decint n) s = .fault .unwrittenInput ∧ exec (.csum n) s = .fault .unwrittenInput ∧
    exec (.fenc n) s = .fault .unwrittenInput ∧ exec (.fdec n) s = .fault .unwrittenInput ∧
    exec (.wrfrm n) s = .fault .unwrittenInput ∧
    (n = 5 → ∀ len, 5 ≤ len → exec (.adec len) s = .fault .unwrittenInput) ∧
    (n = 1 → ∀ len, 1 ≤ len → exec (.cdec len) s = .fault .unwrittenInput) ∧
    (n = 2 → ∀ len c0, 2 ≤ len → Memory.load s.ibuf 0 = some c0 → c0.toNat / 64 % 2 = 1 →
      exec (.cdec len) s = .fault .unwrittenInput)

/-- R203: the framer in SEEK_START. -/
def Obligations.FramerSeeksTheStartMarker : Prop :=
  ∀ s b rest, s.fstate = .seekStart → s.env.rx = .byte b :: rest →
    (b = 0x68 → engineStep s = { s with
      fcnt := s.fcnt + 1, fbuf := [b], fstate := .readLength, env := { s.env with rx := rest } }) ∧
    (b ≠ 0x68 → engineStep s = { s with fcnt := s.fcnt + 1, env := { s.env with rx := rest } })

/-- R204 with R210: the framer in READ_LENGTH. -/
def Obligations.FramerReadsTheLength : Prop :=
  ∀ s b rest, s.fstate = .readLength → s.env.rx = .byte b :: rest →
    (b = 0 → engineStep s = { s with
      fcnt := s.fcnt + 1, fbuf := s.fbuf ++ [b], fl := b, env := { s.env with rx := rest },
      code := .err .lengthError, res0 := 2, res1 := s.fcnt + 1, olen := 0, busy := false,
      fstate := .idle }) ∧
    (b ≠ 0 → engineStep s = { s with
      fcnt := s.fcnt + 1, fbuf := s.fbuf ++ [b], fl := b, env := { s.env with rx := rest },
      fstate := .readSecondStart })

/-- R205 with R210: the framer in READ_SECOND_START. A bad marker is consumed and aborts the read. -/
def Obligations.FramerReadsTheSecondMarker : Prop :=
  ∀ s b rest, s.fstate = .readSecondStart → s.env.rx = .byte b :: rest →
    (b ≠ 0x68 → engineStep s = { s with
      fcnt := s.fcnt + 1, fbuf := s.fbuf ++ [b], env := { s.env with rx := rest },
      code := .err .framingError, res0 := 3, res1 := s.fcnt + 1, olen := 0, busy := false,
      fstate := .idle }) ∧
    (b = 0x68 → engineStep s = { s with
      fcnt := s.fcnt + 1, fbuf := s.fbuf ++ [b], env := { s.env with rx := rest },
      frem := BitVec.ofNat 9 (s.fl.toNat + 2), fstate := .readBody })

/-- R206, R207 with R210: the framer in READ_BODY. The last byte ends the read with what the whole
frame decode says. -/
def Obligations.FramerReadsTheBody : Prop :=
  ∀ s b rest, s.fstate = .readBody → s.env.rx = .byte b :: rest →
    let s' := { s with
      fcnt := s.fcnt + 1, fbuf := s.fbuf ++ [b], frem := s.frem - 1, env := { s.env with rx := rest } }
    (s.frem ≠ 1 → engineStep s = s') ∧
    (s.frem = 1 →
      (∀ e, frameDecode (s.fbuf ++ [b]) = .error e → engineStep s = { s' with
        code := .err e, res0 := 4, res1 := s.fcnt + 1, olen := 0, busy := false, fstate := .idle }) ∧
      (∀ f, frameDecode (s.fbuf ++ [b]) = .ok f → Stored s' (engineStep s) f.region
        (BitVec.ofNat 64 (f.l.toNat + 256 * f.cs.toNat)) (s.fcnt + 1)))

/-- R208, R209 with R210: an end or a failure of the RX stream in any of the four reading states. -/
def Obligations.FramerStreamEndAndFailure : Prop :=
  ∀ s rest, isReading s.fstate = true →
    let ended := fun e => { s with
      env := { s.env with rx := rest }, code := Code.err e,
      res0 := BitVec.ofNat 64 (fstateBits s.fstate).toNat, res1 := s.fcnt, olen := 0, busy := false,
      fstate := .idle }
    (s.env.rx = .streamEnd :: rest → engineStep s = ended .incompleteFrameError) ∧
    (s.env.rx = .fail :: rest → engineStep s = ended .connectionError)

/-- R214, R215: the transmitter's step, while fewer than all bytes of TXBUF are out. An accepted byte is
TXBUF[TXPOS]; the last one completes the command. -/
def Obligations.TransmitterStep : Prop :=
  ∀ s a rest, s.fstate = .tx → s.env.tx = a :: rest → s.txpos.toNat < s.txbuf.length →
    s.txbuf.length ≤ 260 →
    let gone := { s with
      txpos := s.txpos + 1,
      env := { s.env with tx := rest, sent := s.env.sent ++ [s.txbuf.getD s.txpos.toNat 0] } }
    (a = .accept → s.txpos.toNat + 1 < s.txbuf.length → engineStep s = gone) ∧
    (a = .accept → s.txpos.toNat + 1 = s.txbuf.length → engineStep s = succeeded gone
      (BitVec.ofNat 64 ((s.txbuf.getD 1 0).toNat +
        256 * (s.txbuf.getD (s.txbuf.length - 2) 0).toNat))
      (BitVec.ofNat 32 s.txbuf.length)) ∧
    (a = .fail → engineStep s = { s with
      env := { s.env with tx := rest }, code := .err .connectionError, res0 := 0,
      res1 := BitVec.ofNat 32 s.txpos.toNat, olen := 0, busy := false, fstate := .idle })

/-- R202, R200: with nothing to take, or in IDLE, the engine does nothing, however long it goes on.
(That the machine then takes steps that change nothing is the model's form of waiting, log 10.) -/
def Obligations.EngineWaitsWithoutInput : Prop :=
  ∀ n s, s.env.moves = [] →
    ((isReading s.fstate = true ∧ s.env.rx = []) ∨ (s.fstate = .tx ∧ s.env.tx = []) ∨
      s.fstate = .idle) →
    runs n s = .next s

/-! ## Rules of the whole machine -/

/-- R58: while a stream command is in progress after a step, the results the host can read are those
from before the step. -/
def Obligations.ResultsHoldWhileBusy : Prop :=
  ∀ s t, step s = .next t → t.busy = true → SameResults s t

/-- R21, R23, R28: CMD changes only when a word is accepted, ARG0 and IBUF only by the host's own
writes to them, or by reset. -/
def Obligations.OnlyTheHostWritesItsInputs : Prop :=
  ∀ s t, step s = .next t → (∀ rest, s.env.moves ≠ .reset :: rest) →
    (t.arg0 ≠ s.arg0 → ∃ v rest, s.env.moves = .host (.write 2 v) :: rest ∧
      t.arg0 = BitVec.ofNat 64 v) ∧
    (t.ibuf ≠ s.ibuf → ∃ i b rest, s.env.moves = .host (.writeIbuf i b) :: rest ∧ i < 512) ∧
    (t.cmd ≠ s.cmd → ∃ v rest, s.env.moves = .host (.write 0 v) :: rest ∧ s.busy = false ∧
      t.cmd = BitVec.ofNat 32 v)

/-- R29, R53, R265: OBUF changes only in a step that ends with a successful completion, and only below
OLEN; or by reset. -/
def Obligations.ObufChangesOnlyOnSuccess : Prop :=
  ∀ s t, step s = .next t → (∀ rest, s.env.moves ≠ .reset :: rest) → t.obuf ≠ s.obuf →
    t.code = .ok ∧ t.busy = false ∧ t.fstate = .idle ∧
      ∀ a, t.olen.toNat ≤ a → Memory.load t.obuf a = Memory.load s.obuf a

/-- R35, R42, R237: when CODE, BUSY and CMDLOST change. CODE: only in a step that ends a command, or by
reset. BUSY is set only by an accepted RDFRM or WRFRM, and cleared only by the engine or reset. CMDLOST
is set only by a CMD write while BUSY, and cleared only by an accepted CMD write or reset. -/
def Obligations.StatusBitsChangeOnlyByTheirRules : Prop :=
  ∀ s t, step s = .next t → (∀ rest, s.env.moves ≠ .reset :: rest) →
    (t.code ≠ s.code → t.busy = false ∧ t.fstate = .idle) ∧
    (s.busy = false → t.busy = true → ∃ v rest, s.env.moves = .host (.write 0 v) :: rest ∧
      (v % 256 = 0x60 ∨ v % 256 = 0x61)) ∧
    (s.busy = true → t.busy = false →
      s.env.moves = [] ∨ ∃ rest, s.env.moves = .engine :: rest) ∧
    (s.cmdLost = false → t.cmdLost = true → s.busy = true ∧ ∃ v rest,
      s.env.moves = .host (.write 0 v) :: rest) ∧
    (s.cmdLost = true → t.cmdLost = false → s.busy = false ∧ ∃ v rest,
      s.env.moves = .host (.write 0 v) :: rest)

/-- R232, R236: a command that ends with an error in its issue step changes nothing but CODE, RES0,
RES1, OLEN, BUSY and FSTATE, to the values R232 gives: for every command. -/
def Obligations.IssueErrorsArePrecise : Prop :=
  ∀ i s t e, exec i s = .next t → t.busy = false → t.code = .err e → t = failed s e

/-- R59: a command in progress does not depend on ARG0 or IBUF, so a host write to them does not change
it. -/
def Obligations.InputsAreSampledAtIssue : Prop :=
  ∀ s a m, engineStep { s with arg0 := a, ibuf := m } = { engineStep s with arg0 := a, ibuf := m }

/-- R60: the result of a pure command depends on ARG0 and IBUF alone. -/
def Obligations.PureCommandsDependOnTheirInputs : Prop :=
  ∀ i s s' t, i ≠ .rdfrm → (∀ n, i ≠ .wrfrm n) → s'.arg0 = s.arg0 → s'.ibuf = s.ibuf →
    exec i s = .next t → ∃ t', exec i s' = .next t' ∧ t'.code = t.code ∧ t'.res0 = t.res0 ∧
      t'.res1 = t.res1 ∧ t'.olen = t.olen ∧
      ∀ a, a < t.olen.toNat → Memory.load t'.obuf a = Memory.load t.obuf a

/-! ## Laws of the codecs -/

/-- R108, laws 1 and 2: TOBCD and FROMBCD are inverse where they succeed. -/
def Obligations.TobcdAndFrombcdAreInverse : Prop :=
  (∀ s t, exec .tobcd s = .next t → t.code = .ok → ∃ u,
    exec .frombcd { t with arg0 := t.res0 } = .next u ∧ u.code = .ok ∧ u.res0 = s.arg0) ∧
  (∀ s t, exec .frombcd s = .next t → t.code = .ok → ∃ u,
    exec .tobcd { t with arg0 := t.res0 } = .next u ∧ u.code = .ok ∧ u.res0 = s.arg0)

/-- R108, laws 3 and 6, for both values of ODD_PAD: decoding what was encoded gives the digits back,
with the pad digit where it was put, and every encoded byte is BCD. -/
def Obligations.DecdigInvertsEncdigUpToThePad : Prop :=
  ∀ pad x out, encodeDigits pad x = .ok out →
    (∀ b ∈ out, IsBcd b.toNat) ∧
    (x.length % 2 = 0 → decodeDigits out = .ok x) ∧
    (x.length % 2 = 1 → pad = .leading → decodeDigits out = .ok (0x30 :: x)) ∧
    (x.length % 2 = 1 → pad = .trailing → decodeDigits out = .ok (x ++ [0x30]))

/-- R108, laws 4, 5 and 6: decoding an encoded integer gives it back; the encoding is ENCDIG's of the
2k decimal digits; every encoded byte is BCD. -/
def Obligations.DecintInvertsEncint : Prop :=
  ∀ n k out, encodeInt n k = .ok out →
    decodeInt out = .ok n ∧ (∀ b ∈ out, IsBcd b.toNat) ∧
    ∀ pad, encodeDigits pad ((List.range (2 * k)).map fun i =>
      BitVec.ofNat 8 (0x30 + n / 10 ^ (2 * k - 1 - i) % 10)) = .ok out

/-- R132, laws 1 to 4 and 6. -/
def Obligations.ChecksumLaws : Prop :=
  checksum [] = 0 ∧
  (∀ r, (checksum r).toNat < 128 ∧ (checksum r).toNat % 4 = 0) ∧
  (∀ a b : List Byte, a.length = b.length →
    checksum (List.zipWith (fun x y => x ^^^ y) a b) = checksum a ^^^ checksum b) ∧
  (∀ r, checksum (0 :: r) = checksum r)

/-- R148, laws 1 to 3: address decode and encode are inverse, TAG says whether the first byte is 0, and
an admin address begins with a BCD byte other than 0. -/
def Obligations.AddressCodecIsInvertible : Prop :=
  (∀ a av, addrDecode a = .ok av →
    avOk av = true ∧ addrEncode av = .ok a ∧ (avTag av = true ↔ a.getD 0 0 = 0) ∧
    (avTag av = false → (avByte av 0).toNat ≠ 0 ∧ IsBcd (avByte av 0).toNat)) ∧
  (∀ a av, avOk av = true → addrEncode av = .ok a → addrDecode a = .ok av)

/-- R165: control decode and encode are inverse, the bytes used are CLEN's answer, and a decoded value
without SPLIT has no split count. -/
def Obligations.ControlCodecIsInvertible : Prop :=
  (∀ x cv used, ctrlDecode x x.length = .ok (cv, used) →
    cvOk cv = true ∧ ctrlEncode cv = .ok (x.take used.toNat) ∧
    (splitFlag (cvFirst cv) = false → cvSplitCount cv = 0)) ∧
  (∀ cv out, cvOk cv = true → ctrlEncode cv = .ok out →
    ctrlDecode out out.length = .ok (cv, BitVec.ofNat 32 out.length) ∧
    out.length = if splitFlag (cvFirst cv) then 2 else 1)

/-- R184, laws 1 and 2: a frame is five bytes longer than its region, and decodes to it from length 2
on; the frame of a 1-byte region does not decode. -/
def Obligations.FrameRoundTrip : Prop :=
  ∀ r : List Byte,
    ((r.length = 0 ∨ 255 < r.length) → frameEncode r = .error .lengthError) ∧
    (1 ≤ r.length → r.length ≤ 255 → ∃ w, frameEncode r = .ok w ∧ w.length = r.length + 5 ∧
      (r.length = 1 → frameDecode w = .error .framingError) ∧
      (2 ≤ r.length → frameDecode w =
        .ok { region := r, l := BitVec.ofNat 8 r.length, cs := checksum r }))

/-- R184, laws 3 to 6: a changed checksum byte, end marker, start marker or length byte of an encoded
frame is refused, each with its own error. -/
def Obligations.FrameCorruptionIsDetected : Prop :=
  ∀ (r w : List Byte) (b : Byte), 2 ≤ r.length → frameEncode r = .ok w →
    (b ≠ checksum r → frameDecode (w.set (r.length + 3) b) = .error .checksumError) ∧
    (b ≠ 0x16 → frameDecode (w.set (r.length + 4) b) = .error .framingError) ∧
    (b ≠ 0x68 → frameDecode (w.set 0 b) = .error .framingError ∧
      frameDecode (w.set 2 b) = .error .framingError) ∧
    (b ≠ BitVec.ofNat 8 r.length → frameDecode (w.set 1 b) = .error .lengthError)

/-! ## Runs of the stream commands -/

/-- R217, law 1, in a run in which the host stays silent after the command: a frame of 2 to 255 region
bytes behind noise without a start marker is read whole, consuming exactly the noise and the frame, from
every state that is ready for a command. What comes after it in the stream is left there (R212), which
is the part of law 2 about one read. The frame of a 1-byte region is FramerReadsTheBody's and
FrameRoundTrip's. -/
def Obligations.ReadResynchronises : Prop :=
  ∀ (s : State) (p r w : List Byte) (rest : List RxEvent),
    s.busy = false → s.env.moves = [.host (.write 0 0x60)] →
    s.env.rx = p.map RxEvent.byte ++ w.map RxEvent.byte ++ rest →
    (∀ b ∈ p, b ≠ 0x68) → frameEncode r = .ok w → 2 ≤ r.length →
    ∃ t, runs (1 + p.length + w.length) s = .next t ∧
      t.code = .ok ∧ t.busy = false ∧ t.fstate = .idle ∧ t.olen.toNat = r.length ∧
      Holds t.obuf r ∧ t.res0 = BitVec.ofNat 64 (r.length + 256 * (checksum r).toNat) ∧
      t.res1 = BitVec.ofNat 32 (p.length + w.length) ∧ t.env.rx = rest ∧
      t.ibuf = s.ibuf ∧ t.arg0 = s.arg0

/-- R213 to R215, in a run in which the host stays silent after the command: WRFRM sends exactly the
frame of its region when every byte is accepted, and exactly the first k bytes when the port fails after
k. -/
def Obligations.WriteSendsTheFrame : Prop :=
  ∀ (s : State) (r w : List Byte) (rest : List TxAnswer),
    s.busy = false → Holds s.ibuf r → frameEncode r = .ok w →
    s.env.moves = [.host (.write 0 (0x61 + r.length * 65536))] →
    (s.env.tx = List.replicate w.length .accept ++ rest →
      ∃ t, runs (1 + w.length) s = .next t ∧ t.code = .ok ∧ t.busy = false ∧ t.fstate = .idle ∧
        t.env.sent = s.env.sent ++ w ∧ t.env.tx = rest ∧ t.olen = 0 ∧ t.obuf = s.obuf ∧
        t.res0 = BitVec.ofNat 64 (r.length + 256 * (checksum r).toNat) ∧
        t.res1 = BitVec.ofNat 32 w.length) ∧
    (∀ k, k < w.length → s.env.tx = List.replicate k .accept ++ .fail :: rest →
      ∃ t, runs (2 + k) s = .next t ∧ t.code = .err .connectionError ∧ t.busy = false ∧
        t.fstate = .idle ∧ t.env.sent = s.env.sent ++ w.take k ∧ t.env.tx = rest ∧ t.olen = 0 ∧
        t.obuf = s.obuf ∧ t.res0 = 0 ∧ t.res1 = BitVec.ofNat 32 k)

/-- R269 with its fairness premise, `FairPorts`: the RX port delivers an event whenever a read waits, the
TX port answers whenever a write waits. In every endless run with such ports, whatever else the
environment delivers and the host does, the command in progress ends; the one exception is a read to
which the stream brings noise for ever (R203, log 14), which can only be one that has not met a start
marker. The other clauses bound the number of steps while no move is left. A read ends once the stream
holds an end or a failure; a read that is committed ends once the stream holds as many events as it may
still take, be the stream open or not; one in SEEK_START once it holds a start marker and 259 events
after it; a write ends once the port answers for every byte that is left, or fails. -/
def Obligations.StreamCommandsEndWhenThePortsAnswer : Prop :=
  (∀ d σ, OpenRun d σ → (σ 0).Inv → FairPorts d σ → ∀ n,
    (∃ m, n ≤ m ∧ (σ m).busy = false ∧ (σ m).fstate = .idle) ∨ NoiseForEver d σ n) ∧
  (∀ s, s.env.moves = [] → isReading s.fstate = true →
    (RxEvent.streamEnd ∈ s.env.rx ∨ RxEvent.fail ∈ s.env.rx) →
    ∃ n t, n ≤ s.env.rx.length ∧ runs n s = .next t ∧ t.busy = false ∧ t.fstate = .idle) ∧
  (∀ s, s.Inv → s.env.moves = [] → isReading s.fstate = true → s.fstate ≠ .seekStart →
    eventsLeft s ≤ s.env.rx.length →
    ∃ n t, n ≤ eventsLeft s ∧ runs n s = .next t ∧ t.busy = false ∧ t.fstate = .idle) ∧
  (∀ s p rest, s.Inv → s.env.moves = [] → s.fstate = .seekStart →
    s.env.rx = p ++ .byte 0x68 :: rest → 259 ≤ rest.length →
    ∃ n t, n ≤ p.length + 260 ∧ runs n s = .next t ∧ t.busy = false ∧ t.fstate = .idle) ∧
  (∀ s, s.Inv → s.env.moves = [] → s.fstate = .tx →
    (s.txbuf.length ≤ s.txpos.toNat + s.env.tx.length ∨ TxAnswer.fail ∈ s.env.tx) →
    ∃ n t, n ≤ s.env.tx.length ∧ runs n s = .next t ∧ t.busy = false ∧ t.fstate = .idle)
end

