-- ==== Sys2Proof/Laws/Decode.lean ====
section
/-! SUPPORT. The fields of a command word, over numbers and for an encoded command. -/

namespace Sys2Proof

theorem opField_toNat (w : CmdWord) : (opField w).toNat = w.toNat % 256 := by
  simp [opField, BitVec.extractLsb'_toNat]

theorem lenField_toNat (w : CmdWord) : (lenField w).toNat = w.toNat / 65536 % 1024 := by
  simp [lenField, BitVec.extractLsb'_toNat, Nat.shiftRight_eq_div_pow]

theorem reservedZero_iff (w : CmdWord) :
    reservedZero w = true ↔ w.toNat / 256 % 256 = 0 ∧ w.toNat / 2 ^ 26 = 0 := by
  have hw := w.isLt
  simp only [reservedZero, Bool.and_eq_true, beq_iff_eq, ← BitVec.toNat_inj,
    BitVec.extractLsb'_toNat, Nat.shiftRight_eq_div_pow, BitVec.ofNat_eq_ofNat, BitVec.toNat_ofNat]
  omega

/-- The word of a command as a number. -/
theorem encode_toNat (i : Instr) :
    (encode i).toNat = i.len % 1024 * 65536 + (opcode i).toNat := by
  have := (opcode i).isLt
  simp only [encode, BitVec.toNat_append, BitVec.toNat_ofNat, BitVec.ofNat_eq_ofNat]
  rw [← Nat.shiftLeft_add_eq_or_of_lt (by omega), ← Nat.shiftLeft_add_eq_or_of_lt (by omega),
    ← Nat.shiftLeft_add_eq_or_of_lt (by omega)]
  simp only [Nat.shiftLeft_eq]
  omega

/-- A decoded word has its opcode in the map, its reserved bits 0, and its LEN within LENMAX. -/
theorem decode_eq_ok {w : CmdWord} {i : Instr} (h : decode w = .ok i) :
    ∃ r ∈ opRows, r.op = opField w ∧ reservedZero w = true ∧ (lenField w).toNat ≤ r.lenMax ∧
      i = r.make (lenField w).toNat := by
  unfold decode at h
  split at h
  · cases h
  · rename_i r hr
    split at h
    · split at h
      · cases h
        exact ⟨r, List.mem_of_find?_eq_some hr, by simpa using List.find?_some hr, ‹_›, ‹_›, rfl⟩
      · cases h
    · cases h

end Sys2Proof
end

