-- ==== Sys2Proof/Laws/Memory.lean ====
section
/-! SUPPORT. What the buffer operations do, said once: a read after a write, the canonical form, and
what a range holds. -/

namespace Sys2Proof.Machine

@[simp] theorem Memory.load_nil (a : Nat) : Memory.load [] a = none := rfl

@[simp] theorem Memory.storeRange_nil (m : Memory) (a : Nat) : Memory.storeRange m a [] = m := rfl

@[simp] theorem Memory.loadRange_zero (m : Memory) (a : Nat) : Memory.loadRange m a 0 = some [] := rfl

/-- A write is read back at its index and leaves every other index alone. -/
theorem Memory.load_store (m : Memory) (a b : Nat) (v : Byte) :
    Memory.load (Memory.store m a v) b = if b = a then some v else Memory.load m b := by
  induction m with
  | nil => simp [Memory.store, Memory.load]
  | cons c m ih =>
    obtain ⟨k, u⟩ := c
    simp only [Memory.store]
    split
    · simp [Memory.load]
    · split
      · subst_vars; simp only [Memory.load]; split <;> rfl
      · simp only [Memory.load, ih]
        split <;> split <;> simp_all

/-- Every index of a buffer after a write is the written one or was there before. -/
theorem Memory.mem_store {m : Memory} {a : Nat} {v : Byte} {c : Host.Cell}
    (h : c ∈ Memory.store m a v) : c.1 = a ∨ c ∈ m := by
  induction m with
  | nil => simp_all [Memory.store]
  | cons d m ih =>
    obtain ⟨k, u⟩ := d
    simp only [Memory.store] at h
    split at h
    · rcases List.mem_cons.1 h with rfl | h
      · exact .inl rfl
      · exact .inr h
    · split at h
      · rcases List.mem_cons.1 h with rfl | h
        · exact .inl rfl
        · exact .inr (List.mem_cons_of_mem _ h)
      · rcases List.mem_cons.1 h with rfl | h
        · exact .inr (by simp)
        · exact (ih h).imp id (List.mem_cons_of_mem _)

/-- A write keeps the canonical form. -/
theorem Memory.wf_store {m : Memory} (h : Memory.wf m) (a : Nat) (v : Byte) :
    Memory.wf (Memory.store m a v) := by
  induction m with
  | nil => simp [Memory.wf, Memory.store]
  | cons d m ih =>
    obtain ⟨k, u⟩ := d
    have ⟨hk, hm⟩ := List.pairwise_cons.1 h
    simp only [Memory.store]
    split
    · rename_i hlt
      refine List.pairwise_cons.2 ⟨fun c hc => ?_, h⟩
      rcases List.mem_cons.1 hc with rfl | hc
      · exact hlt
      · exact lt_trans hlt (hk c hc)
    · split
      · rename_i heq
        subst heq
        exact List.pairwise_cons.2 ⟨fun c hc => hk c hc, hm⟩
      · refine List.pairwise_cons.2 ⟨fun c hc => ?_, ih hm⟩
        rcases Memory.mem_store hc with h1 | h1
        · simp only [h1]; omega
        · exact hk c h1

/-- A range write is read back inside the range and leaves every other index alone. -/
theorem Memory.load_storeRange (m : Memory) (a : Nat) (x : List Byte) (b : Nat) :
    Memory.load (Memory.storeRange m a x) b =
      if a ≤ b ∧ b < a + x.length then x[b - a]? else Memory.load m b := by
  induction x generalizing m a with
  | nil => simp
  | cons v x ih =>
    simp only [Memory.storeRange, ih, Memory.load_store, List.length_cons]
    rcases Nat.lt_trichotomy b a with h | rfl | h
    · rw [if_neg (by omega), if_neg (by omega), if_neg (by omega)]
    · rw [if_neg (by omega), if_pos rfl, if_pos (by omega)]; simp
    · by_cases h2 : b < a + 1 + x.length
      · rw [if_pos (by omega), if_pos (by omega)]
        have : b - a = (b - (a + 1)) + 1 := by omega
        simp [this]
      · rw [if_neg (by omega), if_neg (by omega), if_neg (by omega)]

/-- A range write keeps the canonical form. -/
theorem Memory.wf_storeRange {m : Memory} (h : Memory.wf m) (a : Nat) (x : List Byte) :
    Memory.wf (Memory.storeRange m a x) := by
  induction x generalizing m a with
  | nil => exact h
  | cons v x ih => exact ih (Memory.wf_store h a v) (a + 1)

/-- Every index of a buffer after a range write lies in the range or was there before. -/
theorem Memory.mem_storeRange {m : Memory} {a : Nat} {x : List Byte} {c : Host.Cell}
    (h : c ∈ Memory.storeRange m a x) : (a ≤ c.1 ∧ c.1 < a + x.length) ∨ c ∈ m := by
  induction x generalizing m a with
  | nil => exact .inr h
  | cons v x ih =>
    rcases ih h with h1 | h1
    · left; simp only [List.length_cons]; omega
    · rcases Memory.mem_store h1 with h2 | h2
      · left; simp only [List.length_cons]; omega
      · exact .inr h2

/-- A range read answers bytes exactly when every byte of the range is there. -/
theorem Memory.loadRange_eq_some {m : Memory} {a n : Nat} {x : List Byte} :
    Memory.loadRange m a n = some x ↔
      x.length = n ∧ ∀ i, i < n → Memory.load m (a + i) = x[i]? := by
  induction n generalizing a x with
  | zero => cases x <;> simp [Memory.loadRange]
  | succ n ih =>
    simp only [Memory.loadRange]
    constructor
    · intro h
      split at h
      · rename_i b bs hb hbs
        obtain rfl := Option.some.inj h
        obtain ⟨hl, hi⟩ := ih.1 hbs
        refine ⟨by simp [hl], fun i hi' => ?_⟩
        cases i with
        | zero => simpa using hb
        | succ i => simpa [Nat.add_assoc, Nat.add_comm 1 i] using hi i (by omega)
      · exact absurd h (by simp)
    · rintro ⟨hl, hi⟩
      cases x with
      | nil => simp at hl
      | cons b bs =>
        have h0 : Memory.load m a = some b := by simpa using hi 0 (by omega)
        have h1 : Memory.loadRange m (a + 1) n = some bs := by
          refine ih.2 ⟨by simpa using hl, fun i hi' => ?_⟩
          simpa [Nat.add_assoc, Nat.add_comm 1 i] using hi (i + 1) (by omega)
        simp [h0, h1]

/-- A range read answers nothing exactly when some byte of the range is unwritten. -/
theorem Memory.loadRange_eq_none {m : Memory} {a n : Nat} :
    Memory.loadRange m a n = none ↔ ∃ i, i < n ∧ Memory.load m (a + i) = none := by
  induction n generalizing a with
  | zero => simp [Memory.loadRange]
  | succ n ih =>
    simp only [Memory.loadRange]
    constructor
    · intro h
      rcases hb : Memory.load m a with _ | b
      · exact ⟨0, by omega, by simpa using hb⟩
      · rcases hbs : Memory.loadRange m (a + 1) n with _ | bs
        · obtain ⟨i, hi, h0⟩ := ih.1 hbs
          exact ⟨i + 1, by omega, by simpa [Nat.add_assoc, Nat.add_comm 1 i] using h0⟩
        · simp [hb, hbs] at h
    · rintro ⟨i, hi, h0⟩
      cases i with
      | zero => rw [show Memory.load m a = none by simpa using h0]
      | succ i =>
        have : Memory.loadRange m (a + 1) n = none :=
          ih.2 ⟨i, by omega, by simpa [Nat.add_assoc, Nat.add_comm 1 i] using h0⟩
        rw [this]
        split <;> simp_all

end Sys2Proof.Machine
end

