-- ==== Sys2Proof/Laws/State.lean ====
section
/-! SUPPORT. One lemma per field per update of the state, true by rfl: later proofs never unfold a
record update. -/

namespace Sys2Proof.Machine

@[simp] theorem complete_cmd (r : Result) (s : State) : (complete r s).cmd = s.cmd := rfl
@[simp] theorem complete_code (r : Result) (s : State) : (complete r s).code = .ok := rfl
@[simp] theorem complete_busy (r : Result) (s : State) : (complete r s).busy = false := rfl
@[simp] theorem complete_cmdLost (r : Result) (s : State) : (complete r s).cmdLost = s.cmdLost := rfl
@[simp] theorem complete_arg0 (r : Result) (s : State) : (complete r s).arg0 = s.arg0 := rfl
@[simp] theorem complete_res0 (r : Result) (s : State) : (complete r s).res0 = r.res0 := rfl
@[simp] theorem complete_res1 (r : Result) (s : State) : (complete r s).res1 = r.res1 := rfl
@[simp] theorem complete_olen (r : Result) (s : State) : (complete r s).olen = BitVec.ofNat 16 r.out.length := rfl
@[simp] theorem complete_fstate (r : Result) (s : State) : (complete r s).fstate = .idle := rfl
@[simp] theorem complete_ibuf (r : Result) (s : State) : (complete r s).ibuf = s.ibuf := rfl
@[simp] theorem complete_obuf (r : Result) (s : State) : (complete r s).obuf = Memory.storeRange s.obuf 0 r.out := rfl
@[simp] theorem complete_fl (r : Result) (s : State) : (complete r s).fl = s.fl := rfl
@[simp] theorem complete_frem (r : Result) (s : State) : (complete r s).frem = s.frem := rfl
@[simp] theorem complete_fcnt (r : Result) (s : State) : (complete r s).fcnt = s.fcnt := rfl
@[simp] theorem complete_fbuf (r : Result) (s : State) : (complete r s).fbuf = s.fbuf := rfl
@[simp] theorem complete_txbuf (r : Result) (s : State) : (complete r s).txbuf = s.txbuf := rfl
@[simp] theorem complete_txpos (r : Result) (s : State) : (complete r s).txpos = s.txpos := rfl
@[simp] theorem complete_env (r : Result) (s : State) : (complete r s).env = s.env := rfl

@[simp] theorem errorCompletion_cmd (e : ErrorKind) (s : State) : (errorCompletion e s).cmd = s.cmd := rfl
@[simp] theorem errorCompletion_code (e : ErrorKind) (s : State) : (errorCompletion e s).code = .err e := rfl
@[simp] theorem errorCompletion_busy (e : ErrorKind) (s : State) : (errorCompletion e s).busy = false := rfl
@[simp] theorem errorCompletion_cmdLost (e : ErrorKind) (s : State) : (errorCompletion e s).cmdLost = s.cmdLost := rfl
@[simp] theorem errorCompletion_arg0 (e : ErrorKind) (s : State) : (errorCompletion e s).arg0 = s.arg0 := rfl
@[simp] theorem errorCompletion_res0 (e : ErrorKind) (s : State) : (errorCompletion e s).res0 = 0 := rfl
@[simp] theorem errorCompletion_res1 (e : ErrorKind) (s : State) : (errorCompletion e s).res1 = 0 := rfl
@[simp] theorem errorCompletion_olen (e : ErrorKind) (s : State) : (errorCompletion e s).olen = 0 := rfl
@[simp] theorem errorCompletion_fstate (e : ErrorKind) (s : State) : (errorCompletion e s).fstate = .idle := rfl
@[simp] theorem errorCompletion_ibuf (e : ErrorKind) (s : State) : (errorCompletion e s).ibuf = s.ibuf := rfl
@[simp] theorem errorCompletion_obuf (e : ErrorKind) (s : State) : (errorCompletion e s).obuf = s.obuf := rfl
@[simp] theorem errorCompletion_fl (e : ErrorKind) (s : State) : (errorCompletion e s).fl = s.fl := rfl
@[simp] theorem errorCompletion_frem (e : ErrorKind) (s : State) : (errorCompletion e s).frem = s.frem := rfl
@[simp] theorem errorCompletion_fcnt (e : ErrorKind) (s : State) : (errorCompletion e s).fcnt = s.fcnt := rfl
@[simp] theorem errorCompletion_fbuf (e : ErrorKind) (s : State) : (errorCompletion e s).fbuf = s.fbuf := rfl
@[simp] theorem errorCompletion_txbuf (e : ErrorKind) (s : State) : (errorCompletion e s).txbuf = s.txbuf := rfl
@[simp] theorem errorCompletion_txpos (e : ErrorKind) (s : State) : (errorCompletion e s).txpos = s.txpos := rfl
@[simp] theorem errorCompletion_env (e : ErrorKind) (s : State) : (errorCompletion e s).env = s.env := rfl

@[simp] theorem acceptCmd_cmd (w : CmdWord) (s : State) : (acceptCmd w s).cmd = w := rfl
@[simp] theorem acceptCmd_code (w : CmdWord) (s : State) : (acceptCmd w s).code = s.code := rfl
@[simp] theorem acceptCmd_busy (w : CmdWord) (s : State) : (acceptCmd w s).busy = s.busy := rfl
@[simp] theorem acceptCmd_cmdLost (w : CmdWord) (s : State) : (acceptCmd w s).cmdLost = false := rfl
@[simp] theorem acceptCmd_arg0 (w : CmdWord) (s : State) : (acceptCmd w s).arg0 = s.arg0 := rfl
@[simp] theorem acceptCmd_res0 (w : CmdWord) (s : State) : (acceptCmd w s).res0 = s.res0 := rfl
@[simp] theorem acceptCmd_res1 (w : CmdWord) (s : State) : (acceptCmd w s).res1 = s.res1 := rfl
@[simp] theorem acceptCmd_olen (w : CmdWord) (s : State) : (acceptCmd w s).olen = s.olen := rfl
@[simp] theorem acceptCmd_fstate (w : CmdWord) (s : State) : (acceptCmd w s).fstate = s.fstate := rfl
@[simp] theorem acceptCmd_ibuf (w : CmdWord) (s : State) : (acceptCmd w s).ibuf = s.ibuf := rfl
@[simp] theorem acceptCmd_obuf (w : CmdWord) (s : State) : (acceptCmd w s).obuf = s.obuf := rfl
@[simp] theorem acceptCmd_fl (w : CmdWord) (s : State) : (acceptCmd w s).fl = s.fl := rfl
@[simp] theorem acceptCmd_frem (w : CmdWord) (s : State) : (acceptCmd w s).frem = s.frem := rfl
@[simp] theorem acceptCmd_fcnt (w : CmdWord) (s : State) : (acceptCmd w s).fcnt = s.fcnt := rfl
@[simp] theorem acceptCmd_fbuf (w : CmdWord) (s : State) : (acceptCmd w s).fbuf = s.fbuf := rfl
@[simp] theorem acceptCmd_txbuf (w : CmdWord) (s : State) : (acceptCmd w s).txbuf = s.txbuf := rfl
@[simp] theorem acceptCmd_txpos (w : CmdWord) (s : State) : (acceptCmd w s).txpos = s.txpos := rfl
@[simp] theorem acceptCmd_env (w : CmdWord) (s : State) : (acceptCmd w s).env = s.env := rfl

@[simp] theorem loseCmd_cmd (s : State) : (loseCmd s).cmd = s.cmd := rfl
@[simp] theorem loseCmd_code (s : State) : (loseCmd s).code = s.code := rfl
@[simp] theorem loseCmd_busy (s : State) : (loseCmd s).busy = s.busy := rfl
@[simp] theorem loseCmd_cmdLost (s : State) : (loseCmd s).cmdLost = true := rfl
@[simp] theorem loseCmd_arg0 (s : State) : (loseCmd s).arg0 = s.arg0 := rfl
@[simp] theorem loseCmd_res0 (s : State) : (loseCmd s).res0 = s.res0 := rfl
@[simp] theorem loseCmd_res1 (s : State) : (loseCmd s).res1 = s.res1 := rfl
@[simp] theorem loseCmd_olen (s : State) : (loseCmd s).olen = s.olen := rfl
@[simp] theorem loseCmd_fstate (s : State) : (loseCmd s).fstate = s.fstate := rfl
@[simp] theorem loseCmd_ibuf (s : State) : (loseCmd s).ibuf = s.ibuf := rfl
@[simp] theorem loseCmd_obuf (s : State) : (loseCmd s).obuf = s.obuf := rfl
@[simp] theorem loseCmd_fl (s : State) : (loseCmd s).fl = s.fl := rfl
@[simp] theorem loseCmd_frem (s : State) : (loseCmd s).frem = s.frem := rfl
@[simp] theorem loseCmd_fcnt (s : State) : (loseCmd s).fcnt = s.fcnt := rfl
@[simp] theorem loseCmd_fbuf (s : State) : (loseCmd s).fbuf = s.fbuf := rfl
@[simp] theorem loseCmd_txbuf (s : State) : (loseCmd s).txbuf = s.txbuf := rfl
@[simp] theorem loseCmd_txpos (s : State) : (loseCmd s).txpos = s.txpos := rfl
@[simp] theorem loseCmd_env (s : State) : (loseCmd s).env = s.env := rfl

@[simp] theorem giveHost_cmd (v : Word64) (s : State) : (giveHost v s).cmd = s.cmd := rfl
@[simp] theorem giveHost_code (v : Word64) (s : State) : (giveHost v s).code = s.code := rfl
@[simp] theorem giveHost_busy (v : Word64) (s : State) : (giveHost v s).busy = s.busy := rfl
@[simp] theorem giveHost_cmdLost (v : Word64) (s : State) : (giveHost v s).cmdLost = s.cmdLost := rfl
@[simp] theorem giveHost_arg0 (v : Word64) (s : State) : (giveHost v s).arg0 = s.arg0 := rfl
@[simp] theorem giveHost_res0 (v : Word64) (s : State) : (giveHost v s).res0 = s.res0 := rfl
@[simp] theorem giveHost_res1 (v : Word64) (s : State) : (giveHost v s).res1 = s.res1 := rfl
@[simp] theorem giveHost_olen (v : Word64) (s : State) : (giveHost v s).olen = s.olen := rfl
@[simp] theorem giveHost_fstate (v : Word64) (s : State) : (giveHost v s).fstate = s.fstate := rfl
@[simp] theorem giveHost_ibuf (v : Word64) (s : State) : (giveHost v s).ibuf = s.ibuf := rfl
@[simp] theorem giveHost_obuf (v : Word64) (s : State) : (giveHost v s).obuf = s.obuf := rfl
@[simp] theorem giveHost_fl (v : Word64) (s : State) : (giveHost v s).fl = s.fl := rfl
@[simp] theorem giveHost_frem (v : Word64) (s : State) : (giveHost v s).frem = s.frem := rfl
@[simp] theorem giveHost_fcnt (v : Word64) (s : State) : (giveHost v s).fcnt = s.fcnt := rfl
@[simp] theorem giveHost_fbuf (v : Word64) (s : State) : (giveHost v s).fbuf = s.fbuf := rfl
@[simp] theorem giveHost_txbuf (v : Word64) (s : State) : (giveHost v s).txbuf = s.txbuf := rfl
@[simp] theorem giveHost_txpos (v : Word64) (s : State) : (giveHost v s).txpos = s.txpos := rfl
@[simp] theorem giveHost_env (v : Word64) (s : State) : (giveHost v s).env = { s.env with hostData := some v } := rfl

@[simp] theorem drawFree_cmd (s : State) : (drawFree s).cmd = s.cmd := rfl
@[simp] theorem drawFree_code (s : State) : (drawFree s).code = s.code := rfl
@[simp] theorem drawFree_busy (s : State) : (drawFree s).busy = s.busy := rfl
@[simp] theorem drawFree_cmdLost (s : State) : (drawFree s).cmdLost = s.cmdLost := rfl
@[simp] theorem drawFree_arg0 (s : State) : (drawFree s).arg0 = s.arg0 := rfl
@[simp] theorem drawFree_res0 (s : State) : (drawFree s).res0 = s.res0 := rfl
@[simp] theorem drawFree_res1 (s : State) : (drawFree s).res1 = s.res1 := rfl
@[simp] theorem drawFree_olen (s : State) : (drawFree s).olen = s.olen := rfl
@[simp] theorem drawFree_fstate (s : State) : (drawFree s).fstate = s.fstate := rfl
@[simp] theorem drawFree_ibuf (s : State) : (drawFree s).ibuf = s.ibuf := rfl
@[simp] theorem drawFree_obuf (s : State) : (drawFree s).obuf = s.obuf := rfl
@[simp] theorem drawFree_fl (s : State) : (drawFree s).fl = s.fl := rfl
@[simp] theorem drawFree_frem (s : State) : (drawFree s).frem = s.frem := rfl
@[simp] theorem drawFree_fcnt (s : State) : (drawFree s).fcnt = s.fcnt := rfl
@[simp] theorem drawFree_fbuf (s : State) : (drawFree s).fbuf = s.fbuf := rfl
@[simp] theorem drawFree_txbuf (s : State) : (drawFree s).txbuf = s.txbuf := rfl
@[simp] theorem drawFree_txpos (s : State) : (drawFree s).txpos = s.txpos := rfl
@[simp] theorem drawFree_env (s : State) : (drawFree s).env = { s.env with draws := s.env.draws + 1 } := rfl

@[simp] theorem withMoves_cmd (ms : List Move) (s : State) : (withMoves ms s).cmd = s.cmd := rfl
@[simp] theorem withMoves_code (ms : List Move) (s : State) : (withMoves ms s).code = s.code := rfl
@[simp] theorem withMoves_busy (ms : List Move) (s : State) : (withMoves ms s).busy = s.busy := rfl
@[simp] theorem withMoves_cmdLost (ms : List Move) (s : State) : (withMoves ms s).cmdLost = s.cmdLost := rfl
@[simp] theorem withMoves_arg0 (ms : List Move) (s : State) : (withMoves ms s).arg0 = s.arg0 := rfl
@[simp] theorem withMoves_res0 (ms : List Move) (s : State) : (withMoves ms s).res0 = s.res0 := rfl
@[simp] theorem withMoves_res1 (ms : List Move) (s : State) : (withMoves ms s).res1 = s.res1 := rfl
@[simp] theorem withMoves_olen (ms : List Move) (s : State) : (withMoves ms s).olen = s.olen := rfl
@[simp] theorem withMoves_fstate (ms : List Move) (s : State) : (withMoves ms s).fstate = s.fstate := rfl
@[simp] theorem withMoves_ibuf (ms : List Move) (s : State) : (withMoves ms s).ibuf = s.ibuf := rfl
@[simp] theorem withMoves_obuf (ms : List Move) (s : State) : (withMoves ms s).obuf = s.obuf := rfl
@[simp] theorem withMoves_fl (ms : List Move) (s : State) : (withMoves ms s).fl = s.fl := rfl
@[simp] theorem withMoves_frem (ms : List Move) (s : State) : (withMoves ms s).frem = s.frem := rfl
@[simp] theorem withMoves_fcnt (ms : List Move) (s : State) : (withMoves ms s).fcnt = s.fcnt := rfl
@[simp] theorem withMoves_fbuf (ms : List Move) (s : State) : (withMoves ms s).fbuf = s.fbuf := rfl
@[simp] theorem withMoves_txbuf (ms : List Move) (s : State) : (withMoves ms s).txbuf = s.txbuf := rfl
@[simp] theorem withMoves_txpos (ms : List Move) (s : State) : (withMoves ms s).txpos = s.txpos := rfl
@[simp] theorem withMoves_env (ms : List Move) (s : State) : (withMoves ms s).env = { s.env with moves := ms } := rfl

@[simp] theorem startSend_cmd (f : List Byte) (s : State) : (startSend f s).cmd = s.cmd := rfl
@[simp] theorem startSend_code (f : List Byte) (s : State) : (startSend f s).code = s.code := rfl
@[simp] theorem startSend_busy (f : List Byte) (s : State) : (startSend f s).busy = true := rfl
@[simp] theorem startSend_cmdLost (f : List Byte) (s : State) : (startSend f s).cmdLost = s.cmdLost := rfl
@[simp] theorem startSend_arg0 (f : List Byte) (s : State) : (startSend f s).arg0 = s.arg0 := rfl
@[simp] theorem startSend_res0 (f : List Byte) (s : State) : (startSend f s).res0 = s.res0 := rfl
@[simp] theorem startSend_res1 (f : List Byte) (s : State) : (startSend f s).res1 = s.res1 := rfl
@[simp] theorem startSend_olen (f : List Byte) (s : State) : (startSend f s).olen = s.olen := rfl
@[simp] theorem startSend_fstate (f : List Byte) (s : State) : (startSend f s).fstate = .tx := rfl
@[simp] theorem startSend_ibuf (f : List Byte) (s : State) : (startSend f s).ibuf = s.ibuf := rfl
@[simp] theorem startSend_obuf (f : List Byte) (s : State) : (startSend f s).obuf = s.obuf := rfl
@[simp] theorem startSend_fl (f : List Byte) (s : State) : (startSend f s).fl = s.fl := rfl
@[simp] theorem startSend_frem (f : List Byte) (s : State) : (startSend f s).frem = s.frem := rfl
@[simp] theorem startSend_fcnt (f : List Byte) (s : State) : (startSend f s).fcnt = s.fcnt := rfl
@[simp] theorem startSend_fbuf (f : List Byte) (s : State) : (startSend f s).fbuf = s.fbuf := rfl
@[simp] theorem startSend_txbuf (f : List Byte) (s : State) : (startSend f s).txbuf = f := rfl
@[simp] theorem startSend_txpos (f : List Byte) (s : State) : (startSend f s).txpos = 0 := rfl
@[simp] theorem startSend_env (f : List Byte) (s : State) : (startSend f s).env = s.env := rfl

@[simp] theorem finishErr_cmd (f : FState) (e : ErrorKind) (s : State) : (finishErr f e s).cmd = s.cmd := rfl
@[simp] theorem finishErr_code (f : FState) (e : ErrorKind) (s : State) : (finishErr f e s).code = .err e := rfl
@[simp] theorem finishErr_busy (f : FState) (e : ErrorKind) (s : State) : (finishErr f e s).busy = false := rfl
@[simp] theorem finishErr_cmdLost (f : FState) (e : ErrorKind) (s : State) : (finishErr f e s).cmdLost = s.cmdLost := rfl
@[simp] theorem finishErr_arg0 (f : FState) (e : ErrorKind) (s : State) : (finishErr f e s).arg0 = s.arg0 := rfl
@[simp] theorem finishErr_res0 (f : FState) (e : ErrorKind) (s : State) : (finishErr f e s).res0 = (fstateWord f).setWidth 64 := rfl
@[simp] theorem finishErr_res1 (f : FState) (e : ErrorKind) (s : State) : (finishErr f e s).res1 = s.fcnt := rfl
@[simp] theorem finishErr_olen (f : FState) (e : ErrorKind) (s : State) : (finishErr f e s).olen = 0 := rfl
@[simp] theorem finishErr_fstate (f : FState) (e : ErrorKind) (s : State) : (finishErr f e s).fstate = .idle := rfl
@[simp] theorem finishErr_ibuf (f : FState) (e : ErrorKind) (s : State) : (finishErr f e s).ibuf = s.ibuf := rfl
@[simp] theorem finishErr_obuf (f : FState) (e : ErrorKind) (s : State) : (finishErr f e s).obuf = s.obuf := rfl
@[simp] theorem finishErr_fl (f : FState) (e : ErrorKind) (s : State) : (finishErr f e s).fl = s.fl := rfl
@[simp] theorem finishErr_frem (f : FState) (e : ErrorKind) (s : State) : (finishErr f e s).frem = s.frem := rfl
@[simp] theorem finishErr_fcnt (f : FState) (e : ErrorKind) (s : State) : (finishErr f e s).fcnt = s.fcnt := rfl
@[simp] theorem finishErr_fbuf (f : FState) (e : ErrorKind) (s : State) : (finishErr f e s).fbuf = s.fbuf := rfl
@[simp] theorem finishErr_txbuf (f : FState) (e : ErrorKind) (s : State) : (finishErr f e s).txbuf = s.txbuf := rfl
@[simp] theorem finishErr_txpos (f : FState) (e : ErrorKind) (s : State) : (finishErr f e s).txpos = s.txpos := rfl
@[simp] theorem finishErr_env (f : FState) (e : ErrorKind) (s : State) : (finishErr f e s).env = s.env := rfl

@[simp] theorem countByte_cmd (s : State) : (countByte s).cmd = s.cmd := rfl
@[simp] theorem countByte_code (s : State) : (countByte s).code = s.code := rfl
@[simp] theorem countByte_busy (s : State) : (countByte s).busy = s.busy := rfl
@[simp] theorem countByte_cmdLost (s : State) : (countByte s).cmdLost = s.cmdLost := rfl
@[simp] theorem countByte_arg0 (s : State) : (countByte s).arg0 = s.arg0 := rfl
@[simp] theorem countByte_res0 (s : State) : (countByte s).res0 = s.res0 := rfl
@[simp] theorem countByte_res1 (s : State) : (countByte s).res1 = s.res1 := rfl
@[simp] theorem countByte_olen (s : State) : (countByte s).olen = s.olen := rfl
@[simp] theorem countByte_fstate (s : State) : (countByte s).fstate = s.fstate := rfl
@[simp] theorem countByte_ibuf (s : State) : (countByte s).ibuf = s.ibuf := rfl
@[simp] theorem countByte_obuf (s : State) : (countByte s).obuf = s.obuf := rfl
@[simp] theorem countByte_fl (s : State) : (countByte s).fl = s.fl := rfl
@[simp] theorem countByte_frem (s : State) : (countByte s).frem = s.frem := rfl
@[simp] theorem countByte_fcnt (s : State) : (countByte s).fcnt = s.fcnt + 1 := rfl
@[simp] theorem countByte_fbuf (s : State) : (countByte s).fbuf = s.fbuf := rfl
@[simp] theorem countByte_txbuf (s : State) : (countByte s).txbuf = s.txbuf := rfl
@[simp] theorem countByte_txpos (s : State) : (countByte s).txpos = s.txpos := rfl
@[simp] theorem countByte_env (s : State) : (countByte s).env = s.env := rfl

@[simp] theorem keepByte_cmd (b : Byte) (s : State) : (keepByte b s).cmd = s.cmd := rfl
@[simp] theorem keepByte_code (b : Byte) (s : State) : (keepByte b s).code = s.code := rfl
@[simp] theorem keepByte_busy (b : Byte) (s : State) : (keepByte b s).busy = s.busy := rfl
@[simp] theorem keepByte_cmdLost (b : Byte) (s : State) : (keepByte b s).cmdLost = s.cmdLost := rfl
@[simp] theorem keepByte_arg0 (b : Byte) (s : State) : (keepByte b s).arg0 = s.arg0 := rfl
@[simp] theorem keepByte_res0 (b : Byte) (s : State) : (keepByte b s).res0 = s.res0 := rfl
@[simp] theorem keepByte_res1 (b : Byte) (s : State) : (keepByte b s).res1 = s.res1 := rfl
@[simp] theorem keepByte_olen (b : Byte) (s : State) : (keepByte b s).olen = s.olen := rfl
@[simp] theorem keepByte_fstate (b : Byte) (s : State) : (keepByte b s).fstate = s.fstate := rfl
@[simp] theorem keepByte_ibuf (b : Byte) (s : State) : (keepByte b s).ibuf = s.ibuf := rfl
@[simp] theorem keepByte_obuf (b : Byte) (s : State) : (keepByte b s).obuf = s.obuf := rfl
@[simp] theorem keepByte_fl (b : Byte) (s : State) : (keepByte b s).fl = s.fl := rfl
@[simp] theorem keepByte_frem (b : Byte) (s : State) : (keepByte b s).frem = s.frem := rfl
@[simp] theorem keepByte_fcnt (b : Byte) (s : State) : (keepByte b s).fcnt = s.fcnt + 1 := rfl
@[simp] theorem keepByte_fbuf (b : Byte) (s : State) : (keepByte b s).fbuf = s.fbuf ++ [b] := rfl
@[simp] theorem keepByte_txbuf (b : Byte) (s : State) : (keepByte b s).txbuf = s.txbuf := rfl
@[simp] theorem keepByte_txpos (b : Byte) (s : State) : (keepByte b s).txpos = s.txpos := rfl
@[simp] theorem keepByte_env (b : Byte) (s : State) : (keepByte b s).env = s.env := rfl

@[simp] theorem sendByte_cmd (s : State) : (sendByte s).cmd = s.cmd := rfl
@[simp] theorem sendByte_code (s : State) : (sendByte s).code = s.code := rfl
@[simp] theorem sendByte_busy (s : State) : (sendByte s).busy = s.busy := rfl
@[simp] theorem sendByte_cmdLost (s : State) : (sendByte s).cmdLost = s.cmdLost := rfl
@[simp] theorem sendByte_arg0 (s : State) : (sendByte s).arg0 = s.arg0 := rfl
@[simp] theorem sendByte_res0 (s : State) : (sendByte s).res0 = s.res0 := rfl
@[simp] theorem sendByte_res1 (s : State) : (sendByte s).res1 = s.res1 := rfl
@[simp] theorem sendByte_olen (s : State) : (sendByte s).olen = s.olen := rfl
@[simp] theorem sendByte_fstate (s : State) : (sendByte s).fstate = s.fstate := rfl
@[simp] theorem sendByte_ibuf (s : State) : (sendByte s).ibuf = s.ibuf := rfl
@[simp] theorem sendByte_obuf (s : State) : (sendByte s).obuf = s.obuf := rfl
@[simp] theorem sendByte_fl (s : State) : (sendByte s).fl = s.fl := rfl
@[simp] theorem sendByte_frem (s : State) : (sendByte s).frem = s.frem := rfl
@[simp] theorem sendByte_fcnt (s : State) : (sendByte s).fcnt = s.fcnt := rfl
@[simp] theorem sendByte_fbuf (s : State) : (sendByte s).fbuf = s.fbuf := rfl
@[simp] theorem sendByte_txbuf (s : State) : (sendByte s).txbuf = s.txbuf := rfl
@[simp] theorem sendByte_txpos (s : State) : (sendByte s).txpos = s.txpos + 1 := rfl
@[simp] theorem sendByte_env (s : State) : (sendByte s).env = { s.env with sent := s.env.sent ++ (offeredByte s).toList } := rfl

@[simp] theorem failSend_cmd (s : State) : (failSend s).cmd = s.cmd := rfl
@[simp] theorem failSend_code (s : State) : (failSend s).code = .err .connectionError := rfl
@[simp] theorem failSend_busy (s : State) : (failSend s).busy = false := rfl
@[simp] theorem failSend_cmdLost (s : State) : (failSend s).cmdLost = s.cmdLost := rfl
@[simp] theorem failSend_arg0 (s : State) : (failSend s).arg0 = s.arg0 := rfl
@[simp] theorem failSend_res0 (s : State) : (failSend s).res0 = 0 := rfl
@[simp] theorem failSend_res1 (s : State) : (failSend s).res1 = s.txpos.setWidth 32 := rfl
@[simp] theorem failSend_olen (s : State) : (failSend s).olen = 0 := rfl
@[simp] theorem failSend_fstate (s : State) : (failSend s).fstate = .idle := rfl
@[simp] theorem failSend_ibuf (s : State) : (failSend s).ibuf = s.ibuf := rfl
@[simp] theorem failSend_obuf (s : State) : (failSend s).obuf = s.obuf := rfl
@[simp] theorem failSend_fl (s : State) : (failSend s).fl = s.fl := rfl
@[simp] theorem failSend_frem (s : State) : (failSend s).frem = s.frem := rfl
@[simp] theorem failSend_fcnt (s : State) : (failSend s).fcnt = s.fcnt := rfl
@[simp] theorem failSend_fbuf (s : State) : (failSend s).fbuf = s.fbuf := rfl
@[simp] theorem failSend_txbuf (s : State) : (failSend s).txbuf = s.txbuf := rfl
@[simp] theorem failSend_txpos (s : State) : (failSend s).txpos = s.txpos := rfl
@[simp] theorem failSend_env (s : State) : (failSend s).env = s.env := rfl

@[simp] theorem withRx_cmd (es : List RxEvent) (s : State) : (withRx es s).cmd = s.cmd := rfl
@[simp] theorem withRx_code (es : List RxEvent) (s : State) : (withRx es s).code = s.code := rfl
@[simp] theorem withRx_busy (es : List RxEvent) (s : State) : (withRx es s).busy = s.busy := rfl
@[simp] theorem withRx_cmdLost (es : List RxEvent) (s : State) : (withRx es s).cmdLost = s.cmdLost := rfl
@[simp] theorem withRx_arg0 (es : List RxEvent) (s : State) : (withRx es s).arg0 = s.arg0 := rfl
@[simp] theorem withRx_res0 (es : List RxEvent) (s : State) : (withRx es s).res0 = s.res0 := rfl
@[simp] theorem withRx_res1 (es : List RxEvent) (s : State) : (withRx es s).res1 = s.res1 := rfl
@[simp] theorem withRx_olen (es : List RxEvent) (s : State) : (withRx es s).olen = s.olen := rfl
@[simp] theorem withRx_fstate (es : List RxEvent) (s : State) : (withRx es s).fstate = s.fstate := rfl
@[simp] theorem withRx_ibuf (es : List RxEvent) (s : State) : (withRx es s).ibuf = s.ibuf := rfl
@[simp] theorem withRx_obuf (es : List RxEvent) (s : State) : (withRx es s).obuf = s.obuf := rfl
@[simp] theorem withRx_fl (es : List RxEvent) (s : State) : (withRx es s).fl = s.fl := rfl
@[simp] theorem withRx_frem (es : List RxEvent) (s : State) : (withRx es s).frem = s.frem := rfl
@[simp] theorem withRx_fcnt (es : List RxEvent) (s : State) : (withRx es s).fcnt = s.fcnt := rfl
@[simp] theorem withRx_fbuf (es : List RxEvent) (s : State) : (withRx es s).fbuf = s.fbuf := rfl
@[simp] theorem withRx_txbuf (es : List RxEvent) (s : State) : (withRx es s).txbuf = s.txbuf := rfl
@[simp] theorem withRx_txpos (es : List RxEvent) (s : State) : (withRx es s).txpos = s.txpos := rfl
@[simp] theorem withRx_env (es : List RxEvent) (s : State) : (withRx es s).env = { s.env with rx := es } := rfl

@[simp] theorem withTx_cmd (as : List TxAnswer) (s : State) : (withTx as s).cmd = s.cmd := rfl
@[simp] theorem withTx_code (as : List TxAnswer) (s : State) : (withTx as s).code = s.code := rfl
@[simp] theorem withTx_busy (as : List TxAnswer) (s : State) : (withTx as s).busy = s.busy := rfl
@[simp] theorem withTx_cmdLost (as : List TxAnswer) (s : State) : (withTx as s).cmdLost = s.cmdLost := rfl
@[simp] theorem withTx_arg0 (as : List TxAnswer) (s : State) : (withTx as s).arg0 = s.arg0 := rfl
@[simp] theorem withTx_res0 (as : List TxAnswer) (s : State) : (withTx as s).res0 = s.res0 := rfl
@[simp] theorem withTx_res1 (as : List TxAnswer) (s : State) : (withTx as s).res1 = s.res1 := rfl
@[simp] theorem withTx_olen (as : List TxAnswer) (s : State) : (withTx as s).olen = s.olen := rfl
@[simp] theorem withTx_fstate (as : List TxAnswer) (s : State) : (withTx as s).fstate = s.fstate := rfl
@[simp] theorem withTx_ibuf (as : List TxAnswer) (s : State) : (withTx as s).ibuf = s.ibuf := rfl
@[simp] theorem withTx_obuf (as : List TxAnswer) (s : State) : (withTx as s).obuf = s.obuf := rfl
@[simp] theorem withTx_fl (as : List TxAnswer) (s : State) : (withTx as s).fl = s.fl := rfl
@[simp] theorem withTx_frem (as : List TxAnswer) (s : State) : (withTx as s).frem = s.frem := rfl
@[simp] theorem withTx_fcnt (as : List TxAnswer) (s : State) : (withTx as s).fcnt = s.fcnt := rfl
@[simp] theorem withTx_fbuf (as : List TxAnswer) (s : State) : (withTx as s).fbuf = s.fbuf := rfl
@[simp] theorem withTx_txbuf (as : List TxAnswer) (s : State) : (withTx as s).txbuf = s.txbuf := rfl
@[simp] theorem withTx_txpos (as : List TxAnswer) (s : State) : (withTx as s).txpos = s.txpos := rfl
@[simp] theorem withTx_env (as : List TxAnswer) (s : State) : (withTx as s).env = { s.env with tx := as } := rfl

@[simp] theorem applyReset_cmd (s : State) : (applyReset s).cmd = State.reset.cmd := rfl
@[simp] theorem applyReset_code (s : State) : (applyReset s).code = State.reset.code := rfl
@[simp] theorem applyReset_busy (s : State) : (applyReset s).busy = State.reset.busy := rfl
@[simp] theorem applyReset_cmdLost (s : State) : (applyReset s).cmdLost = State.reset.cmdLost := rfl
@[simp] theorem applyReset_arg0 (s : State) : (applyReset s).arg0 = State.reset.arg0 := rfl
@[simp] theorem applyReset_res0 (s : State) : (applyReset s).res0 = State.reset.res0 := rfl
@[simp] theorem applyReset_res1 (s : State) : (applyReset s).res1 = State.reset.res1 := rfl
@[simp] theorem applyReset_olen (s : State) : (applyReset s).olen = State.reset.olen := rfl
@[simp] theorem applyReset_fstate (s : State) : (applyReset s).fstate = State.reset.fstate := rfl
@[simp] theorem applyReset_ibuf (s : State) : (applyReset s).ibuf = State.reset.ibuf := rfl
@[simp] theorem applyReset_obuf (s : State) : (applyReset s).obuf = State.reset.obuf := rfl
@[simp] theorem applyReset_fl (s : State) : (applyReset s).fl = State.reset.fl := rfl
@[simp] theorem applyReset_frem (s : State) : (applyReset s).frem = State.reset.frem := rfl
@[simp] theorem applyReset_fcnt (s : State) : (applyReset s).fcnt = State.reset.fcnt := rfl
@[simp] theorem applyReset_fbuf (s : State) : (applyReset s).fbuf = State.reset.fbuf := rfl
@[simp] theorem applyReset_txbuf (s : State) : (applyReset s).txbuf = State.reset.txbuf := rfl
@[simp] theorem applyReset_txpos (s : State) : (applyReset s).txpos = State.reset.txpos := rfl
@[simp] theorem applyReset_env (s : State) : (applyReset s).env = s.env := rfl

end Sys2Proof.Machine
end

