-- ==== Sys2Proof/Laws/Ops.lean ====
section
/-! SUPPORT. What the shared operations can do, one lemma each: provers cite these and do not unfold
the operations. -/

namespace Sys2Proof.Machine

@[simp] theorem settle_ok (r : Result) (s : State) : settle (.ok r) s = complete r s := rfl

@[simp] theorem settle_error (e : ErrorKind) (s : State) :
    settle (.error e) s = errorCompletion e s := rfl

/-- A success completion leaves the OBUF bytes from its output's length on alone. -/
theorem load_complete (r : Result) (s : State) (a : Nat) :
    Memory.load (complete r s).obuf a =
      if a < r.out.length then r.out[a]? else Memory.load s.obuf a := by
  simp [Memory.load_storeRange]

/-- Reading input: every byte is there and the command ends, or one is missing and it faults. -/
theorem onInput_cases (n : Nat) (f : List Byte → Except ErrorKind Result) (s : State) :
    (∃ x, Memory.loadRange s.ibuf 0 n = some x ∧ x.length = n ∧
        onInput n f s = .next (settle (f x) s)) ∨
      ((∃ i, i < n ∧ Memory.load s.ibuf i = none) ∧ onInput n f s = .fault .unwrittenInput) := by
  unfold onInput
  rcases h : Memory.loadRange s.ibuf 0 n with _ | x
  · exact .inr ⟨by simpa using Memory.loadRange_eq_none.1 h, rfl⟩
  · exact .inl ⟨x, rfl, (Memory.loadRange_eq_some.1 h).1, rfl⟩

/-- The input of a command from what the buffer holds. -/
theorem onInput_of_loadRange {n : Nat} {f : List Byte → Except ErrorKind Result} {s : State}
    {x : List Byte} (h : Memory.loadRange s.ibuf 0 n = some x) :
    onInput n f s = .next (settle (f x) s) := by
  simp [onInput, h]

/-- Checking ARG0: ill-formed ends with CommandError, well-formed with what the rule computes. -/
theorem onArg_cases (p : Word64 → Bool) (f : Word64 → Except ErrorKind Result) (s : State) :
    (p s.arg0 = true ∧ onArg p f s = settle (f s.arg0) s) ∨
      (p s.arg0 = false ∧ onArg p f s = errorCompletion .commandError s) := by
  unfold onArg
  cases h : p s.arg0 <;> simp

/-- A register that exists reads as its value. -/
theorem readRegister_of_regOf {s : State} {r : Nat} {g : Reg} (h : regOf r = some g) :
    readRegister s r = regValue s g := by
  simp [readRegister, h]

/-- The number of a register names it. -/
theorem regOf_regNumber (g : Reg) : regOf (regNumber g) = some g := by cases g <;> rfl

/-- A write to a register other than ARG0 has no effect. -/
theorem writeRegister_of_ne (r v : Nat) (s : State) (h : r ≠ 2) : writeRegister r v s = s := by
  match r, h with
  | 0, _ => rfl
  | 1, _ => rfl
  | 3, _ => rfl
  | 4, _ => rfl
  | 5, _ => rfl
  | 6, _ => rfl
  | n + 7, _ => rfl

/-- A write to ARG0 keeps the 64 low bits of the value. -/
theorem writeRegister_arg0 (v : Nat) (s : State) :
    writeRegister 2 v s = { s with arg0 := BitVec.ofNat 64 v } := rfl

/-- An OBUF read answers a byte to the host, 0 outside the buffer, or faults. -/
theorem readObuf_cases (i : Nat) (s : State) :
    (Config.bufSize ≤ i ∧ readObuf i s = .next (giveHost 0 s)) ∨
      (i < Config.bufSize ∧ ∃ b, Memory.load s.obuf i = some b ∧
        readObuf i s = .next (giveHost (b.setWidth 64) s)) ∨
      (i < Config.bufSize ∧ Memory.load s.obuf i = none ∧ readObuf i s = .fault .unwrittenOutput) := by
  unfold readObuf
  split
  · rename_i h
    rcases hl : Memory.load s.obuf i with _ | b
    · exact .inr (.inr ⟨h, rfl, rfl⟩)
    · exact .inr (.inl ⟨h, b, rfl, rfl⟩)
  · exact .inl ⟨by omega, rfl⟩

end Sys2Proof.Machine
end

