-- ==== Sys2Proof/Laws/Exec.lean ====
section
/-! SUPPORT. What issuing a command can do, said once: `exec_cases`. -/

namespace Sys2Proof.Machine

/-- Packing digits halves their number. -/
theorem packDigits_length : ∀ d : List (BitVec 4), (packDigits d).length = d.length / 2
  | [] => rfl
  | [_] => by simp [packDigits]
  | _ :: _ :: d => by simp only [packDigits, List.length_cons, packDigits_length d]; omega

/-- Padding makes the number of digits even. -/
theorem padDigits_length (pad : Config.OddPad) (d : List (BitVec 4)) :
    (padDigits pad d).length = d.length + d.length % 2 := by
  unfold padDigits
  split
  · cases pad <;> simp [*]
  · omega

/-- Two output bytes for each input byte. -/
theorem flatMap_pair_length {α β : Type} (f g : α → β) (x : List α) :
    (x.flatMap fun b => [f b, g b]).length = 2 * x.length := by
  induction x with
  | nil => rfl
  | cons b x ih =>
    simp only [List.flatMap_cons, List.length_append, ih, List.length_cons, List.length_nil]
    omega

/-- What a command's rule may compute: an error the core raises, or a result with at most `n` output
bytes. -/
def Yields (n : Nat) (r : Except ErrorKind Result) : Prop :=
  match r with
  | .ok x => x.out.length ≤ n
  | .error e => e ≠ .dataError ∧ e ≠ .authError

theorem encodeDigits_length {pad : Config.OddPad} {x out : List Byte}
    (h : encodeDigits pad x = .ok out) : out.length = (x.length + 1) / 2 := by
  unfold encodeDigits at h
  split at h
  · cases h
    rw [packDigits_length, padDigits_length, List.length_map]
    omega
  · cases h

theorem decodeDigits_length {x out : List Byte} (h : decodeDigits x = .ok out) :
    out.length = 2 * x.length := by
  unfold decodeDigits at h
  split at h
  · cases h
    exact flatMap_pair_length _ _ x
  · cases h

theorem encodeInt_length {n k : Nat} {out : List Byte} (h : encodeInt n k = .ok out) :
    out.length = k := by
  unfold encodeInt at h
  split at h
  · cases h
  · cases h
    simp

/-- A frame is five bytes longer than its region, which has 1 to 255 bytes. -/
theorem frameEncode_ok {r f : List Byte} (h : frameEncode r = .ok f) :
    1 ≤ r.length ∧ r.length ≤ 255 ∧
      f = [Config.start, BitVec.ofNat 8 r.length, Config.start] ++ r ++
        [checksum r, Config.endMarker] := by
  unfold frameEncode at h
  split at h
  · cases h
  · rename_i hn
    simp only [Config.maxRegion] at hn
    cases h
    exact ⟨by omega, by omega, rfl⟩

/-- A decoded region is at most 255 bytes long. -/
theorem frameDecode_ok {w : List Byte} {f : Frame} (h : frameDecode w = .ok f) :
    f.l = w.getD 1 0 ∧ f.region = (w.drop 3).take f.l.toNat ∧ f.region.length = f.l.toNat ∧
      w.length = f.l.toNat + 5 ∧ 2 ≤ f.l.toNat ∧ f.cs = w.getD (3 + f.l.toNat) 0 := by
  unfold frameDecode at h
  simp only at h
  split at h <;> [cases h; skip]
  split at h <;> [cases h; skip]
  split at h <;> [cases h; skip]
  split at h <;> [cases h; skip]
  split at h <;> [cases h; skip]
  rename_i h1 _ h2 _ _
  simp only [Config.minWireLen, Config.overhead, not_lt, not_not] at h1 h2
  cases h
  dsimp only
  exact ⟨rfl, rfl, by simp only [List.length_take, List.length_drop]; omega, h2, by omega, rfl⟩

theorem yields_map {α : Type} {n : Nat} {x : Except ErrorKind α} {f : α → Result}
    (he : ∀ e, x = .error e → e ≠ .dataError ∧ e ≠ .authError)
    (hok : ∀ a, x = .ok a → (f a).out.length ≤ n) : Yields n (x.map f) := by
  cases x with
  | error e => exact he e rfl
  | ok a => exact hok a rfl

/-- Every error of the pure functions is one the core raises. -/
theorem codec_errors :
    (∀ pad x e, encodeDigits pad x = .error e → e = .bcdError) ∧
    (∀ x e, decodeDigits x = .error e → e = .bcdError) ∧
    (∀ n k e, encodeInt n k = .error e → e = .bcdError) ∧
    (∀ x e, decodeInt x = .error e → e = .bcdError) ∧
    (∀ x e, addrDecode x = .error e → e = .addressError) ∧
    (∀ x e, addrEncode x = .error e → e = .addressError) ∧
    (∀ x e, addrValidate x = .error e → e = .addressError) ∧
    (∀ c x e, addrHex c x = .error e → e = .commandError) ∧
    (∀ x n e, ctrlDecode x n = .error e → e = .controlError) ∧
    (∀ x e, ctrlEncode x = .error e → e = .controlError) ∧
    (∀ x e, frameEncode x = .error e → e = .lengthError) := by
  refine ⟨?_, ?_, ?_, ?_, ?_, ?_, ?_, ?_, ?_, ?_, ?_⟩ <;> intros <;> rename_i h
  · unfold encodeDigits at h; split at h <;> simp_all
  · unfold decodeDigits at h; split at h <;> simp_all
  · unfold encodeInt at h; split at h <;> simp_all
  · unfold decodeInt at h; split at h <;> simp_all
  · unfold addrDecode at h
    repeat' split at h
    all_goals simp_all
  · unfold addrEncode at h
    repeat' split at h
    all_goals simp_all
  · unfold addrValidate at h
    repeat' split at h
    all_goals simp_all
  · unfold addrHex at h; split at h <;> simp_all
  · unfold ctrlDecode at h
    repeat' split at h
    all_goals simp_all
  · unfold ctrlEncode at h
    repeat' split at h
    all_goals simp_all
  · unfold frameEncode at h; split at h <;> simp_all

/-- The errors of frame decode: framing, length or checksum (spec/45_frame.md R181). -/
theorem frameDecode_error {w : List Byte} {e : ErrorKind} (h : frameDecode w = .error e) :
    e = .framingError ∨ e = .lengthError ∨ e = .checksumError := by
  unfold frameDecode at h
  simp only at h
  repeat' split at h
  all_goals simp_all

/-- How a command that completes at issue ends. -/
def Ends (n : Nat) (s t : State) : Prop :=
  (∃ e, t = errorCompletion e s ∧ e ≠ .dataError ∧ e ≠ .authError) ∨
    ∃ r : Result, t = complete r s ∧ r.out.length ≤ n

theorem settle_ends {n : Nat} {r : Except ErrorKind Result} (h : Yields n r) (s : State) :
    Ends n s (settle r s) := by
  cases r with
  | ok x => exact .inr ⟨x, rfl, h⟩
  | error e => exact .inl ⟨e, rfl, h⟩

theorem onInput_ends {k n : Nat} {f : List Byte → Except ErrorKind Result} {s t : State}
    (hf : ∀ x, x.length = k → Yields n (f x)) (h : onInput k f s = .next t) : Ends n s t := by
  rcases onInput_cases k f s with ⟨x, -, hx, he⟩ | ⟨-, he⟩
  · rw [he] at h
    cases h
    exact settle_ends (hf x hx) s
  · rw [he] at h
    cases h

theorem onArg_ends {n : Nat} {p : Word64 → Bool} {f : Word64 → Except ErrorKind Result} {s : State}
    (hf : Yields n (f s.arg0)) : Ends n s (onArg p f s) := by
  rcases onArg_cases p f s with ⟨-, he⟩ | ⟨-, he⟩ <;> rw [he]
  · exact settle_ends hf s
  · exact .inl ⟨_, rfl, by decide, by decide⟩

/-- The most output bytes of a command. -/
def outMax : Instr → Nat
  | .decdig n => 2 * n
  | .encdig n | .encint n => n
  | .fenc _ => 260
  | .fdec _ => 255
  | _ => 8

theorem outMax_le {i : Instr} (h : i.WellFormed) : outMax i ≤ Config.bufSize := by
  cases i <;>
    simp only [Instr.WellFormed, Instr.len, Instr.lenMax, Config.bufSize, Config.maxIntBytes,
      outMax] at * <;> omega

/-- What issuing a command can do when it answers a next state: RDFRM starts the framer, WRFRM loads
the transmitter with an encoded frame, and every other end is an error or a success completion. -/
theorem exec_cases {i : Instr} {s t : State} (h : exec i s = .next t) :
    (i = .rdfrm ∧ t = { s with
      fcnt := 0, fbuf := [], fl := 0, frem := 0, fstate := .seekStart, busy := true }) ∨
    (∃ n r f, i = .wrfrm n ∧ frameEncode r = .ok f ∧ t = startSend f s) ∨
    (i ≠ .rdfrm ∧ Ends (outMax i) s t) := by
  obtain ⟨hed, hdd, hei, hdi, had, hae, hav, hah, hcd, hce, hfe⟩ := codec_errors
  cases i with
  | tobcd =>
    cases h
    refine .inr (.inr ⟨by simp, settle_ends ?_ s⟩)
    unfold toBCD
    split <;> simp [Yields]
  | frombcd =>
    cases h
    refine .inr (.inr ⟨by simp, onArg_ends ?_⟩)
    unfold fromBCD
    split <;> simp [Yields]
  | isbcd =>
    cases h
    exact .inr (.inr ⟨by simp, onArg_ends (by simp [Yields])⟩)
  | encdig n =>
    refine .inr (.inr ⟨by simp, onInput_ends (fun x hx => yields_map (fun e he => ?_) fun a ha => ?_) h⟩)
    · simp [hed _ _ _ he]
    · simp only [outputOnly, encodeDigits_length ha, outMax, hx]; omega
  | decdig n =>
    refine .inr (.inr ⟨by simp, onInput_ends (fun x hx => yields_map (fun e he => ?_) fun a ha => ?_) h⟩)
    · simp [hdd _ _ he]
    · simp only [outputOnly, decodeDigits_length ha, outMax, hx]; omega
  | encint n =>
    cases h
    refine .inr (.inr ⟨by simp, settle_ends (yields_map (fun e he => ?_) fun a ha => ?_) s⟩)
    · simp [hei _ _ _ he]
    · simp [outputOnly, encodeInt_length ha, outMax]
  | decint n =>
    refine .inr (.inr ⟨by simp, onInput_ends (fun x _ => yields_map (fun e he => ?_) fun a _ => ?_) h⟩)
    · simp [hdi _ _ he]
    · simp
  | csum n =>
    exact .inr (.inr ⟨by simp, onInput_ends (fun x _ => by simp [Yields]) h⟩)
  | adec n =>
    refine .inr (.inr ⟨by simp, ?_⟩)
    change (if n < Config.addrLen then _ else _) = _ at h
    split at h
    · cases h
      exact .inl ⟨_, rfl, by decide, by decide⟩
    · refine onInput_ends (fun x _ => yields_map (fun e he => ?_) fun a _ => ?_) h
      · simp [had _ _ he]
      · simp
  | aenc =>
    cases h
    refine .inr (.inr ⟨by simp, onArg_ends (yields_map (fun e he => ?_) fun a ha => ?_)⟩)
    · simp [hae _ _ he]
    · unfold addrEncode at ha
      repeat' split at ha
      all_goals cases ha
      all_goals simp [outputOnly, avBytes, outMax]
  | aval =>
    cases h
    refine .inr (.inr ⟨by simp, onArg_ends (yields_map (fun e he => ?_) fun a _ => ?_)⟩)
    · simp [hav _ _ he]
    · simp
  | ahex =>
    cases h
    refine .inr (.inr ⟨by simp, onArg_ends (yields_map (fun e he => ?_) fun a ha => ?_)⟩)
    · simp [hah _ _ _ he]
    · unfold addrHex at ha
      split at ha <;> cases ha
      simp [outputOnly, hexText, outMax]
  | cdec n =>
    refine .inr (.inr ⟨by simp, onInput_ends (fun x _ => yields_map (fun e he => ?_) fun a _ => ?_) h⟩)
    · simp [hcd _ _ _ he]
    · simp
  | cenc =>
    cases h
    refine .inr (.inr ⟨by simp, onArg_ends (yields_map (fun e he => ?_) fun a ha => ?_)⟩)
    · simp [hce _ _ he]
    · unfold ctrlEncode at ha
      repeat' split at ha
      all_goals cases ha
      all_goals simp [outputOnly, outMax]
  | clen =>
    cases h
    exact .inr (.inr ⟨by simp, onArg_ends (by simp [Yields])⟩)
  | fenc n =>
    refine .inr (.inr ⟨by simp, onInput_ends (fun x _ => yields_map (fun e he => ?_) fun a ha => ?_) h⟩)
    · simp [hfe _ _ he]
    · obtain ⟨-, hle, rfl⟩ := frameEncode_ok ha
      simp [fencResult, outMax]; omega
  | fdec n =>
    refine .inr (.inr ⟨by simp, onInput_ends (fun x _ => yields_map (fun e he => ?_) fun a ha => ?_) h⟩)
    · rcases frameDecode_error he with rfl | rfl | rfl <;> decide
    · have := (frameDecode_ok ha).2.2.1
      simp only [this, outMax]; omega
  | rdfrm => cases h; exact .inl ⟨rfl, rfl⟩
  | wrfrm n =>
    change (match Memory.loadRange s.ibuf 0 n with | none => _ | some r => _) = _ at h
    split at h
    · cases h
    · rename_i r _
      split at h
      · cases h
        exact .inr (.inl ⟨n, r, _, rfl, ‹_›, rfl⟩)
      · cases h
        exact .inr (.inr ⟨by simp, .inl ⟨_, rfl, by simp [hfe _ _ ‹_›], by simp [hfe _ _ ‹_›]⟩⟩)

end Sys2Proof.Machine
end

