-- ==== Sys2Proof/Laws/Stream.lean ====
section
/-! SUPPORT. What a step of the framer or the transmitter can do, said once. -/

namespace Sys2Proof.Machine

/-- A reading framer with an event ready takes it. -/
theorem engineStep_reading {s : State} {e : RxEvent} {rest : List RxEvent}
    (h : isReading s.fstate = true) (hr : s.env.rx = e :: rest) :
    engineStep s = takeEvent e (withRx rest s) := by
  unfold engineStep
  rw [hr]
  cases hf : s.fstate <;> simp_all [isReading]

/-- A transmitter with an answer ready takes it. -/
theorem engineStep_sending {s : State} {a : TxAnswer} {rest : List TxAnswer}
    (h : s.fstate = .tx) (hr : s.env.tx = a :: rest) :
    engineStep s = takeAnswer a (withTx rest s) := by
  simp [engineStep, h, hr]

/-- With nothing to take, or in a state that takes nothing, the engine does nothing. -/
theorem engineStep_waiting {s : State}
    (h : (isReading s.fstate = true ∧ s.env.rx = []) ∨ (s.fstate = .tx ∧ s.env.tx = []) ∨
      s.fstate = .idle ∨ s.fstate = .done) : engineStep s = s := by
  rcases h with ⟨h, hr⟩ | ⟨h, hr⟩ | h | h
  · unfold engineStep
    rw [hr]
    cases hf : s.fstate <;> simp_all [isReading]
  all_goals simp [engineStep, *]

/-- What every engine step leaves alone: CMD, CMDLOST, ARG0, IBUF, and the environment's moves. -/
structure EngineFrame (s t : State) : Prop where
  cmd     : t.cmd = s.cmd
  cmdLost : t.cmdLost = s.cmdLost
  arg0    : t.arg0 = s.arg0
  ibuf    : t.ibuf = s.ibuf
  moves   : t.env.moves = s.env.moves
  host    : t.env.hostData = s.env.hostData
  draws   : t.env.draws = s.env.draws

/-- How an engine step ends: the command goes on with the old results, it ends with an error and the
old OBUF, or it ends with a success whose output has at most 255 bytes. -/
inductive EngineEnd (s t : State) : Prop where
  | goesOn (h : SameResults s t) (hb : t.busy = s.busy)
  | error (e : ErrorKind) (hc : t.code = .err e) (he : e ≠ .dataError ∧ e ≠ .authError)
      (ho : t.obuf = s.obuf) (hl : t.olen = 0) (hb : t.busy = false) (hf : t.fstate = .idle)
  | success (out : List Byte) (hc : t.code = .ok) (hn : out.length ≤ 255)
      (ho : t.obuf = Memory.storeRange s.obuf 0 out) (hl : t.olen = BitVec.ofNat 16 out.length)
      (hb : t.busy = false) (hf : t.fstate = .idle)

theorem SameResults.rfl' (s : State) : SameResults s s := ⟨rfl, rfl, rfl, rfl, rfl⟩

theorem finishErr_end (f : FState) (s s' : State) {e : ErrorKind}
    (he : e ≠ .dataError ∧ e ≠ .authError) (ho : s'.obuf = s.obuf) :
    EngineEnd s (finishErr f e s') :=
  .error e rfl he ho rfl rfl rfl

theorem finalize_end (s s' : State) (ho : s'.obuf = s.obuf) : EngineEnd s (finalize s') := by
  unfold finalize
  split
  · rename_i f hf
    obtain ⟨-, -, hr, -⟩ := frameDecode_ok hf
    have := f.l.isLt
    exact .success f.region rfl (by omega) (by simp [ho]) rfl rfl rfl
  · rename_i e he
    exact finishErr_end _ _ _ (by rcases frameDecode_error he with rfl | rfl | rfl <;> decide) ho

theorem takeByte_end (b : Byte) (s : State) : EngineEnd s (takeByte b s) := by
  unfold takeByte
  split
  · unfold seekStartByte
    split <;> exact .goesOn ⟨rfl, rfl, rfl, rfl, rfl⟩ rfl
  · unfold readLengthByte
    dsimp only
    split
    · exact finishErr_end _ _ _ (by decide) rfl
    · exact .goesOn ⟨rfl, rfl, rfl, rfl, rfl⟩ rfl
  · unfold readSecondStartByte
    split
    · exact .goesOn ⟨rfl, rfl, rfl, rfl, rfl⟩ rfl
    · exact finishErr_end _ _ _ (by decide) rfl
  · unfold readBodyByte
    dsimp only
    split
    · exact finalize_end _ _ rfl
    · exact .goesOn ⟨rfl, rfl, rfl, rfl, rfl⟩ rfl
  all_goals exact .goesOn (SameResults.rfl' s) rfl

theorem takeEvent_end (e : RxEvent) (s : State) : EngineEnd s (takeEvent e s) := by
  cases e with
  | byte b => exact takeByte_end b s
  | streamEnd => exact finishErr_end _ _ _ (by decide) rfl
  | fail => exact finishErr_end _ _ _ (by decide) rfl

theorem takeAnswer_end (a : TxAnswer) (s : State) : EngineEnd s (takeAnswer a s) := by
  cases a with
  | accept =>
    change EngineEnd s (acceptByte s)
    unfold acceptByte
    dsimp only
    split
    · exact .success [] rfl (by simp) rfl rfl rfl rfl
    · exact .goesOn ⟨rfl, rfl, rfl, rfl, rfl⟩ rfl
  | fail => exact .error _ rfl (by decide) rfl rfl rfl rfl

/-- How an engine step ends. -/
theorem engineStep_end (s : State) : EngineEnd s (engineStep s) := by
  have lift : ∀ {s' t : State}, EngineEnd s' t → s'.code = s.code → s'.res0 = s.res0 → s'.res1 = s.res1 →
      s'.olen = s.olen → s'.obuf = s.obuf → s'.busy = s.busy → EngineEnd s t := by
    intro s' t h h1 h2 h3 h4 h5 h6
    cases h with
    | goesOn h hb =>
      obtain ⟨a, b, c, d, e⟩ := h
      exact .goesOn ⟨a.trans h1, b.trans h2, c.trans h3, d.trans h4, e.trans h5⟩ (hb.trans h6)
    | error e hc he ho hl hb hf => exact .error e hc he (ho.trans h5) hl hb hf
    | success out hc hn ho hl hb hf => exact .success out hc hn (by rw [ho, h5]) hl hb hf
  unfold engineStep
  split
  all_goals first
    | exact .goesOn (SameResults.rfl' s) rfl
    | (split
       · exact .goesOn (SameResults.rfl' s) rfl
       · first
         | exact lift (takeEvent_end _ _) rfl rfl rfl rfl rfl rfl
         | exact lift (takeAnswer_end _ _) rfl rfl rfl rfl rfl rfl)

theorem finalize_frame (s s' : State) (h : EngineFrame s s') : EngineFrame s (finalize s') := by
  unfold finalize
  split <;> exact ⟨h.1, h.2, h.3, h.4, h.5, h.6, h.7⟩

theorem takeEvent_frame (e : RxEvent) (s s' : State) (h : EngineFrame s s') :
    EngineFrame s (takeEvent e s') := by
  obtain ⟨h1, h2, h3, h4, h5, h6, h7⟩ := h
  cases e with
  | byte b =>
    change EngineFrame s (takeByte b s')
    unfold takeByte
    split
    · unfold seekStartByte
      split <;> exact ⟨h1, h2, h3, h4, h5, h6, h7⟩
    · unfold readLengthByte
      dsimp only
      split <;> exact ⟨h1, h2, h3, h4, h5, h6, h7⟩
    · unfold readSecondStartByte
      split <;> exact ⟨h1, h2, h3, h4, h5, h6, h7⟩
    · unfold readBodyByte
      dsimp only
      split
      · exact finalize_frame _ _ ⟨h1, h2, h3, h4, h5, h6, h7⟩
      · exact ⟨h1, h2, h3, h4, h5, h6, h7⟩
    all_goals exact ⟨h1, h2, h3, h4, h5, h6, h7⟩
  | streamEnd => exact ⟨h1, h2, h3, h4, h5, h6, h7⟩
  | fail => exact ⟨h1, h2, h3, h4, h5, h6, h7⟩

theorem takeAnswer_frame (a : TxAnswer) (s s' : State) (h : EngineFrame s s') :
    EngineFrame s (takeAnswer a s') := by
  obtain ⟨h1, h2, h3, h4, h5, h6, h7⟩ := h
  cases a with
  | accept =>
    change EngineFrame s (acceptByte s')
    unfold acceptByte
    dsimp only
    split <;> exact ⟨h1, h2, h3, h4, h5, h6, h7⟩
  | fail => exact ⟨h1, h2, h3, h4, h5, h6, h7⟩

/-- What an engine step leaves alone. -/
theorem engineStep_frame (s : State) : EngineFrame s (engineStep s) := by
  unfold engineStep
  split
  all_goals first
    | exact ⟨rfl, rfl, rfl, rfl, rfl, rfl, rfl⟩
    | (split
       · exact ⟨rfl, rfl, rfl, rfl, rfl, rfl, rfl⟩
       · first
         | exact takeEvent_frame _ _ _ ⟨rfl, rfl, rfl, rfl, rfl, rfl, rfl⟩
         | exact takeAnswer_frame _ _ _ ⟨rfl, rfl, rfl, rfl, rfl, rfl, rfl⟩)

end Sys2Proof.Machine
end

