-- ==== Sys2Proof/Machine/HostSyntax.lean ====
section
/-! DEFINITION. The host syntax of spec/30_encoding.md R87 and R88: each line of a host program stands
for host operations, and each environment line queues RX events or TX answers. -/

namespace Sys2Proof.Machine

/-- A line of a host program (R87, R88). -/
inductive Line where
  /-- `wr ARG0, v`. -/
  | wrArg0 (v : Nat)
  /-- `ib i, b`. -/
  | ib (i : Nat) (b : Byte)
  /-- `cmd MNEMONIC len`. -/
  | cmd (c : Instr)
  /-- `cmdw w`: a raw command word. -/
  | cmdw (w : CmdWord)
  /-- `rd REG`. -/
  | rd (r : Reg)
  /-- `ob i`. -/
  | ob (i : Nat)
  /-- `ibs i, b0, ..., bk`. -/
  | ibs (i : Nat) (bs : List Byte)
  /-- `obs n`. -/
  | obs (n : Nat)
  /-- `wait`, cut off after `n` rounds: the number of rounds depends on the run (log 13). -/
  | wait (n : Nat)
  /-- `rx b b ...`, with `end` or `fail` or neither after the bytes. -/
  | rx (bs : List Byte) (last : List RxEvent)
  /-- `tx accept`, for `n` bytes (log 13). -/
  | txAccept (n : Nat)
  /-- `tx fail@k`: accept k bytes and then fail. -/
  | txFailAt (k : Nat)
deriving DecidableEq, Repr

/-- The host operations of a line, in order (R87, R88). In a round of `wait` the environment delivers
one event or answer, then the host reads STATUS (95_test_vectors.md, section 3). -/
def lineMoves : Line → List Move
  | .wrArg0 v => [.host (.write (regNumber .arg0) v)]
  | .ib i b => [.host (.writeIbuf i b)]
  | .cmd c => [.host (.write (regNumber .cmd) (encode c).toNat)]
  | .cmdw w => [.host (.write (regNumber .cmd) w.toNat)]
  | .rd r => [.host (.read (regNumber r))]
  | .ob i => [.host (.readObuf i)]
  | .ibs i bs => (bs.zipIdx i).map fun p => .host (.writeIbuf p.2 p.1)
  | .obs n => (List.range n).map fun i => .host (.readObuf i)
  | .wait n => (List.replicate n [Move.engine, Move.host (.read (regNumber .status))]).flatten
  | .rx _ _ | .txAccept _ | .txFailAt _ => []

/-- The RX events a line appends. -/
def lineRx : Line → List RxEvent
  | .rx bs last => bs.map RxEvent.byte ++ last
  | _ => []

/-- The TX answers a line appends. -/
def lineTx : Line → List TxAnswer
  | .txAccept n => List.replicate n .accept
  | .txFailAt k => List.replicate k .accept ++ [.fail]
  | _ => []

/-- A host program is put before a machine: its operations become the moves, its environment lines the
queues. -/
def withProgram (ls : List Line) (s : State) : State :=
  { s with
    env := { s.env with
      moves := s.env.moves ++ ls.flatMap lineMoves
      rx := s.env.rx ++ ls.flatMap lineRx
      tx := s.env.tx ++ ls.flatMap lineTx } }

end Sys2Proof.Machine
end

