-- ==== Sys2Proof/Laws/Step.lean ====
section
/-! SUPPORT. What a step can do, said once, and runs of steps. -/

namespace Sys2Proof.Machine

theorem step_of_no_move {s : State} (h : s.env.moves = []) : step s = .next (engineStep s) := by
  simp [step, h]

theorem step_of_move {s : State} {m : Move} {rest : List Move} (h : s.env.moves = m :: rest) :
    step s = perform m (withMoves rest s) := by
  simp [step, h]

/-- A step that answers a next state is a step of the engine, or the next move. -/
theorem step_cases {s t : State} (h : step s = .next t) :
    (s.env.moves = [] ∧ t = engineStep s) ∨
      ∃ m rest, s.env.moves = m :: rest ∧ perform m (withMoves rest s) = .next t := by
  rcases hm : s.env.moves with _ | ⟨m, rest⟩
  · rw [step_of_no_move hm] at h
    cases h
    exact .inl ⟨rfl, rfl⟩
  · rw [step_of_move hm] at h
    exact .inr ⟨m, rest, rfl, h⟩

/-- Issuing a word: it is no command and ends with CommandError, or it runs as its command. -/
theorem issue_cases {w : CmdWord} {s t : State} (h : issue w s = .next t) :
    ((∃ e, decode w = .error e) ∧ t = errorCompletion .commandError s) ∨
      ∃ i, decode w = .ok i ∧ exec i s = .next t := by
  unfold issue at h
  split at h
  · exact .inr ⟨_, ‹_›, h⟩
  · cases h
    exact .inl ⟨⟨_, ‹_›⟩, rfl⟩

/-- A move that answers a next state, by party and operation. -/
theorem perform_cases {m : Move} {s t : State} (h : perform m s = .next t) :
    (m = .engine ∧ t = engineStep s) ∨ (m = .reset ∧ t = applyReset s) ∨
    (∃ v, m = .host (.write 0 v) ∧ s.busy = true ∧ t = loseCmd s) ∨
    (∃ v, m = .host (.write 0 v) ∧ s.busy = false ∧
      issue (BitVec.ofNat 32 v) (acceptCmd (BitVec.ofNat 32 v) s) = .next t) ∨
    (∃ r v, m = .host (.write r v) ∧ r ≠ 0 ∧ t = writeRegister r v s) ∨
    (∃ r, m = .host (.read r) ∧ t = giveHost (readRegister s r) s) ∨
    (∃ i b, m = .host (.writeIbuf i b) ∧ t = writeIbuf i b s) ∨
    (∃ i, m = .host (.readIbuf i) ∧ t = readIbuf i s) ∨
    (∃ i v, m = .host (.readObuf i) ∧ t = giveHost v s) := by
  cases m with
  | engine => cases h; exact .inl ⟨rfl, rfl⟩
  | reset => cases h; exact .inr (.inl ⟨rfl, rfl⟩)
  | host op =>
    cases op with
    | write r v =>
      change (if r = 0 then _ else _) = _ at h
      split at h
      · subst_vars
        unfold writeCmd at h
        split at h
        · rename_i hb
          cases h
          exact .inr (.inr (.inl ⟨v, rfl, hb, rfl⟩))
        · rename_i hb
          exact .inr (.inr (.inr (.inl ⟨v, rfl, by simpa using hb, h⟩)))
      · cases h
        exact .inr (.inr (.inr (.inr (.inl ⟨r, v, rfl, ‹_›, rfl⟩))))
    | read r => cases h; exact .inr (.inr (.inr (.inr (.inr (.inl ⟨r, rfl, rfl⟩)))))
    | writeIbuf i b => cases h; exact .inr (.inr (.inr (.inr (.inr (.inr (.inl ⟨i, b, rfl, rfl⟩))))))
    | readIbuf i =>
      cases h; exact .inr (.inr (.inr (.inr (.inr (.inr (.inr (.inl ⟨i, rfl, rfl⟩)))))))
    | readObuf i =>
      change readObuf i s = _ at h
      rcases readObuf_cases i s with ⟨-, h'⟩ | ⟨-, b, -, h'⟩ | ⟨-, -, h'⟩ <;> rw [h'] at h <;> cases h
      · exact .inr (.inr (.inr (.inr (.inr (.inr (.inr (.inr ⟨i, _, rfl, rfl⟩)))))))
      · exact .inr (.inr (.inr (.inr (.inr (.inr (.inr (.inr ⟨i, _, rfl, rfl⟩)))))))

@[simp] theorem runs_zero (s : State) : runs 0 s = .next s := rfl

theorem runs_succ {s t : State} (h : step s = .next t) (n : Nat) : runs (n + 1) s = runs n t := by
  simp [runs, h]

/-- A run is cut in two anywhere. -/
theorem runs_add {n : Nat} {s t : State} (h : runs n s = .next t) (k : Nat) :
    runs (n + k) s = runs k t := by
  induction n generalizing s with
  | zero => cases h; simp
  | succ n ih =>
    rw [Nat.add_right_comm]
    simp only [runs] at h ⊢
    split at h
    · exact ih h
    all_goals cases h

/-- The run is the host interface's own. -/
theorem runs_eq_core (n : Nat) (s : State) : runs n s = Host.Core.run Sys2Proof.core n s := by
  induction n generalizing s with
  | zero => rfl
  | succ n ih =>
    rcases h : step s with t | f | r
    · have hc : Sys2Proof.core.step s = .next t := h
      simp only [runs, Host.Core.run, h, hc]
      exact ih t
    · have hc : Sys2Proof.core.step s = .fault f := h
      simp only [runs, Host.Core.run, h, hc]
      rfl
    · have hc : Sys2Proof.core.step s = .refused r := h
      simp only [runs, Host.Core.run, h, hc]
      rfl

end Sys2Proof.Machine
end

