-- ==== Sys2Proof/Laws/Codec.lean ====
section
/-! SUPPORT. The bit slices of the operands and the codecs as numbers: one lemma per function. -/

namespace Sys2Proof.Machine

@[simp] theorem hiNibble_toNat (b : Byte) : (hiNibble b).toNat = b.toNat / 16 := by
  have := b.isLt
  simp only [hiNibble, BitVec.extractLsb'_toNat, Nat.shiftRight_eq_div_pow]
  omega

@[simp] theorem loNibble_toNat (b : Byte) : (loNibble b).toNat = b.toNat % 16 := by
  simp [loNibble, BitVec.extractLsb'_toNat]

theorem isValidBCD_iff (b : Byte) : isValidBCD b = true ↔ IsBcd b.toNat := by
  simp [isValidBCD, IsBcd]

theorem bcdVal_eq (b : Byte) : bcdVal b = b.toNat / 16 * 10 + b.toNat % 16 := by
  simp [bcdVal]

/-- Two nibbles side by side, as a number. -/
theorem nibbles_toNat (h l : BitVec 4) : (h ++ l).toNat = h.toNat * 16 + l.toNat := by
  have := l.isLt
  rw [BitVec.toNat_append, ← Nat.shiftLeft_add_eq_or_of_lt (by omega), Nat.shiftLeft_eq]

theorem hiNibble_append (h l : BitVec 4) : hiNibble (h ++ l) = h := by
  apply BitVec.eq_of_toNat_eq
  have := l.isLt
  rw [hiNibble_toNat, nibbles_toNat]
  omega

theorem loNibble_append (h l : BitVec 4) : loNibble (h ++ l) = l := by
  apply BitVec.eq_of_toNat_eq
  have := l.isLt
  rw [loNibble_toNat, nibbles_toNat]
  omega

theorem nibbles_eta (b : Byte) : hiNibble b ++ loNibble b = b := by
  apply BitVec.eq_of_toNat_eq
  rw [nibbles_toNat, hiNibble_toNat, loNibble_toNat]
  omega

theorem bcdByte_toNat {v : Nat} (h : v ≤ 99) : (bcdByte v).toNat = bcdNat v := by
  rw [bcdByte, nibbles_toNat, BitVec.toNat_ofNat, BitVec.toNat_ofNat, bcdNat]
  omega

theorem isDigit_iff (b : Byte) : isDigit b = true ↔ 0x30 ≤ b.toNat ∧ b.toNat ≤ 0x39 := by
  simp [isDigit]

theorem digitOf_toNat {b : Byte} (h : isDigit b = true) : (digitOf b).toNat = b.toNat - 0x30 := by
  rw [isDigit_iff] at h
  simp only [digitOf, BitVec.toNat_setWidth, BitVec.toNat_sub, BitVec.toNat_ofNat,
    BitVec.ofNat_eq_ofNat]
  omega

theorem asciiOf_toNat (d : BitVec 4) : (asciiOf d).toNat = 0x30 + d.toNat := by
  have := d.isLt
  simp only [asciiOf, BitVec.toNat_add, BitVec.toNat_setWidth, BitVec.toNat_ofNat,
    BitVec.ofNat_eq_ofNat]
  omega

theorem byteArgOk_iff (a : Word64) : byteArgOk a = true ↔ a.toNat < 256 := by
  have := a.isLt
  simp only [byteArgOk, beq_iff_eq, ← BitVec.toNat_inj, BitVec.extractLsb'_toNat,
    Nat.shiftRight_eq_div_pow, BitVec.ofNat_eq_ofNat, BitVec.toNat_ofNat]
  omega

theorem byteArg_toNat (a : Word64) : (byteArg a).toNat = a.toNat % 256 := by
  simp [byteArg, BitVec.extractLsb'_toNat]

theorem cvOk_iff (a : Word64) : cvOk a = true ↔ a.toNat < 65536 := by
  have := a.isLt
  simp only [cvOk, beq_iff_eq, ← BitVec.toNat_inj, BitVec.extractLsb'_toNat,
    Nat.shiftRight_eq_div_pow, BitVec.ofNat_eq_ofNat, BitVec.toNat_ofNat]
  omega

theorem cvFirst_toNat (a : Word64) : (cvFirst a).toNat = a.toNat % 256 := by
  simp [cvFirst, BitVec.extractLsb'_toNat]

theorem cvSplitCount_toNat (a : Word64) : (cvSplitCount a).toNat = a.toNat / 256 % 256 := by
  simp [cvSplitCount, BitVec.extractLsb'_toNat, Nat.shiftRight_eq_div_pow]

theorem splitFlag_eq (b : Byte) : splitFlag b = decide (b.toNat / 64 % 2 = 1) := by
  simp [splitFlag, BitVec.getLsbD, Nat.testBit_eq_decide_div_mod_eq]

/-- Bytes side by side under zeros: CV and FR as numbers. -/
theorem cvOf_toNat (sc c0 : Byte) : (cvOf sc c0).toNat = sc.toNat * 256 + c0.toNat := by
  have := sc.isLt
  have := c0.isLt
  simp only [cvOf, BitVec.toNat_append, BitVec.ofNat_eq_ofNat, BitVec.toNat_ofNat]
  rw [← Nat.shiftLeft_add_eq_or_of_lt (by omega), ← Nat.shiftLeft_add_eq_or_of_lt (by omega)]
  simp only [Nat.shiftLeft_eq]
  omega

theorem frOf_toNat (l cs : Byte) : (frOf l cs).toNat = l.toNat + 256 * cs.toNat := by
  have h := cvOf_toNat cs l
  simp only [cvOf, frOf] at *
  omega

theorem avTag_eq (av : Word64) : avTag av = decide (av.toNat / 2 ^ 40 % 2 = 1) := by
  simp [avTag, BitVec.getLsbD, Nat.testBit_eq_decide_div_mod_eq]

theorem avByte_toNat (av : Word64) (i : Nat) : (avByte av i).toNat = addrByteNat av.toNat i := by
  simp [avByte, addrByteNat, BitVec.extractLsb'_toNat, Nat.shiftRight_eq_div_pow, pow_mul]

theorem avStation_toNat (av : Word64) : (avStation av).toNat = av.toNat % 65536 := by
  simp [avStation, BitVec.extractLsb'_toNat]

theorem avOk_iff (av : Word64) : avOk av = true ↔ AddrFormed av.toNat := by
  have := av.isLt
  have h0 : (avByte av 0 == 0) = true ↔ av.toNat / 2 ^ 32 % 256 = 0 := by
    rw [beq_iff_eq, ← BitVec.toNat_inj, avByte_toNat]
    simp [addrByteNat]
  have h1 : (av.extractLsb' 41 23 == 0) = true ↔ av.toNat / 2 ^ 41 % 2 ^ 23 = 0 := by
    rw [beq_iff_eq, ← BitVec.toNat_inj]
    simp [BitVec.extractLsb'_toNat, Nat.shiftRight_eq_div_pow]
  simp only [avOk, AddrFormed, Bool.and_eq_true, Bool.or_eq_true, h0, h1, avTag_eq,
    Bool.not_eq_true', decide_eq_false_iff_not]
  omega

theorem avOf_toNat (tag : Bool) (a0 a1 a2 a3 a4 : Byte) :
    (avOf tag a0 a1 a2 a3 a4).toNat =
      (if tag then 2 ^ 40 else 0) + wireNat [a0, a1, a2, a3, a4] := by
  have := a0.isLt
  have := a1.isLt
  have := a2.isLt
  have := a3.isLt
  have := a4.isLt
  simp only [avOf, BitVec.toNat_append, BitVec.ofNat_eq_ofNat, BitVec.toNat_ofNat,
    BitVec.toNat_ofBool, wireNat, List.foldl]
  rw [← Nat.shiftLeft_add_eq_or_of_lt (by omega), ← Nat.shiftLeft_add_eq_or_of_lt (by omega),
    ← Nat.shiftLeft_add_eq_or_of_lt (by omega), ← Nat.shiftLeft_add_eq_or_of_lt (by omega),
    ← Nat.shiftLeft_add_eq_or_of_lt (by omega), ← Nat.shiftLeft_add_eq_or_of_lt (by cases tag <;> simp)]
  cases tag <;> simp only [Nat.shiftLeft_eq, Bool.toNat_true, Bool.toNat_false, if_true,
    Bool.false_eq_true, if_false] <;> omega

/-- What a buffer holds is what a range read answers. -/
theorem loadRange_of_holds {m : Memory} {x : List Byte} (h : Holds m x) :
    Memory.loadRange m 0 x.length = some x :=
  Memory.loadRange_eq_some.2 ⟨rfl, fun i hi => by simpa using h i hi⟩

/-- A completion that writes its output is `Stored`. -/
theorem stored_complete (r : Result) (s : State) :
    Stored s (complete r s) r.out r.res0 r.res1 :=
  ⟨rfl, fun a => load_complete r s a⟩

/-- A completion without output is `succeeded`. -/
theorem complete_eq_succeeded (r0 : Word64) (r1 : BitVec 32) (s : State) :
    complete { res0 := r0, res1 := r1 } s = succeeded s r0 r1 := rfl

theorem errorCompletion_eq_failed (e : ErrorKind) (s : State) : errorCompletion e s = failed s e := rfl

/-- The opcode map of the statements is the decoder's. -/
theorem opTable_eq : opTable = opRows.map fun r => (r.op.toNat, r.lenMax) := by decide

/-- A row of the opcode map is the one the decoder finds for its opcode. -/
theorem find_row {r : OpRow} (h : r ∈ opRows) : opRows.find? (fun q => q.op == r.op) = some r := by
  simp only [opRows, List.mem_cons, List.not_mem_nil, or_false] at h
  rcases h with rfl | rfl | rfl | rfl | rfl | rfl | rfl | rfl | rfl | rfl | rfl | rfl | rfl | rfl |
    rfl | rfl | rfl | rfl | rfl <;> rfl

/-- Every row of the opcode map issues its command, up to its LENMAX. -/
theorem encoded_of_row {r : OpRow} (h : r ∈ opRows) : Encoded r.op.toNat r.lenMax r.make := by
  intro n hn s
  have ho := r.op.isLt
  have hw : (BitVec.ofNat 32 (r.op.toNat + n * 65536)).toNat = r.op.toNat + n * 65536 := by
    rw [BitVec.toNat_ofNat]; omega
  generalize BitVec.ofNat 32 (r.op.toNat + n * 65536) = w at hw ⊢
  have h1 : opField w = r.op := BitVec.eq_of_toNat_eq (by rw [opField_toNat, hw]; omega)
  have h2 : (lenField w).toNat = n := by rw [lenField_toNat, hw]; omega
  have h3 : reservedZero w = true := by rw [reservedZero_iff, hw]; omega
  refine ⟨fun hle => ?_, fun hlt => ?_⟩
  · simp [issue, decode, h1, find_row h, h3, h2, hle]
  · simp [issue, decode, h1, find_row h, h3, h2, Nat.not_le.2 hlt, errorCompletion_eq_failed]

end Sys2Proof.Machine
end

