-- ==== Sys2Proof/Laws/Fairness.lean ====
section
/-! SUPPORT. How near its end a stream command is, and what a delivery of the environment leaves alone:
what a claim about runs with fair ports (spec/70_reset_and_hazards.md R269) is made of. -/

namespace Sys2Proof.Machine

@[simp] theorem deliver_fstate (d : Delivery) (s : State) : (deliver d s).fstate = s.fstate := rfl
@[simp] theorem deliver_busy (d : Delivery) (s : State) : (deliver d s).busy = s.busy := rfl
@[simp] theorem deliver_moves (d : Delivery) (s : State) :
    (deliver d s).env.moves = s.env.moves ++ d.moves := rfl
@[simp] theorem deliver_rx (d : Delivery) (s : State) : (deliver d s).env.rx = s.env.rx ++ d.rx := rfl
@[simp] theorem deliver_tx (d : Delivery) (s : State) : (deliver d s).env.tx = s.env.tx ++ d.tx := rfl
@[simp] theorem eventsLeft_deliver (d : Delivery) (s : State) :
    eventsLeft (deliver d s) = eventsLeft s := rfl

/-- The invariant speaks of the core alone, so it does not see the environment change. -/
theorem State.Inv.with_env {s : State} (h : s.Inv) (e : Env) : { s with env := e }.Inv := by
  obtain ⟨h1, h2, h3, h4, h5, h6, h7, h8⟩ := h
  exact ⟨h1, h2, h3, h4, h5, h6, h7, h8⟩

theorem deliver_inv (d : Delivery) {s : State} (h : s.Inv) : (deliver d s).Inv := h.with_env _

/-- A command that is not seeking a start marker takes at most 260 events or answers, a read 259. -/
theorem eventsLeft_le {s : State} (h : s.Inv) (hf : s.fstate ≠ .seekStart) :
    eventsLeft s ≤ 260 ∧ (isReading s.fstate = true → eventsLeft s ≤ 259) := by
  have he := h.engine_ok
  have ht := h.txbuf_size
  have hl := s.fl.isLt
  unfold engineOk at he
  unfold eventsLeft
  cases hs : s.fstate <;> simp only [hs, isReading] at he hf ⊢
  · simp
  · simp at hf
  · simp
  · constructor <;> [skip; intro] <;> omega
  · have h3 := congrArg List.length he.1
    simp only [List.length_take, List.length_cons, List.length_nil] at h3
    constructor <;> [skip; intro] <;> omega
  · simp
    omega

/-- A read takes an event: the command ends, comes nearer its end, or drops a noise byte. -/
theorem takeEvent_progress {s : State} (e : RxEvent) (h : s.Inv) (hr : isReading s.fstate = true) :
    (takeEvent e s).fstate = .idle ∨ eventsLeft (takeEvent e s) < eventsLeft s ∨
      (s.fstate = .seekStart ∧ isNoise e = true ∧ (takeEvent e s).fstate = .seekStart) := by
  have he := h.engine_ok
  cases e with
  | streamEnd => exact .inl rfl
  | fail => exact .inl rfl
  | byte b =>
    simp only [takeEvent, takeByte]
    cases hf : s.fstate <;> simp only [hf, isReading, Bool.false_eq_true] at hr
    · by_cases hb : b = Config.start
      · exact .inr (.inl (by simp [seekStartByte, hb, eventsLeft, hf]))
      · exact .inr (.inr ⟨rfl, by simp [isNoise, hb], by simp [seekStartByte, hb, countByte, hf]⟩)
    · have := b.isLt
      by_cases hb : b = 0
      · exact .inl (by simp [readLengthByte, hb, finishErr])
      · exact .inr (.inl (by simp only [readLengthByte, if_neg hb, eventsLeft, hf]; omega))
    · have := s.fl.isLt
      by_cases hb : b = Config.start
      · refine .inr (.inl ?_)
        simp only [readSecondStartByte, if_pos hb, eventsLeft, hf, BitVec.toNat_add,
          BitVec.toNat_setWidth, BitVec.ofNat_eq_ofNat, BitVec.toNat_ofNat]
        omega
      · exact .inl (by simp [readSecondStartByte, hb, finishErr])
    · by_cases h1 : s.frem - 1 = 0
      · refine .inl ?_
        simp only [readBodyByte, if_pos h1, finalize]
        split <;> rfl
      · refine .inr (.inl ?_)
        have h0 : s.frem ≠ 0 := by simp only [engineOk, hf] at he; exact he.2.2.1
        have : 0 < s.frem.toNat := Nat.pos_of_ne_zero fun hz =>
          h0 (BitVec.eq_of_toNat_eq (by simpa using hz))
        have hfr := s.frem.isLt
        have hs : readBodyByte b s = { keepByte b s with frem := s.frem - 1 } := if_neg h1
        rw [hs]
        simp only [eventsLeft, keepByte, countByte, hf, BitVec.toNat_sub, BitVec.ofNat_eq_ofNat,
          BitVec.toNat_ofNat]
        omega

/-- A write takes an answer: the command ends or comes nearer its end. -/
theorem takeAnswer_progress {s : State} (a : TxAnswer) (h : s.Inv) (ht : s.fstate = .tx) :
    (takeAnswer a s).fstate = .idle ∨
      ((takeAnswer a s).fstate = .tx ∧ eventsLeft (takeAnswer a s) < eventsLeft s) := by
  cases a with
  | fail => exact .inl rfl
  | accept =>
    have he := h.engine_ok
    have hl := h.txbuf_size
    simp only [engineOk, ht] at he
    change (acceptByte s).fstate = .idle ∨ ((acceptByte s).fstate = .tx ∧ _)
    have hn : (s.txpos + 1).toNat = s.txpos.toNat + 1 := by
      simp only [BitVec.toNat_add, BitVec.ofNat_eq_ofNat, BitVec.toNat_ofNat]
      omega
    by_cases hd : (s.txpos + 1).toNat = s.txbuf.length
    · have hs : acceptByte s =
          complete { res0 := sentFr (sendByte s), res1 := (sendByte s).txpos.setWidth 32 } (sendByte s) :=
        if_pos hd
      exact .inl (by rw [hs]; rfl)
    · have hs : acceptByte s = sendByte s := if_neg hd
      refine .inr ⟨by rw [hs]; exact ht, ?_⟩
      change eventsLeft (acceptByte s) < _
      rw [hs]
      simp only [eventsLeft, sendByte, ht, hn]
      omega

/-- A step of the engine with an event or an answer ready ends the command, brings it nearer its end, or
drops a noise byte. -/
theorem engineStep_progress {s : State} (h : s.Inv) :
    (∀ e rest, isReading s.fstate = true → s.env.rx = e :: rest →
      (engineStep s).fstate = .idle ∨ eventsLeft (engineStep s) < eventsLeft s ∨
        (s.fstate = .seekStart ∧ isNoise e = true ∧ (engineStep s).fstate = .seekStart)) ∧
    (∀ a rest, s.fstate = .tx → s.env.tx = a :: rest →
      (engineStep s).fstate = .idle ∨
        ((engineStep s).fstate = .tx ∧ eventsLeft (engineStep s) < eventsLeft s)) := by
  refine ⟨fun e rest hr hx => ?_, fun a rest ht hx => ?_⟩
  · rw [engineStep_reading hr hx]
    exact takeEvent_progress e (h.with_env _ : (withRx rest s).Inv) hr
  · rw [engineStep_sending ht hx]
    exact takeAnswer_progress a (h.with_env _ : (withTx rest s).Inv) ht

/-- In a step that is not the engine's a stream command stands still, or reset ends it. -/
theorem step_elsewhere {s t : State} (hb : s.busy = true) (he : ¬ engineTurn s) (h : step s = .next t) :
    (t.fstate = .idle ∧ t.busy = false) ∨ (t.fstate = s.fstate ∧ eventsLeft t = eventsLeft s) := by
  rcases step_cases h with ⟨hm, -⟩ | ⟨m, rest, hm, h⟩
  · exact absurd (.inl hm) he
  rcases perform_cases h with ⟨rfl, -⟩ | ⟨-, rfl⟩ | ⟨v, -, -, rfl⟩ | ⟨v, -, hf, -⟩ | ⟨r, v, -, -, rfl⟩ |
    ⟨r, -, rfl⟩ | ⟨i, b, -, rfl⟩ | ⟨i, -, rfl⟩ | ⟨i, v, -, rfl⟩
  · exact absurd (.inr (by simp [hm])) he
  · exact .inl ⟨rfl, rfl⟩
  · exact .inr ⟨rfl, rfl⟩
  · exact absurd (hb.symm.trans hf) (by decide)
  · by_cases hr : r = 2
    · subst hr
      exact .inr ⟨rfl, rfl⟩
    · rw [writeRegister_of_ne _ _ _ hr]
      exact .inr ⟨rfl, rfl⟩
  · exact .inr ⟨rfl, rfl⟩
  · unfold writeIbuf
    split <;> exact .inr ⟨rfl, rfl⟩
  · unfold readIbuf
    split
    · split <;> exact .inr ⟨rfl, rfl⟩
    · exact .inr ⟨rfl, rfl⟩
  · exact .inr ⟨rfl, rfl⟩

/-- A step that is the engine's is its step, with the move taken off the list. -/
theorem step_of_engineTurn {s : State} (h : engineTurn s) :
    ∃ ms, step s = .next (engineStep { s with env := { s.env with moves := ms } }) := by
  rcases h with h | h
  · exact ⟨[], by rw [step_of_no_move h]; rw [← h]⟩
  · rcases hm : s.env.moves with _ | ⟨m, rest⟩
    · simp [hm] at h
    · obtain rfl : m = .engine := by simpa [hm] using h
      exact ⟨rest, by rw [step_of_move hm]; rfl⟩

end Sys2Proof.Machine
end

