-- ==== Sys2Proof/Laws/PerInstr.lean ====
section
/-! SUPPORT. One family of facts about every command as syntax: the fields of its word. -/

namespace Sys2Proof.Laws.WordFields

/-- The word of a command has its opcode in 7:0, its reserved bits 0, and LEN modulo 1024 in 25:16
(spec/30_encoding.md R70). -/
def Statement (i : Instr) : Prop :=
  opField (encode i) = opcode i ∧ reservedZero (encode i) = true ∧
    (lenField (encode i)).toNat = i.len % 1024

theorem of_encode (i : Instr) : Statement i := by
  have h := encode_toNat i
  have := (opcode i).isLt
  refine ⟨BitVec.eq_of_toNat_eq ?_, (reservedZero_iff _).2 ⟨?_, ?_⟩, ?_⟩
  · rw [opField_toNat, h]; omega
  · rw [h]; omega
  · rw [h]; omega
  · rw [lenField_toNat, h]; omega

theorem tobcd : Statement .tobcd := of_encode _
theorem frombcd : Statement .frombcd := of_encode _
theorem isbcd : Statement .isbcd := of_encode _
theorem encdig (n : Nat) : Statement (.encdig n) := of_encode _
theorem decdig (n : Nat) : Statement (.decdig n) := of_encode _
theorem encint (n : Nat) : Statement (.encint n) := of_encode _
theorem decint (n : Nat) : Statement (.decint n) := of_encode _
theorem csum (n : Nat) : Statement (.csum n) := of_encode _
theorem adec (n : Nat) : Statement (.adec n) := of_encode _
theorem aenc : Statement .aenc := of_encode _
theorem aval : Statement .aval := of_encode _
theorem ahex : Statement .ahex := of_encode _
theorem cdec (n : Nat) : Statement (.cdec n) := of_encode _
theorem cenc : Statement .cenc := of_encode _
theorem clen : Statement .clen := of_encode _
theorem fenc (n : Nat) : Statement (.fenc n) := of_encode _
theorem fdec (n : Nat) : Statement (.fdec n) := of_encode _
theorem rdfrm : Statement .rdfrm := of_encode _
theorem wrfrm (n : Nat) : Statement (.wrfrm n) := of_encode _

end Sys2Proof.Laws.WordFields
end

