-- ==== Sys2Proof/Tests/Slice0.lean ====
section
/-! SUPPORT. The smoke of WellFormed, the decoding of written-out words, at most two tests for each
command (expected values from spec/95_test_vectors.md, sections 1 to 3), and a state or operands that
meet the hypotheses of each statement. -/

namespace Sys2Proof.Tests

open Sys2Proof.Machine

/-- Bytes from numbers. -/
def bytes (l : List Nat) : List Byte := l.map (BitVec.ofNat 8)

/-- The machine after reset with a value in ARG0, bytes from IBUF index 0 on, and moves to come. -/
def machine (arg0 : Nat) (ib : List Nat) (moves : List Move := []) : State :=
  { State.reset with
    arg0 := BitVec.ofNat 64 arg0
    ibuf := Memory.storeRange [] 0 (bytes ib)
    env := { Env.quiet with moves := moves } }

/-- A read in progress, with RX events to come. -/
def reading (f : FState) (fbuf : List Nat) (fl frem fcnt : Nat) (rx : List RxEvent) : State :=
  { State.reset with
    busy := true, fstate := f, fbuf := bytes fbuf, fl := BitVec.ofNat 8 fl
    frem := BitVec.ofNat 9 frem, fcnt := BitVec.ofNat 32 fcnt, env := { Env.quiet with rx := rx } }

/-- The frame of the region 01 02 (95_test_vectors.md, section 1.4). -/
def frame12 : List Nat := [0x68, 2, 0x68, 1, 2, 0x5C, 0x16]

/-- A write of that frame in progress, with `pos` bytes out and TX answers to come. -/
def sending (pos : Nat) (tx : List TxAnswer) : State :=
  { State.reset with
    busy := true, fstate := .tx, txbuf := bytes frame12, txpos := BitVec.ofNat 9 pos
    env := { Env.quiet with tx := tx } }

/-- CODE, RES0, RES1 and the output bytes after a step, as numbers. -/
def ended (o : Host.Outcome State Fault Refusal) : Option (Nat × Nat × Nat × List Nat) :=
  match o with
  | .next t =>
    some ((codeBits t.code).toNat, t.res0.toNat, t.res1.toNat,
      (List.range t.olen.toNat).map fun i => ((Memory.load t.obuf i).getD 0).toNat)
  | .fault _ | .refused _ => none

/-! ## WellFormed -/

theorem test_wellFormed_refuses_long_512 :
    ¬ (Instr.encdig 513).WellFormed ∧ ¬ (Instr.csum 513).WellFormed ∧ ¬ (Instr.adec 513).WellFormed ∧
    ¬ (Instr.cdec 513).WellFormed ∧ ¬ (Instr.fenc 513).WellFormed ∧ ¬ (Instr.fdec 513).WellFormed ∧
    ¬ (Instr.wrfrm 513).WellFormed := by decide

theorem test_wellFormed_refuses_long_256 : ¬ (Instr.decdig 257).WellFormed := by decide

theorem test_wellFormed_refuses_long_8 :
    ¬ (Instr.encint 9).WellFormed ∧ ¬ (Instr.decint 9).WellFormed := by decide

theorem test_wellFormed_accepts_limits :
    (Instr.encdig 512).WellFormed ∧ (Instr.decdig 256).WellFormed ∧ (Instr.encint 8).WellFormed ∧
    Instr.rdfrm.WellFormed := by decide

/-! ## Decoding: 31:26 zero, LEN, 15:8 zero, OP (R70, R71) -/

theorem test_decode_bcd :
    decode 0b000000_0000000000_00000000_0001_0000#32 = .ok .tobcd ∧
    decode 0b000000_0000000000_00000000_0001_0001#32 = .ok .frombcd ∧
    decode 0b000000_0000000000_00000000_0001_0010#32 = .ok .isbcd ∧
    decode 0b000000_1000000000_00000000_0001_0011#32 = .ok (.encdig 512) ∧
    decode 0b000000_0100000000_00000000_0001_0100#32 = .ok (.decdig 256) ∧
    decode 0b000000_0000001000_00000000_0001_0101#32 = .ok (.encint 8) ∧
    decode 0b000000_0000000011_00000000_0001_0110#32 = .ok (.decint 3) :=
  ⟨rfl, rfl, rfl, rfl, rfl, rfl, rfl⟩

theorem test_decode_csum : decode 0b000000_0000001000_00000000_0010_0000#32 = .ok (.csum 8) := rfl

theorem test_decode_address :
    decode 0b000000_0000000101_00000000_0011_0000#32 = .ok (.adec 5) ∧
    decode 0b000000_0000000000_00000000_0011_0001#32 = .ok .aenc ∧
    decode 0b000000_0000000000_00000000_0011_0010#32 = .ok .aval ∧
    decode 0b000000_0000000000_00000000_0011_0011#32 = .ok .ahex := ⟨rfl, rfl, rfl, rfl⟩

theorem test_decode_control :
    decode 0b000000_0000000010_00000000_0100_0000#32 = .ok (.cdec 2) ∧
    decode 0b000000_0000000000_00000000_0100_0001#32 = .ok .cenc ∧
    decode 0b000000_0000000000_00000000_0100_0010#32 = .ok .clen := ⟨rfl, rfl, rfl⟩

theorem test_decode_frame :
    decode 0b000000_0011111111_00000000_0101_0000#32 = .ok (.fenc 255) ∧
    decode 0b000000_0100000100_00000000_0101_0001#32 = .ok (.fdec 260) := ⟨rfl, rfl⟩

theorem test_decode_stream :
    decode 0b000000_0000000000_00000000_0110_0000#32 = .ok .rdfrm ∧
    decode 0b000000_0000000111_00000000_0110_0001#32 = .ok (.wrfrm 7) := ⟨rfl, rfl⟩

/-- The words of 95_test_vectors.md, section 2.1. -/
theorem test_decode_rejects :
    decode 0x00000000#32 = .error .unassignedOp ∧ decode 0x000000FF#32 = .error .unassignedOp ∧
    decode 0x00000017#32 = .error .unassignedOp ∧ decode 0x00000062#32 = .error .unassignedOp ∧
    decode 0x00000110#32 = .error .reservedBits ∧ decode 0x04000020#32 = .error .reservedBits ∧
    decode 0x00010010#32 = .error .lenTooLong ∧ decode 0x00010060#32 = .error .lenTooLong ∧
    decode 0x00090015#32 = .error .lenTooLong ∧ decode 0x01010014#32 = .error .lenTooLong ∧
    decode 0x02010020#32 = .error .lenTooLong :=
  ⟨rfl, rfl, rfl, rfl, rfl, rfl, rfl, rfl, rfl, rfl, rfl⟩

theorem test_decodeTableWord :
    decodeTableWord 32 0x00070061 = some (.wrfrm 7) ∧ decodeTableWord 32 0 = none := ⟨rfl, rfl⟩

/-! ## The commands -/

theorem test_tobcd : ended (exec .tobcd (machine 45 [])) = some (0, 0x45, 0, []) := by decide
theorem test_tobcd_100 : ended (exec .tobcd (machine 100 [])) = some (10, 0, 0, []) := by decide
theorem test_frombcd : ended (exec .frombcd (machine 0x37 [])) = some (0, 37, 0, []) := by decide
theorem test_frombcd_wide : ended (exec .frombcd (machine 0x100 [])) = some (11, 0, 0, []) := by decide
theorem test_isbcd : ended (exec .isbcd (machine 0x99 [])) = some (0, 1, 0, []) := by decide
theorem test_isbcd_no : ended (exec .isbcd (machine 0xA9 [])) = some (0, 0, 0, []) := by decide
theorem test_encdig_odd :
    ended (exec (.encdig 3) (machine 0 [0x31, 0x32, 0x33])) = some (0, 0, 0, [0x01, 0x23]) := by decide
theorem test_encdig_letter :
    ended (exec (.encdig 2) (machine 0 [0x31, 0x41])) = some (10, 0, 0, []) := by decide
theorem test_decdig :
    ended (exec (.decdig 2) (machine 0 [0x01, 0x23])) = some (0, 0, 0, [0x30, 0x31, 0x32, 0x33]) := by
  decide
theorem test_decdig_nibble : ended (exec (.decdig 1) (machine 0 [0x9A])) = some (10, 0, 0, []) := by decide
theorem test_encint :
    ended (exec (.encint 3) (machine 1234 [])) = some (0, 0, 0, [0x00, 0x12, 0x34]) := by decide
theorem test_encint_overflow :
    ended (exec (.encint 8) (machine 0x2386F26FC10000 [])) = some (10, 0, 0, []) := by decide
theorem test_decint :
    ended (exec (.decint 3) (machine 0 [0x00, 0x12, 0x34])) = some (0, 1234, 0, []) := by decide
theorem test_decint_eight :
    ended (exec (.decint 8) (machine 0 [0x99, 0x99, 0x99, 0x99, 0x99, 0x99, 0x99, 0x99])) =
      some (0, 9999999999999999, 0, []) := by decide
theorem test_csum :
    ended (exec (.csum 8) (machine 0 [0x80, 1, 2, 3, 4, 5, 0xC0, 1])) = some (0, 0x74, 0, []) := by decide +kernel
theorem test_csum_order :
    ended (exec (.csum 2) (machine 0 [0x16, 0x68])) = some (0, 0x4C, 0, []) := by decide +kernel
theorem test_adec :
    ended (exec (.adec 5) (machine 0 [0x21, 0x05, 0x25, 0x04, 0xD2])) =
      some (0, 0x21052504D2, 5, []) := by decide
theorem test_adec_coded :
    ended (exec (.adec 6) (machine 0 [0x00, 0xFF, 0xFF, 0xFF, 0xFF, 0x99])) =
      some (0, 0x100FFFFFFFF, 5, []) := by decide
theorem test_aenc :
    ended (exec .aenc (machine 0x10080000001 [])) = some (0, 0, 0, [0x00, 0x80, 0x00, 0x00, 0x01]) := by
  decide
theorem test_aenc_alias : ended (exec .aenc (machine 0x123456 [])) = some (4, 0, 0, []) := by decide
theorem test_aval_relay : ended (exec .aval (machine 0x210525EA61 [])) = some (0, 2, 0, []) := by decide
theorem test_aval_zero : ended (exec .aval (machine 0x2105250000 [])) = some (4, 0, 0, []) := by decide
theorem test_ahex :
    ended (exec .ahex (machine 0x10080000001 [])) =
      some (0, 0, 0, [0x38, 0x30, 0x30, 0x30, 0x30, 0x30, 0x30, 0x31]) := by decide
theorem test_ahex_letters :
    hexText .upper (bytes [0xDE, 0xAD]) = bytes [0x44, 0x45, 0x41, 0x44] ∧
    hexText .lower (bytes [0xDE, 0xAD]) = bytes [0x64, 0x65, 0x61, 0x64] := by decide
theorem test_cdec_split :
    ended (exec (.cdec 2) (machine 0 [0xC5, 0x07])) = some (0, 0x07C5, 2, []) := by decide
theorem test_cdec_reads_one : ended (exec (.cdec 2) (machine 0 [0x35])) = some (0, 0x35, 1, []) := by
  decide
theorem test_cenc_split : ended (exec .cenc (machine 0x07C5 [])) = some (0, 0, 0, [0xC5, 0x07]) := by
  decide
theorem test_cenc_count : ended (exec .cenc (machine 0x0180 [])) = some (5, 0, 0, []) := by decide
theorem test_clen : ended (exec .clen (machine 0x07C5 [])) = some (0, 2, 0, []) := by decide
theorem test_clen_one : ended (exec .clen (machine 0xBF [])) = some (0, 1, 0, []) := by decide
theorem test_fenc :
    ended (exec (.fenc 2) (machine 0 [1, 2])) = some (0, 0x5C02, 0, frame12) := by decide +kernel
theorem test_fenc_empty : ended (exec (.fenc 0) (machine 0 [])) = some (2, 0, 0, []) := by decide
theorem test_fdec : ended (exec (.fdec 7) (machine 0 frame12)) = some (0, 0x5C02, 0, [1, 2]) := by decide +kernel
theorem test_fdec_length :
    ended (exec (.fdec 7) (machine 0 [0x68, 0x00, 0x68, 1, 2, 0x5C, 0x16])) = some (2, 0, 0, []) := by
  decide
/-- The last step of RDFRM over `68 02 68 01 02 5C 16` (section 2.7). -/
theorem test_rdfrm_last :
    ended (.next (engineStep (reading .readBody [0x68, 2, 0x68, 1, 2, 0x5C] 2 1 6 [.byte 0x16]))) =
      some (0, 0x5C02, 7, [1, 2]) := by decide +kernel
/-- The failing step of RDFRM over `68 68 07` (section 1.9). -/
theorem test_rdfrm_abort :
    ended (.next (engineStep (reading .readSecondStart [0x68, 0x68] 0x68 0 2 [.byte 7]))) =
      some (1, 3, 3, []) := by decide
/-- The last step of WRFRM (R214). -/
theorem test_wrfrm_last :
    ended (.next (engineStep (sending 6 [.accept]))) = some (0, 0x5C02, 7, []) := by decide
theorem test_wrfrm_empty : ended (exec (.wrfrm 0) (machine 0 [])) = some (2, 0, 0, []) := by decide

/-- P5: the STATUS word with BUSY and CMDLOST set (section 3). -/
theorem test_status_word : statusWord { State.reset with busy := true, cmdLost := true } = 0x300 := by
  decide

/-- `withFetchWord` lets the next step issue the word. -/
theorem test_withFetchWord :
    ended (step ((machine 45 []).withFetchWord 32 0x10)) = some (0, 0x45, 0, []) := by decide

/-! ## Witnesses: hypotheses that can be met -/

theorem witness_StepKeepsTheInvariant :
    (reading .readSecondStart [0x68, 2] 2 0 2 [.byte 0x68]).Inv ∧
      ∃ t, step (reading .readSecondStart [0x68, 2] 2 0 2 [.byte 0x68]) = .next t := by
  refine ⟨⟨?_, ?_, ?_, ?_, ?_, ?_, ?_, ?_⟩, _, rfl⟩
  all_goals simp [reading, State.reset, Memory.ok, Memory.wf, engineOk, bytes, Config.start, Env.quiet]

theorem witness_DecodeOfEncodeIsTheCommand :
    (Instr.encdig 512).WellFormed ∧ (Instr.encint 8).WellFormed ∧ Instr.tobcd.WellFormed := by decide

theorem witness_EncodeOfDecodeIsTheWord : decode 0x02000013#32 = .ok (.encdig 512) := rfl

theorem witness_StepRunsTheDecodedCommand :
    (machine 45 [] [.host (.write 0 0x10)]).busy = false ∧
    (machine 45 [] [.host (.write 0 0x10)]).env.moves = [.host (.write 0 0x10)] ∧
    decode (BitVec.ofNat 32 0x10) = .ok .tobcd ∧
    (machine 45 [] [.engine]).env.moves = [.engine] ∧ (machine 45 []).env.moves = [] ∧
    0x10 < 2 ^ 32 := ⟨rfl, rfl, rfl, rfl, rfl, by decide⟩

/-- One word for each reason: opcode 0x17, bit 8, bit 26, and LEN 513 of CSUM. -/
theorem witness_IllegalWordsGiveCommandError :
    (∀ p ∈ opTable, p.1 ≠ 0x17 % 256) ∧ 0x110 / 256 % 256 ≠ 0 ∧ 0x04000020 / 2 ^ 26 ≠ 0 ∧
    (0x02010020 % 256, 512) ∈ opTable ∧ 512 < 0x02010020 / 65536 % 1024 ∧
    (machine 0 [] [.host (.write 0 (0x17#32).toNat)]).busy = false ∧
    (machine 0 [] [.host (.write 0 (0x17#32).toNat)]).env.moves = [.host (.write 0 (0x17#32).toNat)] := by
  decide

theorem witness_BusyWriteOnlySetsCmdLost :
    { sending 0 [] with env := { Env.quiet with moves := [.host (.write 0 0x20)] } }.busy = true ∧
    { sending 0 [] with env := { Env.quiet with moves := [.host (.write 0 0x20)] } }.env.moves =
      [.host (.write 0 0x20)] := ⟨rfl, rfl⟩

theorem witness_HostReadReturnsTheRegister :
    (machine 0 [] [.host (.read 1)]).env.moves = [.host (.read 1)] ∧
    (machine 0 [] [.host (.read 7)]).env.moves = [.host (.read 7)] := ⟨rfl, rfl⟩

theorem witness_HostWriteReachesOnlyArg0 :
    (machine 0 [] [.host (.write 2 5)]).env.moves = [.host (.write 2 5)] ∧
    (machine 0 [] [.host (.write 3 5)]).env.moves = [.host (.write 3 5)] := ⟨rfl, rfl⟩

/-- Index 511 is in the buffer, 512 is not; byte 0 is written, byte 1 is not. -/
theorem witness_HostAccessToIbuf :
    (machine 0 [7] [.host (.writeIbuf 511 1)]).env.moves = [.host (.writeIbuf 511 1)] ∧
    (machine 0 [7] [.host (.writeIbuf 512 1)]).env.moves = [.host (.writeIbuf 512 1)] ∧
    (machine 0 [7] [.host (.readIbuf 512)]).env.moves = [.host (.readIbuf 512)] ∧
    (machine 0 [7] [.host (.readIbuf 0)]).env.moves = [.host (.readIbuf 0)] ∧
    Memory.load (machine 0 [7] [.host (.readIbuf 0)]).ibuf 0 = some 7 ∧
    (machine 0 [7] [.host (.readIbuf 1)]).env.moves = [.host (.readIbuf 1)] ∧
    Memory.load (machine 0 [7] [.host (.readIbuf 1)]).ibuf 1 = none := by decide

/-- A machine with one OBUF byte written. -/
def withOutput (moves : List Move) : State := { machine 0 [] moves with obuf := [(0, 7)] }

theorem witness_HostAccessToObuf :
    (withOutput [.host (.readObuf 512)]).env.moves = [.host (.readObuf 512)] ∧
    (withOutput [.host (.readObuf 0)]).env.moves = [.host (.readObuf 0)] ∧
    Memory.load (withOutput [.host (.readObuf 0)]).obuf 0 = some 7 ∧
    (withOutput [.host (.readObuf 511)]).env.moves = [.host (.readObuf 511)] ∧
    Memory.load (withOutput [.host (.readObuf 511)]).obuf 511 = none := by decide

theorem witness_ResetAbandonsEverything :
    { sending 3 [] with env := { Env.quiet with moves := [.reset] } }.env.moves = [.reset] := rfl

/-- The LEN values where the clauses of `Encoded` meet, for each LENMAX. -/
theorem witness_Encoded :
    (0 < 1024 ∧ 0 ≤ 0) ∧ (1 < 1024 ∧ 0 < 1) ∧ (8 < 1024 ∧ 8 ≤ 8) ∧ (9 < 1024 ∧ 8 < 9) ∧
    (256 < 1024 ∧ 256 ≤ 256) ∧ (257 < 1024 ∧ 256 < 257) ∧ (512 < 1024 ∧ 512 ≤ 512) ∧
    (513 < 1024 ∧ 512 < 513) := by decide

theorem witness_TobcdPacksTwoDigits :
    (machine 99 []).arg0.toNat ≤ 99 ∧ 99 < (machine 100 []).arg0.toNat := by decide

/-- Also ISBCD's. -/
theorem witness_FrombcdUnpacksTwoDigits :
    256 ≤ (machine 256 []).arg0.toNat ∧
    ((machine 0x99 []).arg0.toNat < 256 ∧ IsBcd (machine 0x99 []).arg0.toNat) ∧
    ((machine 0xFF []).arg0.toNat < 256 ∧ ¬ IsBcd (machine 0xFF []).arg0.toNat) := by
  unfold IsBcd; decide

theorem witness_IsbcdAnswersForEveryByte :
    256 ≤ (machine 256 []).arg0.toNat ∧
    ((machine 0 []).arg0.toNat < 256 ∧ IsBcd (machine 0 []).arg0.toNat) ∧
    ((machine 0x9A []).arg0.toNat < 256 ∧ ¬ IsBcd (machine 0x9A []).arg0.toNat) := by
  unfold IsBcd; decide

/-- Digits at both ends of their range, and the bytes next to them. -/
theorem witness_EncdigPacksDigitPairs :
    Holds (machine 0 [0x30, 0x39, 0x31]).ibuf (bytes [0x30, 0x39, 0x31]) ∧
    (∀ b ∈ bytes [0x30, 0x39, 0x31], 0x30 ≤ b.toNat ∧ b.toNat ≤ 0x39) ∧
    Holds (machine 0 [0x2F, 0x3A]).ibuf (bytes [0x2F, 0x3A]) ∧
    (∃ b ∈ bytes [0x2F, 0x3A], b.toNat < 0x30 ∨ 0x39 < b.toNat) := by
  unfold Holds; decide

theorem witness_DecdigUnpacksDigitPairs :
    Holds (machine 0 [0x00, 0x99]).ibuf (bytes [0x00, 0x99]) ∧ (∀ b ∈ bytes [0x00, 0x99], IsBcd b.toNat) ∧
    Holds (machine 0 [0x9A]).ibuf (bytes [0x9A]) ∧ (∃ b ∈ bytes [0x9A], ¬ IsBcd b.toNat) := by
  unfold Holds IsBcd; decide

theorem witness_EncintWritesBase100Digits :
    (machine 9999 []).arg0.toNat < 100 ^ 2 ∧ 100 ^ 2 ≤ (machine 10000 []).arg0.toNat := by decide

theorem witness_DecintReadsBase100Digits :
    Holds (machine 0 [0x12, 0x34]).ibuf (bytes [0x12, 0x34]) ∧ (bytes [0x12, 0x34]).length ≤ 8 ∧
    (∀ b ∈ bytes [0x12, 0x34], IsBcd b.toNat) ∧
    Holds (machine 0 [0x12, 0x3A]).ibuf (bytes [0x12, 0x3A]) ∧ (bytes [0x12, 0x3A]).length ≤ 8 ∧
    (∃ b ∈ bytes [0x12, 0x3A], ¬ IsBcd b.toNat) := by
  unfold Holds IsBcd; decide

theorem witness_CsumReturnsTheDocumentedChecksum :
    Holds (machine 0 [1, 2]).ibuf (bytes [1, 2]) := by
  unfold Holds; decide

/-- LEN 4 and 5; a coded, an admin and a malformed address. -/
theorem witness_AdecDecodesFiveBytes :
    4 < 5 ∧ 5 ≤ 5 ∧
    (Holds (machine 0 [0, 0x80, 0, 0, 1]).ibuf (bytes [0, 0x80, 0, 0, 1]) ∧
      (bytes [0, 0x80, 0, 0, 1]).length = 5 ∧ ((bytes [0, 0x80, 0, 0, 1]).getD 0 0).toNat = 0) ∧
    (Holds (machine 0 [0x21, 5, 0x25, 4, 0xD2]).ibuf (bytes [0x21, 5, 0x25, 4, 0xD2]) ∧
      (bytes [0x21, 5, 0x25, 4, 0xD2]).length = 5 ∧
      ((bytes [0x21, 5, 0x25, 4, 0xD2]).getD 0 0).toNat ≠ 0 ∧ IsBcd 0x21 ∧ IsBcd 5 ∧ IsBcd 0x25) ∧
    (Holds (machine 0 [0x2A, 5, 0x25, 4, 0xD2]).ibuf (bytes [0x2A, 5, 0x25, 4, 0xD2]) ∧
      (bytes [0x2A, 5, 0x25, 4, 0xD2]).length = 5 ∧ ¬ IsBcd 0x2A) := by
  unfold Holds IsBcd; decide

/-- Ill-formed by bit 41 and by TAG with a first byte; an alias; a non-BCD code; admin and coded. -/
theorem witness_AencEncodesFiveBytes :
    ¬ AddrFormed (machine 0x20000000000 []).arg0.toNat ∧
    ¬ AddrFormed (machine 0x11280000001 []).arg0.toNat ∧
    (AddrFormed (machine 0x123456 []).arg0.toNat ∧ (machine 0x123456 []).arg0.toNat < 2 ^ 40 ∧
      addrByteNat (machine 0x123456 []).arg0.toNat 0 = 0) ∧
    (AddrFormed (machine 0x2A052504D2 []).arg0.toNat ∧ (machine 0x2A052504D2 []).arg0.toNat < 2 ^ 40 ∧
      ¬ AdminBcd (machine 0x2A052504D2 []).arg0.toNat) ∧
    (AddrFormed (machine 0x21052504D2 []).arg0.toNat ∧
      addrByteNat (machine 0x21052504D2 []).arg0.toNat 0 ≠ 0 ∧
      AdminBcd (machine 0x21052504D2 []).arg0.toNat) ∧
    (AddrFormed (machine 0x10080000001 []).arg0.toNat ∧
      2 ^ 40 ≤ (machine 0x10080000001 []).arg0.toNat) := by
  unfold AddrFormed AdminBcd IsBcd; decide

/-- The station ids where the classes meet. -/
theorem witness_AvalClassifiesTheStation :
    ¬ AddrFormed (machine 0x20000000000 []).arg0.toNat ∧
    (AddrFormed (machine 0x10080000001 []).arg0.toNat ∧
      2 ^ 40 ≤ (machine 0x10080000001 []).arg0.toNat) ∧
    ((machine 0x2105250000 []).arg0.toNat < 2 ^ 40 ∧
      (machine 0x2105250000 []).arg0.toNat % 65536 = 0) ∧
    ((machine 0x210525EA60 []).arg0.toNat < 2 ^ 40 ∧
      AdminBcd (machine 0x210525EA60 []).arg0.toNat ∧
      (machine 0x210525EA60 []).arg0.toNat % 65536 = 60000) ∧
    ((machine 0x210525EA61 []).arg0.toNat < 2 ^ 40 ∧
      AdminBcd (machine 0x210525EA61 []).arg0.toNat ∧
      (machine 0x210525EA61 []).arg0.toNat % 65536 = 60001) ∧
    ((machine 0x210525FFFF []).arg0.toNat < 2 ^ 40 ∧
      AdminBcd (machine 0x210525FFFF []).arg0.toNat ∧
      (machine 0x210525FFFF []).arg0.toNat % 65536 = 65535) := by
  unfold AddrFormed AdminBcd IsBcd; decide

theorem witness_AhexRendersTheStationCode :
    ¬ AddrFormed (machine 0x20000000000 []).arg0.toNat ∧
    (machine 0x21052504D2 []).arg0.toNat < 2 ^ 40 ∧
    (AddrFormed (machine 0x10080000001 []).arg0.toNat ∧
      2 ^ 40 ≤ (machine 0x10080000001 []).arg0.toNat) := by
  unfold AddrFormed; decide

theorem witness_CdecDecodesOneOrTwoBytes :
    (1 ≤ 1 ∧ Memory.load (machine 0 [0xBF]).ibuf 0 = some 0xBF ∧ 0xBF / 64 % 2 = 0) ∧
    (Memory.load (machine 0 [0x40, 7]).ibuf 0 = some 0x40 ∧ 0x40 / 64 % 2 = 1 ∧ 2 ≤ 2 ∧
      Memory.load (machine 0 [0x40, 7]).ibuf 1 = some 7) := by decide

theorem witness_CencEncodesOneOrTwoBytes :
    65536 ≤ (machine 0x10000 []).arg0.toNat ∧
    ((machine 0xFFFF []).arg0.toNat < 65536 ∧ (machine 0xFFFF []).arg0.toNat / 64 % 2 = 1) ∧
    ((machine 0xBF []).arg0.toNat < 256 ∧ (machine 0xBF []).arg0.toNat / 64 % 2 = 0) ∧
    (256 ≤ (machine 0x100 []).arg0.toNat ∧ (machine 0x100 []).arg0.toNat < 65536 ∧
      (machine 0x100 []).arg0.toNat / 64 % 2 = 0) := by decide

theorem witness_ClenGivesOneOrTwo :
    65536 ≤ (machine 0x10000 []).arg0.toNat ∧ (machine 0xFFFF []).arg0.toNat < 65536 := by decide

/-- A region of length 0, 1, and 256 that the buffer holds; also WRFRM's. -/
theorem witness_FencWrapsTheRegion :
    Holds (machine 0 []).ibuf [] ∧ Holds (machine 0 [0xAA]).ibuf (bytes [0xAA]) ∧
    (bytes [0xAA]).length ≤ 255 ∧
    ∃ m : Memory, ∃ r : List Byte, Holds m r ∧ 255 < r.length := by
  refine ⟨fun i h => absurd h (by simp), by unfold Holds; decide, by decide,
    Memory.storeRange [] 0 (List.replicate 256 0), List.replicate 256 0, fun i h => ?_, by rw [List.length_replicate]; decide⟩
  rw [Memory.load_storeRange, if_pos ⟨Nat.zero_le _, by omega⟩, Nat.sub_zero]

theorem witness_WrfrmLoadsTheFrame :
    Holds (machine 0 []).ibuf [] ∧ Holds (machine 0 [0xAA]).ibuf (bytes [0xAA]) ∧
    1 ≤ (bytes [0xAA]).length ∧ (bytes [0xAA]).length ≤ 255 := by
  unfold Holds; decide

/-- One wire for each outcome: too short, bad start, bad length, bad end, bad checksum, good. -/
theorem witness_FdecChecksInOrder :
    (∀ w ∈ [frame12, [0x68, 1, 0x68, 0xAA, 8, 0x16], [0x69, 2, 0x68, 1, 2, 0x5C, 0x16],
      [0x68, 3, 0x68, 1, 2, 0x5C, 0x16], [0x68, 2, 0x68, 1, 2, 0x5C, 0x17],
      [0x68, 2, 0x68, 1, 2, 0x5D, 0x16]], Holds (machine 0 w).ibuf (bytes w)) ∧
    (checksum (bytes [1, 2])).toNat = 0x5C := by
  unfold Holds; decide +kernel

/-- IBUF empty, and IBUF with a SPLIT byte only. -/
theorem witness_UnwrittenInputFaults :
    Unwritten (machine 0 []).ibuf 1 ∧ Unwritten (machine 0 []).ibuf 5 ∧
    Unwritten (machine 0 [0x40]).ibuf 2 ∧ Memory.load (machine 0 [0x40]).ibuf 0 = some 0x40 ∧
    (0x40#8).toNat / 64 % 2 = 1 :=
  ⟨⟨0, by decide, rfl⟩, ⟨0, by decide, rfl⟩, ⟨1, by decide, rfl⟩, rfl, by decide⟩

theorem witness_FramerSeeksTheStartMarker :
    (reading .seekStart [] 0 0 0 [.byte 0x68]).fstate = .seekStart ∧
    (reading .seekStart [] 0 0 0 [.byte 0x68]).env.rx = [.byte 0x68] ∧
    (reading .seekStart [] 0 0 0 [.byte 0x69]).env.rx = [.byte 0x69] ∧ (0x69 : Byte) ≠ 0x68 := by decide

theorem witness_FramerReadsTheLength :
    (reading .readLength [0x68] 0 0 1 [.byte 0]).fstate = .readLength ∧
    (reading .readLength [0x68] 0 0 1 [.byte 0]).env.rx = [.byte 0] ∧
    (reading .readLength [0x68] 0 0 1 [.byte 1]).env.rx = [.byte 1] ∧ (1 : Byte) ≠ 0 := by decide

theorem witness_FramerReadsTheSecondMarker :
    (reading .readSecondStart [0x68, 2] 2 0 2 [.byte 0x68]).fstate = .readSecondStart ∧
    (reading .readSecondStart [0x68, 2] 2 0 2 [.byte 0x68]).env.rx = [.byte 0x68] ∧
    (reading .readSecondStart [0x68, 2] 2 0 2 [.byte 7]).env.rx = [.byte 7] ∧ (7 : Byte) ≠ 0x68 := by
  decide

/-- A byte in the middle, a last byte of a good frame, and a last byte that is no end marker. -/
theorem witness_FramerReadsTheBody :
    (reading .readBody [0x68, 2, 0x68] 2 4 3 [.byte 1]).fstate = .readBody ∧
    (reading .readBody [0x68, 2, 0x68] 2 4 3 [.byte 1]).env.rx = [.byte 1] ∧
    (reading .readBody [0x68, 2, 0x68] 2 4 3 [.byte 1]).frem ≠ 1 ∧
    (reading .readBody [0x68, 2, 0x68, 1, 2, 0x5C] 2 1 6 [.byte 0x16]).frem = 1 ∧
    (∃ f, frameDecode (bytes [0x68, 2, 0x68, 1, 2, 0x5C] ++ [0x16]) = .ok f) ∧
    (∃ e, frameDecode (bytes [0x68, 2, 0x68, 1, 2, 0x5C] ++ [0x17]) = .error e) :=
  ⟨rfl, rfl, by decide, rfl, ⟨⟨bytes [1, 2], 2, 0x5C⟩, by decide +kernel⟩,
    ⟨.framingError, by decide +kernel⟩⟩

theorem witness_FramerStreamEndAndFailure :
    isReading (reading .seekStart [] 0 0 0 [.streamEnd]).fstate = true ∧
    (reading .seekStart [] 0 0 0 [.streamEnd]).env.rx = [.streamEnd] ∧
    isReading (reading .readBody [0x68, 2, 0x68] 2 4 3 [.fail]).fstate = true ∧
    (reading .readBody [0x68, 2, 0x68] 2 4 3 [.fail]).env.rx = [.fail] := ⟨rfl, rfl, rfl, rfl⟩

/-- The last byte but one, the last byte, and a failure. -/
theorem witness_TransmitterStep :
    (sending 5 [.accept]).fstate = .tx ∧ (sending 5 [.accept]).env.tx = [.accept] ∧
    (sending 5 [.accept]).txpos.toNat + 1 < (sending 5 [.accept]).txbuf.length ∧
    (sending 6 [.accept]).txpos.toNat + 1 = (sending 6 [.accept]).txbuf.length ∧
    (sending 0 [.fail]).txpos.toNat < (sending 0 [.fail]).txbuf.length ∧
    (sending 0 [.fail]).env.tx = [.fail] ∧ (sending 0 [.fail]).txbuf.length ≤ 260 := by decide

theorem witness_EngineWaitsWithoutInput :
    (reading .seekStart [] 0 0 1 []).env.moves = [] ∧
    isReading (reading .seekStart [] 0 0 1 []).fstate = true ∧ (reading .seekStart [] 0 0 1 []).env.rx = [] ∧
    (sending 3 []).fstate = .tx ∧ (sending 3 []).env.tx = [] ∧ State.reset.fstate = .idle := by decide

theorem witness_ResultsHoldWhileBusy :
    ∃ t, step (sending 5 [.accept]) = .next t ∧ t.busy = true := ⟨_, rfl, rfl⟩

/-- A step that writes ARG0, one that writes IBUF, one that accepts a word. -/
theorem witness_OnlyTheHostWritesItsInputs :
    (∃ t, step (machine 0 [] [.host (.write 2 5)]) = .next t ∧
      t.arg0 ≠ (machine 0 [] [.host (.write 2 5)]).arg0) ∧
    (∃ t, step (machine 0 [] [.host (.writeIbuf 3 5)]) = .next t ∧
      t.ibuf ≠ (machine 0 [] [.host (.writeIbuf 3 5)]).ibuf) ∧
    (∃ t, step (machine 0 [] [.host (.write 0 0x10)]) = .next t ∧
      t.cmd ≠ (machine 0 [] [.host (.write 0 0x10)]).cmd) :=
  ⟨⟨_, rfl, by decide⟩, ⟨_, rfl, by decide⟩, ⟨_, rfl, by decide⟩⟩

theorem witness_ObufChangesOnlyOnSuccess :
    ∃ t, step ((machine 0x80 []).withFetchWord 32 0x41) = .next t ∧
      t.obuf ≠ ((machine 0x80 []).withFetchWord 32 0x41).obuf := ⟨_, rfl, by decide⟩

/-- CODE changes, BUSY is set, BUSY is cleared, CMDLOST is set, CMDLOST is cleared. -/
theorem witness_StatusBitsChangeOnlyByTheirRules :
    (∃ t, step (machine 0 [] [.host (.write 0 0)]) = .next t ∧ t.code ≠ .ok) ∧
    (∃ t, step (machine 0 [] [.host (.write 0 0x60)]) = .next t ∧ t.busy = true) ∧
    (∃ t, step (sending 6 [.accept]) = .next t ∧ t.busy = false) ∧
    (∃ t, step { sending 6 [] with env := { Env.quiet with moves := [.host (.write 0 0x20)] } } = .next t ∧
      t.cmdLost = true) ∧
    (∃ t, step { machine 0 [] [.host (.write 0 0x10)] with cmdLost := true } = .next t ∧
      t.cmdLost = false) :=
  ⟨⟨_, rfl, by decide⟩, ⟨_, rfl, rfl⟩, ⟨_, rfl, rfl⟩, ⟨_, rfl, rfl⟩, ⟨_, rfl, rfl⟩⟩

theorem witness_IssueErrorsArePrecise :
    ∃ t, exec .tobcd (machine 100 []) = .next t ∧ t.busy = false ∧ t.code = .err .bcdError :=
  ⟨_, rfl, rfl, rfl⟩

theorem witness_PureCommandsDependOnTheirInputs :
    Instr.tobcd ≠ .rdfrm ∧ (∀ n, Instr.tobcd ≠ .wrfrm n) ∧
    (sending 0 []).arg0 = State.reset.arg0 ∧ (sending 0 []).ibuf = State.reset.ibuf ∧
    ∃ t, exec .tobcd State.reset = .next t :=
  ⟨by decide, fun n => by simp, rfl, rfl, _, rfl⟩

theorem witness_TobcdAndFrombcdAreInverse :
    (∃ t, exec .tobcd (machine 45 []) = .next t ∧ t.code = .ok) ∧
    (∃ t, exec .frombcd (machine 0x45 []) = .next t ∧ t.code = .ok) := ⟨⟨_, rfl, rfl⟩, ⟨_, rfl, rfl⟩⟩

/-- An even and an odd number of digits, both placements of the pad. -/
theorem witness_DecdigInvertsEncdigUpToThePad :
    encodeDigits .leading (bytes [0x31, 0x32]) = .ok (bytes [0x12]) ∧
    encodeDigits .leading (bytes [0x31, 0x32, 0x33]) = .ok (bytes [0x01, 0x23]) ∧
    encodeDigits .trailing (bytes [0x31, 0x32, 0x33]) = .ok (bytes [0x12, 0x30]) := ⟨rfl, rfl, rfl⟩

theorem witness_DecintInvertsEncint :
    encodeInt 1234 3 = .ok (bytes [0x00, 0x12, 0x34]) ∧ encodeInt 0 0 = .ok [] := ⟨rfl, rfl⟩

theorem witness_ChecksumLaws : (bytes [1, 2]).length = (bytes [3, 4]).length := rfl

theorem witness_AddressCodecIsInvertible :
    addrDecode (bytes [0x21, 5, 0x25, 4, 0xD2]) = .ok 0x21052504D2 ∧
    avOk 0x10080000001 = true ∧ addrEncode 0x10080000001 = .ok (bytes [0, 0x80, 0, 0, 1]) :=
  ⟨rfl, rfl, rfl⟩

theorem witness_ControlCodecIsInvertible :
    ctrlDecode (bytes [0xC5, 7]) 2 = .ok (0x07C5, 2) ∧ ctrlDecode (bytes [0x35]) 1 = .ok (0x35, 1) ∧
    cvOk 0x07C5 = true ∧ ctrlEncode 0x07C5 = .ok (bytes [0xC5, 7]) := ⟨rfl, rfl, rfl, rfl⟩

/-- Regions of length 0, 1, 2, and one above 255. -/
theorem witness_FrameRoundTrip :
    ([] : List Byte).length = 0 ∧ (bytes [0xAA]).length = 1 ∧ 2 ≤ (bytes [1, 2]).length ∧
    255 < (List.replicate 256 (0 : Byte)).length := by
  refine ⟨rfl, rfl, by decide, by rw [List.length_replicate]; decide⟩

theorem witness_FrameCorruptionIsDetected :
    2 ≤ (bytes [1, 2]).length ∧ frameEncode (bytes [1, 2]) = .ok (bytes frame12) ∧
    (0x5D : Byte) ≠ checksum (bytes [1, 2]) ∧ (0x17 : Byte) ≠ 0x16 ∧ (0x69 : Byte) ≠ 0x68 ∧
    (3 : Byte) ≠ BitVec.ofNat 8 (bytes [1, 2]).length := by decide +kernel

/-- Two noise bytes before a frame, and one event after it. -/
theorem witness_ReadResynchronises :
    let s : State := { State.reset with env := { Env.quiet with
      moves := [.host (.write 0 0x60)]
      rx := (bytes [0x00, 0x16]).map RxEvent.byte ++ (bytes frame12).map RxEvent.byte ++ [.streamEnd] } }
    s.busy = false ∧ s.env.moves = [.host (.write 0 0x60)] ∧
    s.env.rx = (bytes [0x00, 0x16]).map RxEvent.byte ++ (bytes frame12).map RxEvent.byte ++ [.streamEnd] ∧
    (∀ b ∈ bytes [0x00, 0x16], b ≠ 0x68) ∧ frameEncode (bytes [1, 2]) = .ok (bytes frame12) ∧
    2 ≤ (bytes [1, 2]).length := ⟨rfl, rfl, rfl, by decide, by decide +kernel, by decide⟩

theorem witness_WriteSendsTheFrame :
    let s := machine 0 [1, 2] [.host (.write 0 (0x61 + 2 * 65536))]
    s.busy = false ∧ Holds s.ibuf (bytes [1, 2]) ∧ frameEncode (bytes [1, 2]) = .ok (bytes frame12) ∧
    s.env.moves = [.host (.write 0 (0x61 + (bytes [1, 2]).length * 65536))] ∧
    (∃ rest, { Env.quiet with tx := List.replicate 7 .accept }.tx =
      List.replicate (bytes frame12).length .accept ++ rest) ∧
    5 < (bytes frame12).length := by
  refine ⟨rfl, by unfold Holds; decide, by decide +kernel, rfl, ⟨[], rfl⟩, by decide⟩

/-- An environment that delivers once, before the first step. -/
def once (d : Delivery) : Nat → Delivery
  | 0 => d
  | _ + 1 => ⟨[], [], []⟩

/-- The run whose first step is the engine's with that delivery, and whose later ones are idle. -/
def endingRun (d : Delivery) (s : State) : Nat → State
  | 0 => s
  | _ + 1 => engineStep (deliver d s)

theorem endingRun_open {d : Delivery} {s : State} (hm : (deliver d s).env.moves = [])
    (hi : (engineStep (deliver d s)).fstate = .idle) : OpenRun (once d) (endingRun d s) := by
  intro n
  cases n with
  | zero => exact step_of_no_move hm
  | succ n =>
    have h : deliver ⟨[], [], []⟩ (engineStep (deliver d s)) = engineStep (deliver d s) := by
      simp [deliver]
    change step (deliver ⟨[], [], []⟩ (engineStep (deliver d s))) = .next (engineStep (deliver d s))
    rw [h, step_of_no_move ((engineStep_frame _).moves.trans hm),
      engineStep_waiting (.inr (.inr (.inl hi)))]

theorem endingRun_fair {d : Delivery} {s : State} (hi : (engineStep (deliver d s)).fstate = .idle) :
    FairPorts (once d) (endingRun d s) := by
  refine ⟨fun n _ => ⟨n + 1, Nat.le_succ n, .inl ?_⟩, fun n _ => ⟨n + 1, Nat.le_succ n, .inl ?_⟩⟩
  · change isReading (engineStep (deliver d s)).fstate = false
    rw [hi]; rfl
  · change (engineStep (deliver d s)).fstate ≠ .tx
    rw [hi]; decide

/-- A read that waits in READ_LENGTH on an open stream, to which a zero length byte comes, and a write
that waits for the answer to its last byte. -/
theorem witness_StreamCommandsEndWhenThePortsAnswer_fair :
    (OpenRun (once ⟨[], [.byte 0], []⟩)
        (endingRun ⟨[], [.byte 0], []⟩ (reading .readLength [0x68] 0 0 1 [])) ∧
      (reading .readLength [0x68] 0 0 1 []).Inv ∧
      FairPorts (once ⟨[], [.byte 0], []⟩)
        (endingRun ⟨[], [.byte 0], []⟩ (reading .readLength [0x68] 0 0 1 []))) ∧
    (OpenRun (once ⟨[], [], [.accept]⟩) (endingRun ⟨[], [], [.accept]⟩ (sending 6 [])) ∧
      (sending 6 []).Inv ∧
      FairPorts (once ⟨[], [], [.accept]⟩) (endingRun ⟨[], [], [.accept]⟩ (sending 6 []))) := by
  refine ⟨⟨endingRun_open rfl rfl, ?_, endingRun_fair rfl⟩,
    ⟨endingRun_open rfl rfl, ⟨?_, ?_, ?_, ?_, ?_, ?_, ?_, ⟨bytes [1, 2], by decide +kernel⟩, by decide⟩,
      endingRun_fair rfl⟩⟩
  · constructor <;>
      simp [reading, State.reset, Memory.ok, Memory.wf, engineOk, bytes, Config.start, Env.quiet]
  all_goals simp [sending, State.reset, Memory.ok, Memory.wf, bytes, frame12]

/-- A read that starts meets the invariant, whatever the stream holds. -/
theorem seeking_inv (rx : List RxEvent) : (reading .seekStart [] 0 0 0 rx).Inv := by
  constructor <;> simp [reading, State.reset, Memory.ok, Memory.wf, engineOk, bytes]

/-- The one exception: a stream that goes on with noise does not end a read. -/
theorem witness_NoiseForEver :
    let σ : Nat → State := fun n => { reading .seekStart [] 0 0 0 [] with fcnt := BitVec.ofNat 32 n }
    OpenRun (fun _ => ⟨[], [.byte 1], []⟩) σ ∧ (σ 0).Inv ∧ FairPorts (fun _ => ⟨[], [.byte 1], []⟩) σ ∧
      NoiseForEver (fun _ => ⟨[], [.byte 1], []⟩) σ 0 := by
  refine ⟨fun n => ?_, ?_, ⟨fun n _ => ⟨n, le_rfl, .inr ⟨.inl rfl, by simp [before]⟩⟩, fun n h => ?_⟩,
    fun m _ => ⟨rfl, fun e rest _ h => ?_⟩⟩
  · have h : BitVec.ofNat 32 n + 1 = BitVec.ofNat 32 (n + 1) := by simp [BitVec.ofNat_add]
    change Host.Outcome.next
      { reading .seekStart [] 0 0 0 [] with fcnt := BitVec.ofNat 32 n + 1 } = _
    rw [h]
  · constructor <;>
      simp [reading, State.reset, Memory.ok, Memory.wf, engineOk, bytes, Env.quiet]
  · exact absurd h (by simp [reading])
  · obtain ⟨rfl, -⟩ := List.cons.inj h
    decide

/-- A committed read with as many events as it may take, and a read that seeks with a noise byte, a start
marker and 259 bytes to come. Both streams stay open. -/
theorem witness_StreamCommandsEndWhenThePortsAnswer_bounded :
    let s := reading .readBody [0x68, 2, 0x68, 1, 2, 0x5C] 2 1 6 [.byte 0x16]
    let t := reading .seekStart [] 0 0 0 ([.byte 1] ++ .byte 0x68 :: List.replicate 259 (.byte 0))
    (s.Inv ∧ s.env.moves = [] ∧ isReading s.fstate = true ∧ s.fstate ≠ .seekStart ∧
      eventsLeft s ≤ s.env.rx.length) ∧
    (t.Inv ∧ t.env.moves = [] ∧ t.fstate = .seekStart ∧
      t.env.rx = [.byte 1] ++ .byte 0x68 :: List.replicate 259 (.byte 0) ∧
      259 ≤ (List.replicate 259 (RxEvent.byte 0)).length) := by
  refine ⟨⟨?_, rfl, rfl, by decide, by decide⟩, ⟨seeking_inv _, rfl, rfl, rfl, by rw [List.length_replicate]⟩⟩
  constructor <;>
    simp [reading, State.reset, Memory.ok, Memory.wf, engineOk, bytes, Config.start]

theorem witness_StreamCommandsEndWhenThePortsAnswer :
    (reading .seekStart [] 0 0 0 [.byte 1, .streamEnd]).env.moves = [] ∧
    isReading (reading .seekStart [] 0 0 0 [.byte 1, .streamEnd]).fstate = true ∧
    RxEvent.streamEnd ∈ (reading .seekStart [] 0 0 0 [.byte 1, .streamEnd]).env.rx ∧
    (sending 6 [.accept]).Inv ∧ (sending 6 [.accept]).env.moves = [] ∧ (sending 6 [.accept]).fstate = .tx ∧
    (sending 6 [.accept]).txbuf.length ≤
      (sending 6 [.accept]).txpos.toNat + (sending 6 [.accept]).env.tx.length := by
  refine ⟨rfl, rfl, by decide, ⟨?_, ?_, ?_, ?_, ?_, ?_, ?_, ⟨bytes [1, 2], by decide +kernel⟩,
    by decide⟩, rfl, rfl, by decide⟩
  all_goals simp [sending, State.reset, Memory.ok, Memory.wf, bytes, frame12]

end Sys2Proof.Tests
end

section
/-! PROOFS. The family of spec/10_state.md: reset, issue and host access as equations of a step, and
what a step that is no reset can change (`step_effect`), from which the safety statements follow. -/

namespace Sys2Proof.Machine

/-- The empty buffer is canonical. -/
theorem Memory.ok_nil : Memory.ok [] := ⟨List.Pairwise.nil, by simp⟩

/-! ## The host's accesses, one equation per case -/

/-- STATUS as a number: CODE in 3:0, BUSY in bit 8, CMDLOST in bit 9 (10_state.md R22). -/
theorem statusWord_toNat (s : State) :
    (statusWord s).toNat = (codeBits s.code).toNat + (if s.busy then 2 ^ 8 else 0) +
      (if s.cmdLost then 2 ^ 9 else 0) := by
  have hlt := (codeBits s.code).isLt
  unfold statusWord
  generalize codeBits s.code = c at hlt ⊢
  rw [BitVec.toNat_append, ← Nat.shiftLeft_add_eq_or_of_lt hlt, Nat.shiftLeft_eq]
  cases s.busy <;> cases s.cmdLost <;>
    simp only [BitVec.ofBool, Bool.cond_true, Bool.cond_false, BitVec.reduceAppend,
      BitVec.reduceToNat, BitVec.ofNat_eq_ofNat, if_true, if_false, Bool.false_eq_true] <;> omega

/-- FSTATE as a number: its bits 7:3 are 0 (10_state.md R27). -/
theorem fstateWord_toNat (f : FState) : (fstateWord f).toNat = (fstateBits f).toNat := by
  cases f <;> rfl

/-- A number above 6 names no register, which reads as 0. -/
theorem readRegister_of_seven_le {r : Nat} (s : State) (h : 7 ≤ r) : readRegister s r = 0 := by
  obtain ⟨n, rfl⟩ := Nat.exists_eq_add_of_le' h
  rfl

theorem writeIbuf_of_lt {i : Nat} (b : Byte) (s : State) (h : i < Config.bufSize) :
    writeIbuf i b s = { s with ibuf := Memory.store s.ibuf i b } := if_pos h

theorem writeIbuf_of_le {i : Nat} (b : Byte) (s : State) (h : Config.bufSize ≤ i) :
    writeIbuf i b s = s := if_neg (Nat.not_lt.2 h)

theorem readIbuf_of_le {i : Nat} (s : State) (h : Config.bufSize ≤ i) :
    readIbuf i s = giveHost 0 s := if_neg (Nat.not_lt.2 h)

theorem readIbuf_written {i : Nat} {b : Byte} {s : State} (h : i < Config.bufSize)
    (hb : Memory.load s.ibuf i = some b) : readIbuf i s = giveHost (b.setWidth 64) s := by
  rw [readIbuf, if_pos h, hb]

theorem readIbuf_unwritten {i : Nat} {s : State} (h : i < Config.bufSize)
    (hb : Memory.load s.ibuf i = none) :
    readIbuf i s = giveHost ((Config.freeByte s.env.draws).setWidth 64) (drawFree s) := by
  rw [readIbuf, if_pos h, hb]

/-- A read of IBUF touches the environment only. -/
theorem readIbuf_eq_with_env (i : Nat) (s : State) : ∃ e, readIbuf i s = { s with env := e } := by
  rcases Nat.lt_or_ge i Config.bufSize with h | h
  · rcases hb : Memory.load s.ibuf i with _ | b
    · exact ⟨_, readIbuf_unwritten h hb⟩
    · exact ⟨_, readIbuf_written h hb⟩
  · exact ⟨_, readIbuf_of_le s h⟩

theorem readObuf_of_le {i : Nat} (s : State) (h : Config.bufSize ≤ i) :
    readObuf i s = .next (giveHost 0 s) := if_neg (Nat.not_lt.2 h)

theorem readObuf_written {i : Nat} {b : Byte} {s : State} (h : i < Config.bufSize)
    (hb : Memory.load s.obuf i = some b) :
    readObuf i s = .next (giveHost (b.setWidth 64) s) := by
  rw [readObuf, if_pos h, hb]

theorem readObuf_unwritten {i : Nat} {s : State} (h : i < Config.bufSize)
    (hb : Memory.load s.obuf i = none) : readObuf i s = .fault .unwrittenOutput := by
  rw [readObuf, if_pos h, hb]

theorem writeCmd_of_busy {s : State} (w : CmdWord) (h : s.busy = true) :
    writeCmd w s = .next (loseCmd s) := if_pos h

theorem writeCmd_of_ready {s : State} {w : CmdWord} {i : Instr} (h : s.busy = false)
    (hi : decode w = .ok i) : writeCmd w s = exec i (acceptCmd w s) := by
  simp [writeCmd, h, issue, hi]

/-- The step that issues a word on a core that is ready for it is the command of the word. -/
theorem step_of_cmd_write {s : State} {v : Nat} {rest : List Move} {i : Instr} (hb : s.busy = false)
    (hm : s.env.moves = .host (.write 0 v) :: rest) (hi : decode (BitVec.ofNat 32 v) = .ok i) :
    step s = exec i (acceptCmd (BitVec.ofNat 32 v) (withMoves rest s)) := by
  rw [step_of_move hm]
  exact writeCmd_of_ready (s := withMoves rest s) hb hi

/-! ## What the decoder's rows make -/

/-- What a row of the opcode map makes has the row's OP and LENMAX, and a LEN no larger than asked. -/
theorem make_of_mem_opRows {r : OpRow} (h : r ∈ opRows) (n : Nat) :
    opcode (r.make n) = r.op ∧ (r.make n).lenMax = r.lenMax ∧ (r.make n).len ≤ n := by
  simp only [opRows, List.mem_cons, List.not_mem_nil, or_false] at h
  rcases h with rfl | rfl | rfl | rfl | rfl | rfl | rfl | rfl | rfl | rfl | rfl | rfl | rfl | rfl |
    rfl | rfl | rfl | rfl | rfl <;> simp [opcode, Instr.lenMax, Instr.len]

/-- The decoder makes well-formed commands only (30_encoding.md R74). -/
theorem wellFormed_of_decode {w : CmdWord} {i : Instr} (h : decode w = .ok i) : i.WellFormed := by
  obtain ⟨r, hr, -, -, hle, rfl⟩ := decode_eq_ok h
  obtain ⟨-, hmax, hlen⟩ := make_of_mem_opRows hr (lenField w).toNat
  exact (hlen.trans hle).trans_eq hmax.symm

/-- A decoded command has the OP of its word (30_encoding.md R71). -/
theorem opcode_of_decode {w : CmdWord} {i : Instr} (h : decode w = .ok i) :
    opcode i = opField w := by
  obtain ⟨r, hr, hop, -, -, rfl⟩ := decode_eq_ok h
  exact (make_of_mem_opRows hr _).1.trans hop

/-! ## What the issue of a word can do -/

/-- The ends of an issue step from `s` to `t`: the word's command is over, or it started the framer or
the transmitter. -/
inductive IssueEnd (w : CmdWord) (s t : State) : Prop where
  | completed (h : Ends Config.bufSize s t)
  | readStarted (hop : opField w = 0x60) (ht : t = { s with
      fcnt := 0, fbuf := [], fl := 0, frem := 0, fstate := .seekStart, busy := true })
  | sendStarted (f : List Byte) (hop : opField w = 0x61) (ht : t = startSend f s)

theorem Ends.mono {n k : Nat} {s t : State} (h : Ends n s t) (hle : n ≤ k) : Ends k s t :=
  h.imp_right fun ⟨r, ht, hr⟩ => ⟨r, ht, hr.trans hle⟩

theorem issue_end {w : CmdWord} {s t : State} (h : issue w s = .next t) : IssueEnd w s t := by
  rcases issue_cases h with ⟨-, rfl⟩ | ⟨i, hi, hx⟩
  · exact .completed (.inl ⟨_, rfl, by decide, by decide⟩)
  · rcases exec_cases hx with ⟨rfl, ht⟩ | ⟨n, r, f, rfl, -, ht⟩ | ⟨-, he⟩
    · exact .readStarted (opcode_of_decode hi).symm ht
    · exact .sendStarted f (opcode_of_decode hi).symm ht
    · exact .completed (he.mono (outMax_le (wellFormed_of_decode hi)))

/-- A command that is over leaves BUSY at 0 and FSTATE at IDLE (60_exceptions.md R232, R233). -/
theorem Ends.idle {n : Nat} {s t : State} (h : Ends n s t) : t.busy = false ∧ t.fstate = .idle := by
  rcases h with ⟨e, rfl, -⟩ | ⟨r, rfl, -⟩ <;> exact ⟨rfl, rfl⟩

/-- A command writes none of the host's inputs, and not CMDLOST. -/
theorem IssueEnd.inputs {w : CmdWord} {s t : State} (h : IssueEnd w s t) :
    t.cmd = s.cmd ∧ t.cmdLost = s.cmdLost ∧ t.arg0 = s.arg0 ∧ t.ibuf = s.ibuf := by
  rcases h with (⟨e, rfl, -⟩ | ⟨r, rfl, -⟩) | ⟨-, rfl⟩ | ⟨f, -, rfl⟩ <;> exact ⟨rfl, rfl, rfl, rfl⟩

/-! ## What a step that is no reset can do -/

/-- What a step from `s` to `t` is, when it is no reset: a step of the engine, a CMD write that is lost
or issued, a host write to ARG0 or into IBUF, or an operation that touches the environment only. -/
inductive StepEffect (s t : State) : Prop where
  | engine (rest : List Move) (hm : s.env.moves = [] ∨ s.env.moves = .engine :: rest)
      (ht : t = engineStep (withMoves rest s))
  | lost (v : Nat) (rest : List Move) (hm : s.env.moves = .host (.write 0 v) :: rest)
      (hb : s.busy = true) (ht : t = loseCmd (withMoves rest s))
  | issued (v : Nat) (rest : List Move) (hm : s.env.moves = .host (.write 0 v) :: rest)
      (hb : s.busy = false)
      (hi : IssueEnd (BitVec.ofNat 32 v) (acceptCmd (BitVec.ofNat 32 v) (withMoves rest s)) t)
  | arg0Written (v : Nat) (rest : List Move) (hm : s.env.moves = .host (.write 2 v) :: rest)
      (ht : t = { withMoves rest s with arg0 := BitVec.ofNat 64 v })
  | ibufWritten (i : Nat) (b : Byte) (rest : List Move)
      (hm : s.env.moves = .host (.writeIbuf i b) :: rest) (hi : i < Config.bufSize)
      (ht : t = { withMoves rest s with ibuf := Memory.store s.ibuf i b })
  | coreKept (e : Env) (ht : t = { s with env := e })

theorem step_effect {s t : State} (h : step s = .next t)
    (hr : ∀ rest, s.env.moves ≠ .reset :: rest) : StepEffect s t := by
  rcases step_cases h with ⟨hm, rfl⟩ | ⟨m, rest, hm, hp⟩
  · exact .engine [] (.inl hm) (by rw [← hm]; rfl)
  rcases perform_cases hp with ⟨rfl, ht⟩ | ⟨rfl, -⟩ | ⟨v, rfl, hb, ht⟩ | ⟨v, rfl, hb, hi⟩ |
    ⟨r, v, rfl, -, ht⟩ | ⟨r, -, ht⟩ | ⟨i, b, rfl, ht⟩ | ⟨i, -, ht⟩ | ⟨i, v, -, ht⟩
  · exact .engine rest (.inr hm) ht
  · exact absurd hm (hr rest)
  · exact .lost v rest hm hb ht
  · exact .issued v rest hm hb (issue_end hi)
  · by_cases h2 : r = 2
    · subst h2
      exact .arg0Written v rest hm ht
    · exact .coreKept _ (ht.trans (writeRegister_of_ne r v _ h2))
  · exact .coreKept _ ht
  · rcases Nat.lt_or_ge i Config.bufSize with hlt | hge
    · exact .ibufWritten i b rest hm hlt (ht.trans (writeIbuf_of_lt b _ hlt))
    · exact .coreKept _ (ht.trans (writeIbuf_of_le b _ hge))
  · obtain ⟨e, he⟩ := readIbuf_eq_with_env i (withMoves rest s)
    exact .coreKept e (ht.trans he)
  · exact .coreKept _ ht

/-- CODE changes only in a step that ends a command. -/
theorem StepEffect.code_changed {s t : State} (h : StepEffect s t) (hne : t.code ≠ s.code) :
    t.busy = false ∧ t.fstate = .idle := by
  cases h with
  | engine rest hm ht =>
    subst ht
    cases engineStep_end (withMoves rest s) with
    | goesOn hs hb => exact absurd hs.1 hne
    | error e hc he ho hl hb hf => exact ⟨hb, hf⟩
    | success out hc hn ho hl hb hf => exact ⟨hb, hf⟩
  | issued v rest hm hb hi =>
    cases hi with
    | completed he => exact he.idle
    | readStarted hop ht => exact absurd (congrArg State.code ht) hne
    | sendStarted f hop ht => exact absurd (congrArg State.code ht) hne
  | lost _ _ _ _ ht | arg0Written _ _ _ ht | ibufWritten _ _ _ _ _ ht | coreKept _ ht =>
    exact absurd (congrArg State.code ht) hne

/-- BUSY is set only by the issue of RDFRM or WRFRM. -/
theorem StepEffect.busy_set {s t : State} (h : StepEffect s t) (hs : s.busy = false)
    (ht : t.busy = true) : ∃ v rest, s.env.moves = .host (.write 0 v) :: rest ∧
      (v % 256 = 0x60 ∨ v % 256 = 0x61) := by
  have hne : t.busy ≠ s.busy := by simp [hs, ht]
  cases h with
  | engine rest hm he =>
    subst he
    cases engineStep_end (withMoves rest s) with
    | goesOn hr hb => exact absurd hb hne
    | error e hc he ho hl hb hf => exact absurd ht (by simp [hb])
    | success out hc hn ho hl hb hf => exact absurd ht (by simp [hb])
  | issued v rest hm hb hi =>
    refine ⟨v, rest, hm, ?_⟩
    have hv : (opField (BitVec.ofNat 32 v)).toNat = v % 256 := by
      rw [opField_toNat, BitVec.toNat_ofNat]; omega
    cases hi with
    | completed he => exact absurd ht (by simp [he.idle.1])
    | readStarted hop _ => exact .inl (by rw [← hv, hop]; rfl)
    | sendStarted f hop _ => exact .inr (by rw [← hv, hop]; rfl)
  | lost _ _ _ _ he | arg0Written _ _ _ he | ibufWritten _ _ _ _ _ he | coreKept _ he =>
    exact absurd (congrArg State.busy he) hne

/-- BUSY is cleared only by the engine. -/
theorem StepEffect.busy_cleared {s t : State} (h : StepEffect s t) (hs : s.busy = true)
    (ht : t.busy = false) : s.env.moves = [] ∨ ∃ rest, s.env.moves = .engine :: rest := by
  have hne : t.busy ≠ s.busy := by simp [hs, ht]
  cases h with
  | engine rest hm he => exact hm.imp_right fun hm => ⟨rest, hm⟩
  | issued v rest hm hb hi => exact absurd hs (by simp [hb])
  | lost _ _ _ _ he | arg0Written _ _ _ he | ibufWritten _ _ _ _ _ he | coreKept _ he =>
    exact absurd (congrArg State.busy he) hne

/-- CMDLOST changes only by a CMD write: to 1 while BUSY = 1, to 0 while BUSY = 0. -/
theorem StepEffect.cmdLost_changed {s t : State} (h : StepEffect s t) (hne : t.cmdLost ≠ s.cmdLost) :
    t.cmdLost = s.busy ∧ ∃ v rest, s.env.moves = .host (.write 0 v) :: rest := by
  cases h with
  | engine rest hm ht => exact absurd (ht ▸ (engineStep_frame _).cmdLost) hne
  | lost v rest hm hb ht => exact ⟨hb.symm ▸ congrArg State.cmdLost ht, v, rest, hm⟩
  | issued v rest hm hb hi =>
    obtain ⟨-, hl, -, -⟩ := hi.inputs
    exact ⟨hb.symm ▸ hl, v, rest, hm⟩
  | arg0Written _ _ _ ht | ibufWritten _ _ _ _ _ ht | coreKept _ ht =>
    exact absurd (congrArg State.cmdLost ht) hne

/-- ARG0 changes only by the host's write to it. -/
theorem StepEffect.arg0_changed {s t : State} (h : StepEffect s t) (hne : t.arg0 ≠ s.arg0) :
    ∃ v rest, s.env.moves = .host (.write 2 v) :: rest ∧ t.arg0 = BitVec.ofNat 64 v := by
  cases h with
  | engine rest hm ht => exact absurd (ht ▸ (engineStep_frame _).arg0) hne
  | issued v rest hm hb hi =>
    obtain ⟨-, -, ha, -⟩ := hi.inputs
    exact absurd ha hne
  | arg0Written v rest hm ht => exact ⟨v, rest, hm, congrArg State.arg0 ht⟩
  | lost _ _ _ _ ht | ibufWritten _ _ _ _ _ ht | coreKept _ ht =>
    exact absurd (congrArg State.arg0 ht) hne

/-- IBUF changes only by the host's write into it. -/
theorem StepEffect.ibuf_changed {s t : State} (h : StepEffect s t) (hne : t.ibuf ≠ s.ibuf) :
    ∃ i b rest, s.env.moves = .host (.writeIbuf i b) :: rest ∧ i < 512 := by
  cases h with
  | engine rest hm ht => exact absurd (ht ▸ (engineStep_frame _).ibuf) hne
  | issued v rest hm hb hi =>
    obtain ⟨-, -, -, hib⟩ := hi.inputs
    exact absurd hib hne
  | ibufWritten i b rest hm hi ht => exact ⟨i, b, rest, hm, hi⟩
  | lost _ _ _ _ ht | arg0Written _ _ _ ht | coreKept _ ht =>
    exact absurd (congrArg State.ibuf ht) hne

/-- CMD changes only by a write that is accepted. -/
theorem StepEffect.cmd_changed {s t : State} (h : StepEffect s t) (hne : t.cmd ≠ s.cmd) :
    ∃ v rest, s.env.moves = .host (.write 0 v) :: rest ∧ s.busy = false ∧
      t.cmd = BitVec.ofNat 32 v := by
  cases h with
  | engine rest hm ht => exact absurd (ht ▸ (engineStep_frame _).cmd) hne
  | issued v rest hm hb hi =>
    obtain ⟨hc, -, -, -⟩ := hi.inputs
    exact ⟨v, rest, hm, hb, hc⟩
  | lost _ _ _ _ ht | arg0Written _ _ _ ht | ibufWritten _ _ _ _ _ ht | coreKept _ ht =>
    exact absurd (congrArg State.cmd ht) hne

/-- A success whose output fits OBUF leaves the OBUF bytes from OLEN on alone. -/
theorem load_obuf_of_olen_le {s t : State} {out : List Byte} (hn : out.length ≤ Config.bufSize)
    (ho : t.obuf = Memory.storeRange s.obuf 0 out) (hl : t.olen = BitVec.ofNat 16 out.length)
    {a : Nat} (ha : t.olen.toNat ≤ a) : Memory.load t.obuf a = Memory.load s.obuf a := by
  have hlen : t.olen.toNat = out.length := by
    rw [hl, BitVec.toNat_ofNat, Nat.mod_eq_of_lt (Nat.lt_of_le_of_lt hn (by decide))]
  rw [ho, Memory.load_storeRange, if_neg (by omega)]

/-- OBUF changes only in a step that ends with a success, and only below OLEN. -/
theorem StepEffect.obuf_changed {s t : State} (h : StepEffect s t) (hne : t.obuf ≠ s.obuf) :
    t.code = .ok ∧ t.busy = false ∧ t.fstate = .idle ∧
      ∀ a, t.olen.toNat ≤ a → Memory.load t.obuf a = Memory.load s.obuf a := by
  cases h with
  | engine rest hm ht =>
    subst ht
    cases engineStep_end (withMoves rest s) with
    | goesOn hs hb =>
      obtain ⟨-, -, -, -, ho⟩ := hs
      exact absurd ho hne
    | error e hc he ho hl hb hf => exact absurd ho hne
    | success out hc hn ho hl hb hf =>
      exact ⟨hc, hb, hf, fun a ha => load_obuf_of_olen_le (hn.trans (by decide)) ho hl ha⟩
  | issued v rest hm hb hi =>
    rcases hi with (⟨e, rfl, -⟩ | ⟨r, rfl, hn⟩) | ⟨-, ht⟩ | ⟨f, -, ht⟩
    · exact absurd rfl hne
    · exact ⟨rfl, rfl, rfl, fun a ha => load_obuf_of_olen_le (s := s) hn rfl rfl ha⟩
    · exact absurd (congrArg State.obuf ht) hne
    · exact absurd (congrArg State.obuf ht) hne
  | lost _ _ _ _ ht | arg0Written _ _ _ ht | ibufWritten _ _ _ _ _ ht | coreKept _ ht =>
    exact absurd (congrArg State.obuf ht) hne

/-! ## The obligations -/

/-- Settles O11: `giveHost` of the register's value, read off by its number. -/
theorem hostReadReturnsTheRegister : Obligations.HostReadReturnsTheRegister := by
  intro s r rest hm
  have widen {n : Nat} (x : BitVec n) (h : n ≤ 64) : (x.setWidth 64).toNat = x.toNat :=
    BitVec.toNat_setWidth_of_le h
  refine ⟨readRegister s r, by rw [step_of_move hm]; rfl, ?_, ?_, ?_, ?_, ?_, ?_, ?_, ?_⟩
  · rintro rfl
    exact widen s.cmd (by decide)
  · rintro rfl
    exact (widen (statusWord s) (by decide)).trans (statusWord_toNat s)
  · rintro rfl
    rfl
  · rintro rfl
    rfl
  · rintro rfl
    exact widen s.res1 (by decide)
  · rintro rfl
    exact widen s.olen (by decide)
  · rintro rfl
    exact (widen (fstateWord s.fstate) (by decide)).trans (fstateWord_toNat s.fstate)
  · exact readRegister_of_seven_le s

/-- Settles O13: the cases of `writeIbuf` and `readIbuf`. -/
theorem hostAccessToIbuf : Obligations.HostAccessToIbuf := by
  refine ⟨fun s i b rest hm => ?_, fun s i rest hm => ?_⟩ <;> rw [step_of_move hm]
  · refine ⟨fun hi => ⟨Memory.store s.ibuf i b, ?_, fun a => Memory.load_store s.ibuf i a b⟩,
      fun hi => ?_⟩
    · exact congrArg Host.Outcome.next (writeIbuf_of_lt b (withMoves rest s) hi)
    · exact congrArg Host.Outcome.next (writeIbuf_of_le b (withMoves rest s) hi)
  · refine ⟨fun hi => ?_, fun hi b hb => ?_,
      fun hi hb => ⟨Config.freeByte s.env.draws, s.env.draws + 1, ?_⟩⟩
    · exact congrArg Host.Outcome.next (readIbuf_of_le (withMoves rest s) hi)
    · exact congrArg Host.Outcome.next (readIbuf_written (s := withMoves rest s) hi hb)
    · exact congrArg Host.Outcome.next (readIbuf_unwritten (s := withMoves rest s) hi hb)

/-- Settles O14: the cases of `readObuf`. -/
theorem hostAccessToObuf : Obligations.HostAccessToObuf := by
  intro s i rest hm
  rw [step_of_move hm]
  exact ⟨fun hi => readObuf_of_le (withMoves rest s) hi,
    fun hi b hb => readObuf_written (s := withMoves rest s) hi hb,
    fun hi hb => readObuf_unwritten (s := withMoves rest s) hi hb⟩

/-- Settles O44, from what a step that is no reset can do. -/
theorem onlyTheHostWritesItsInputs : Obligations.OnlyTheHostWritesItsInputs := by
  intro s t h hr
  have he := step_effect h hr
  exact ⟨he.arg0_changed, he.ibuf_changed, he.cmd_changed⟩

/-- Settles O45, from what a step that is no reset can do. -/
theorem obufChangesOnlyOnSuccess : Obligations.ObufChangesOnlyOnSuccess :=
  fun _ _ h hr => (step_effect h hr).obuf_changed

/-- Settles O46, from what a step that is no reset can do. -/
theorem statusBitsChangeOnlyByTheirRules : Obligations.StatusBitsChangeOnlyByTheirRules := by
  intro s t h hr
  have he := step_effect h hr
  refine ⟨he.code_changed, he.busy_set, he.busy_cleared, fun hs ht => ?_, fun hs ht => ?_⟩
  · obtain ⟨hb, hm⟩ := he.cmdLost_changed (by simp [hs, ht])
    exact ⟨hb.symm.trans ht, hm⟩
  · obtain ⟨hb, hm⟩ := he.cmdLost_changed (by simp [hs, ht])
    exact ⟨hb.symm.trans ht, hm⟩

/-- Settles O1: every field of `State.reset` is the table's, and an empty buffer holds no byte. -/
theorem resetLeavesTheTableOfValues : Obligations.ResetLeavesTheTableOfValues :=
  ⟨rfl, rfl, rfl, rfl, rfl, rfl, rfl, Memory.load_nil, Memory.load_nil, rfl, rfl, rfl, rfl, rfl, rfl⟩

/-- Settles O3, field by field of the invariant. -/
theorem resetMeetsTheInvariant : Obligations.ResetMeetsTheInvariant where
  ibuf_ok := Memory.ok_nil
  obuf_ok := Memory.ok_nil
  fbuf_size := by decide
  txbuf_size := by decide
  olen_le := by decide
  code_ok := by decide
  busy_iff := by decide
  engine_ok := trivial

/-- Settles O8: the issuing step, the engine's step with and without a move, and the staged word. -/
theorem stepRunsTheDecodedCommand : Obligations.StepRunsTheDecodedCommand := by
  refine ⟨fun s v rest i hb hm hi => step_of_cmd_write hb hm hi, fun s rest hm => step_of_move hm,
    fun s hm => step_of_no_move hm, fun s w i hw hi => ?_⟩
  have hm : (s.withFetchWord 32 w).env.moves = .host (.write 0 w) :: s.env.moves := by
    change Move.host (.write 0 (w % 2 ^ 32)) :: s.env.moves = _
    rw [Nat.mod_eq_of_lt hw]
  exact step_of_cmd_write rfl hm hi

/-- Settles O10: the branch of `writeCmd` for BUSY = 1. -/
theorem busyWriteOnlySetsCmdLost : Obligations.BusyWriteOnlySetsCmdLost := by
  intro s v rest hb hm
  rw [step_of_move hm]
  exact writeCmd_of_busy (s := withMoves rest s) _ hb

/-- Settles O12: a write by number reaches `writeRegister`, which stores in ARG0 only. -/
theorem hostWriteReachesOnlyArg0 : Obligations.HostWriteReachesOnlyArg0 := by
  intro s r v rest hm h0
  have hw : step s = .next (writeRegister r v (withMoves rest s)) :=
    (step_of_move hm).trans (if_neg h0)
  rw [hw]
  refine ⟨?_, fun hr => congrArg Host.Outcome.next (writeRegister_of_ne r v _ hr)⟩
  rintro rfl
  rfl

/-- Settles O15: a reset move is `applyReset`, whatever the state. -/
theorem resetAbandonsEverything : Obligations.ResetAbandonsEverything :=
  fun _ _ hm => step_of_move hm

end Sys2Proof.Machine
end

section
/-! PROOFS. The family of spec/20_memory.md: results while a command is in progress (R58), inputs that
are sampled at issue (R59), and pure commands that end alike from the same inputs (R60). -/

namespace Sys2Proof.Machine

/-! ## Results while a command is in progress -/

/-- A step that is no reset and leaves BUSY at 1 completes nothing, and only completions write the
results. -/
theorem StepEffect.sameResults_of_busy {s t : State} (h : StepEffect s t) (ht : t.busy = true) :
    SameResults s t := by
  cases h with
  | engine rest hm he =>
    subst he
    cases engineStep_end (withMoves rest s) with
    | goesOn hs hb => exact hs
    | error e hc he ho hl hb hf => exact absurd ht (by simp [hb])
    | success out hc hn ho hl hb hf => exact absurd ht (by simp [hb])
  | issued v rest hm hb hi =>
    rcases hi with he | ⟨-, rfl⟩ | ⟨f, -, rfl⟩
    · exact absurd ht (by simp [he.idle.1])
    · exact .rfl' s
    · exact .rfl' s
  | lost _ _ _ _ he | arg0Written _ _ _ he | ibufWritten _ _ _ _ _ he | coreKept _ he =>
    subst he
    exact .rfl' s

/-! ## The engine does not see the host's inputs -/

theorem readBodyByte_of_last {b : Byte} {s : State} (h : s.frem - 1 = 0) :
    readBodyByte b s = finalize { keepByte b s with frem := s.frem - 1 } := if_pos h

theorem readBodyByte_of_more {b : Byte} {s : State} (h : s.frem - 1 ≠ 0) :
    readBodyByte b s = { keepByte b s with frem := s.frem - 1 } := if_neg h

theorem acceptByte_of_last {s : State} (h : (s.txpos + 1).toNat = s.txbuf.length) :
    acceptByte s = complete { res0 := sentFr s, res1 := (s.txpos + 1).setWidth 32 } (sendByte s) :=
  if_pos h

theorem acceptByte_of_more {s : State} (h : (s.txpos + 1).toNat ≠ s.txbuf.length) :
    acceptByte s = sendByte s := if_neg h

/-- `s` with other values in ARG0 and IBUF, the registers only the host writes. -/
def withInputs (a : Word64) (m : Memory) (s : State) : State := { s with arg0 := a, ibuf := m }

section
variable (a : Word64) (m : Memory) (s : State)

@[simp] theorem withInputs_fstate : (withInputs a m s).fstate = s.fstate := rfl
@[simp] theorem withInputs_fbuf : (withInputs a m s).fbuf = s.fbuf := rfl
@[simp] theorem withInputs_env : (withInputs a m s).env = s.env := rfl

theorem finalize_withInputs :
    finalize (withInputs a m s) = withInputs a m (finalize s) := by
  simp only [finalize, withInputs_fbuf]
  cases frameDecode s.fbuf with
  | ok f => rfl
  | error e => rfl

theorem seekStartByte_withInputs (b : Byte) :
    seekStartByte b (withInputs a m s) = withInputs a m (seekStartByte b s) := by
  unfold seekStartByte
  split <;> rfl

theorem readLengthByte_withInputs (b : Byte) :
    readLengthByte b (withInputs a m s) = withInputs a m (readLengthByte b s) := by
  unfold readLengthByte
  split <;> rfl

theorem readSecondStartByte_withInputs (b : Byte) :
    readSecondStartByte b (withInputs a m s) = withInputs a m (readSecondStartByte b s) := by
  unfold readSecondStartByte
  split <;> rfl

theorem readBodyByte_withInputs (b : Byte) :
    readBodyByte b (withInputs a m s) = withInputs a m (readBodyByte b s) := by
  by_cases h : s.frem - 1 = 0
  · rw [readBodyByte_of_last h, readBodyByte_of_last (s := withInputs a m s) h]
    exact finalize_withInputs a m { keepByte b s with frem := s.frem - 1 }
  · rw [readBodyByte_of_more h, readBodyByte_of_more (s := withInputs a m s) h]
    rfl

theorem takeByte_withInputs (b : Byte) :
    takeByte b (withInputs a m s) = withInputs a m (takeByte b s) := by
  simp only [takeByte, withInputs_fstate]
  cases s.fstate with
  | seekStart => exact seekStartByte_withInputs a m s b
  | readLength => exact readLengthByte_withInputs a m s b
  | readSecondStart => exact readSecondStartByte_withInputs a m s b
  | readBody => exact readBodyByte_withInputs a m s b
  | idle | done | tx => rfl

theorem takeEvent_withInputs (e : RxEvent) :
    takeEvent e (withInputs a m s) = withInputs a m (takeEvent e s) := by
  cases e with
  | byte b => exact takeByte_withInputs a m s b
  | streamEnd | fail => rfl

theorem acceptByte_withInputs :
    acceptByte (withInputs a m s) = withInputs a m (acceptByte s) := by
  by_cases h : (s.txpos + 1).toNat = s.txbuf.length
  · rw [acceptByte_of_last h, acceptByte_of_last (s := withInputs a m s) h]
    rfl
  · rw [acceptByte_of_more h, acceptByte_of_more (s := withInputs a m s) h]
    rfl

theorem takeAnswer_withInputs (r : TxAnswer) :
    takeAnswer r (withInputs a m s) = withInputs a m (takeAnswer r s) := by
  cases r with
  | accept => exact acceptByte_withInputs a m s
  | fail => rfl

/-- A step of the framer or the transmitter commutes with a change of the host's inputs. -/
theorem engineStep_withInputs :
    engineStep (withInputs a m s) = withInputs a m (engineStep s) := by
  simp only [engineStep, withInputs_fstate, withInputs_env]
  cases s.fstate with
  | seekStart | readLength | readSecondStart | readBody =>
    cases s.env.rx with
    | nil => rfl
    | cons e rest => exact takeEvent_withInputs a m (withRx rest s) e
  | tx =>
    cases s.env.tx with
    | nil => rfl
    | cons r rest => exact takeAnswer_withInputs a m (withTx rest s) r
  | idle | done => rfl

end

/-! ## Pure commands end alike from the same inputs -/

/-- Two issues, from `s` and from `s'`, end alike: they complete with one and the same computed result,
or they stop with the same fault. -/
inductive EndAlike (s s' : State) :
    Host.Outcome State Fault Refusal → Host.Outcome State Fault Refusal → Prop where
  | settled {r r' : Except ErrorKind Result} (h : r' = r) :
      EndAlike s s' (.next (settle r s)) (.next (settle r' s'))
  | faulted (e : Fault) : EndAlike s s' (.fault e) (.fault e)

theorem onInput_endAlike {s s' : State} (h : s'.ibuf = s.ibuf) {n n' : Nat} (hn : n' = n)
    (f : List Byte → Except ErrorKind Result) : EndAlike s s' (onInput n f s) (onInput n' f s') := by
  subst hn
  simp only [onInput, h]
  cases Memory.loadRange s.ibuf 0 n' with
  | none => exact .faulted _
  | some x => exact .settled rfl

theorem onArg_endAlike {s s' : State} (h : s'.arg0 = s.arg0) (p : Word64 → Bool)
    (f : Word64 → Except ErrorKind Result) :
    EndAlike s s' (.next (onArg p f s)) (.next (onArg p f s')) := by
  simp only [onArg, h]
  cases p s.arg0 with
  | true => exact .settled rfl
  | false => exact .settled (r := .error .commandError) rfl

/-- A command other than RDFRM and WRFRM computes its end from ARG0 and IBUF alone. -/
theorem exec_endAlike {i : Instr} {s s' : State} (hr : i ≠ .rdfrm) (hw : ∀ n, i ≠ .wrfrm n)
    (ha : s'.arg0 = s.arg0) (hm : s'.ibuf = s.ibuf) : EndAlike s s' (exec i s) (exec i s') := by
  cases i with
  | tobcd => exact .settled (congrArg toBCD ha)
  | encint n => exact .settled (congrArg (fun v => (encodeInt v.toNat n).map outputOnly) ha)
  | frombcd | isbcd | aenc | aval | ahex | cenc | clen => exact onArg_endAlike ha _ _
  | encdig | decdig | decint | csum | fenc | fdec => exact onInput_endAlike hm rfl _
  | cdec n => exact onInput_endAlike hm (congrArg (cdecReads n) hm) _
  | adec n =>
    simp only [exec, execAdec]
    split
    · exact .settled (r := .error .addressError) rfl
    · exact onInput_endAlike hm rfl _
  | rdfrm => exact absurd rfl hr
  | wrfrm n => exact absurd rfl (hw n)

/-- One computed result gives one CODE, RES0, RES1 and OLEN, and the same OBUF bytes below OLEN,
whatever the state it completes. -/
theorem settle_results (r : Except ErrorKind Result) (s s' : State) :
    (settle r s').code = (settle r s).code ∧ (settle r s').res0 = (settle r s).res0 ∧
      (settle r s').res1 = (settle r s).res1 ∧ (settle r s').olen = (settle r s).olen ∧
      ∀ a, a < (settle r s).olen.toNat →
        Memory.load (settle r s').obuf a = Memory.load (settle r s).obuf a := by
  cases r with
  | error e => exact ⟨rfl, rfl, rfl, rfl, fun a ha => absurd ha (Nat.not_lt_zero a)⟩
  | ok x =>
    refine ⟨rfl, rfl, rfl, rfl, fun a ha => ?_⟩
    have hlt : a < x.out.length :=
      Nat.lt_of_lt_of_le ha ((BitVec.toNat_ofNat ..).trans_le (Nat.mod_le ..))
    rw [settle_ok, settle_ok, load_complete, load_complete, if_pos hlt, if_pos hlt]

/-! ## The obligations -/

/-- Settles O43: a reset leaves BUSY at 0, and any other step that leaves it at 1 completes nothing. -/
theorem resultsHoldWhileBusy : Obligations.ResultsHoldWhileBusy := by
  intro s t h ht
  by_cases hr : ∃ rest, s.env.moves = .reset :: rest
  · obtain ⟨rest, hm⟩ := hr
    cases (step_of_move hm).symm.trans h
    cases ht
  · exact (step_effect h (not_exists.1 hr)).sameResults_of_busy ht

/-- Settles O48: the step of the engine commutes with a change of the inputs. -/
theorem inputsAreSampledAtIssue : Obligations.InputsAreSampledAtIssue :=
  fun s a m => engineStep_withInputs a m s

/-- Settles O49: the two issues end alike, and one computed result shows alike. -/
theorem pureCommandsDependOnTheirInputs : Obligations.PureCommandsDependOnTheirInputs := by
  intro i s s' t hr hw ha hm h
  have hend := exec_endAlike hr hw ha hm
  rw [h] at hend
  generalize exec i s' = o at hend ⊢
  cases hend with
  | settled hr' => exact ⟨_, rfl, hr' ▸ settle_results _ s s'⟩

end Sys2Proof.Machine
end

section
/-! PROOFS. The family of spec/30_encoding.md: a word that breaks one of the first three checks of R76
does not decode, and its issue step ends with CommandError. -/

namespace Sys2Proof.Machine

/-! ## The words that decode -/

/-- No two rows of the opcode map share an OP (30_encoding.md R71). -/
theorem row_eq_of_op_eq {r q : OpRow} (hr : r ∈ opRows) (hq : q ∈ opRows) (h : r.op = q.op) : r = q :=
  Option.some.inj ((find_row hr).symm.trans (h ▸ find_row hq))

theorem mem_opTable {n m : Nat} :
    (n, m) ∈ opTable ↔ ∃ r ∈ opRows, r.op.toNat = n ∧ r.lenMax = m := by
  simp only [opTable_eq, List.mem_map, Prod.mk.injEq]

/-- A word that decodes has its OP in the opcode map, its reserved bits 0 and its LEN within the one
LENMAX that the map has for the OP (30_encoding.md R72 to R74). -/
theorem legal_of_decode {w : CmdWord} {i : Instr} (h : decode w = .ok i) :
    (∃ m, (w.toNat % 256, m) ∈ opTable) ∧ w.toNat / 256 % 256 = 0 ∧ w.toNat / 2 ^ 26 = 0 ∧
      ∀ m, (w.toNat % 256, m) ∈ opTable → w.toNat / 65536 % 1024 ≤ m := by
  obtain ⟨r, hr, hop, hres, hlen, -⟩ := decode_eq_ok h
  rw [lenField_toNat] at hlen
  obtain ⟨hmid, htop⟩ := (reservedZero_iff w).1 hres
  have hopn : r.op.toNat = w.toNat % 256 := by rw [hop, opField_toNat]
  refine ⟨⟨_, mem_opTable.2 ⟨r, hr, hopn, rfl⟩⟩, hmid, htop, fun m hm => ?_⟩
  obtain ⟨q, hq, hqop, rfl⟩ := mem_opTable.1 hm
  have hqr : q = r := row_eq_of_op_eq hq hr (BitVec.eq_of_toNat_eq (hqop.trans hopn.symm))
  rwa [hqr]

/-! ## The issue of a word that is no command -/

theorem issue_of_undecoded {w : CmdWord} (h : ∀ i, decode w ≠ .ok i) (s : State) :
    issue w s = .next (failed s .commandError) := by
  unfold issue
  split
  · exact absurd ‹_› (h _)
  · exact congrArg Host.Outcome.next (errorCompletion_eq_failed _ s)

/-- The step in which a ready core takes a word that is no command. -/
theorem step_of_undecoded_write {s : State} {w : CmdWord} {rest : List Move} (hb : s.busy = false)
    (hm : s.env.moves = .host (.write 0 w.toNat) :: rest) (h : ∀ i, decode w ≠ .ok i) :
    step s = .next (failed (acceptCmd w (withMoves rest s)) .commandError) := by
  calc step s = writeCmd (BitVec.ofNat 32 w.toNat) (withMoves rest s) := step_of_move hm
    _ = writeCmd w (withMoves rest s) := by rw [BitVec.ofNat_toNat, BitVec.setWidth_eq]
    _ = issue w (acceptCmd w (withMoves rest s)) := if_neg (by simp [hb])
    _ = .next (failed (acceptCmd w (withMoves rest s)) .commandError) := issue_of_undecoded h _

/-! ## The obligations -/

/-- Settles O9: each reason contradicts what a word that decodes has, so the word is no command. -/
theorem illegalWordsGiveCommandError : Obligations.IllegalWordsGiveCommandError := by
  intro s w rest hb hm hw
  refine step_of_undecoded_write hb hm fun i hi => ?_
  obtain ⟨⟨m, hop⟩, hmid, htop, hlen⟩ := legal_of_decode hi
  rcases hw with hw | hw | hw | ⟨m', hm', hlt⟩
  · exact hw m hop
  · exact hw hmid
  · exact hw htop
  · exact absurd (hlen m' hm') (Nat.not_le.2 hlt)

/-- Settles O7: the decoder, run on each of the eight words. -/
theorem writtenOutWordsDecode : Obligations.WrittenOutWordsDecode :=
  ⟨rfl, rfl, rfl, rfl, rfl, rfl, rfl, rfl⟩

end Sys2Proof.Machine
end

section
/-! PROOFS. The family of spec/41_bcd.md: the codec functions as numbers, each command as an equation of
whole states, and the inverse laws of R108. -/

namespace Sys2Proof.Machine

/-! ## Operands and words, for any command -/

/-- The words of the command in the `k`-th row of the opcode map. -/
theorem encoded_of_getElem? {k : Nat} {r : OpRow} (h : opRows[k]? = some r) :
    Encoded r.op.toNat r.lenMax r.make :=
  encoded_of_row (List.mem_of_getElem? h)

/-- A command that reads IBUF computes its end from the bytes that IBUF holds. -/
theorem onInput_of_holds {s : State} {x : List Byte} (h : Holds s.ibuf x)
    (f : List Byte → Except ErrorKind Result) : onInput x.length f s = .next (settle (f x) s) :=
  onInput_of_loadRange (loadRange_of_holds h)

theorem onArg_of_true {p : Word64 → Bool} {s : State} (h : p s.arg0 = true)
    (f : Word64 → Except ErrorKind Result) : onArg p f s = settle (f s.arg0) s := if_pos h

theorem onArg_of_not {p : Word64 → Bool} {s : State} (h : ¬ p s.arg0 = true)
    (f : Word64 → Except ErrorKind Result) : onArg p f s = failed s .commandError := if_neg h

/-- A success with output bytes only writes them and names RES0 and RES1 as 0. -/
theorem stored_complete_outputOnly (out : List Byte) (s : State) :
    Stored s (complete (outputOnly out) s) out 0 0 := stored_complete (outputOnly out) s

/-! ## One BCD byte, as a number -/

theorem isBcd_bcdNat {v : Nat} (h : v ≤ 99) : IsBcd (bcdNat v) := by
  unfold IsBcd bcdNat
  omega

theorem bcdNat_lt {v : Nat} (h : v ≤ 99) : bcdNat v < 256 := by
  unfold bcdNat
  omega

/-- The value of the BCD byte of a number is the number. -/
theorem value_bcdNat (v : Nat) : bcdNat v / 16 * 10 + bcdNat v % 16 = v := by
  unfold bcdNat
  omega

theorem value_le_of_isBcd {n : Nat} (h : IsBcd n) : n / 16 * 10 + n % 16 ≤ 99 := by
  unfold IsBcd at h
  omega

/-- The BCD byte of the value of a BCD byte is the byte. -/
theorem bcdNat_value {n : Nat} (h : IsBcd n) : bcdNat (n / 16 * 10 + n % 16) = n := by
  unfold IsBcd at h
  unfold bcdNat
  omega

theorem bcdVal_bcdByte {v : Nat} (h : v ≤ 99) : bcdVal (bcdByte v) = v := by
  rw [bcdVal_eq, bcdByte_toNat h, value_bcdNat]

/-- A byte operand as a number (30_encoding.md R75). -/
theorem byteArg_toNat_of_lt {a : Word64} (h : a.toNat < 256) : (byteArg a).toNat = a.toNat := by
  rw [byteArg_toNat, Nat.mod_eq_of_lt h]

theorem isValidBCD_byteArg {a : Word64} (h : a.toNat < 256) :
    isValidBCD (byteArg a) = true ↔ IsBcd a.toNat := by
  rw [isValidBCD_iff, byteArg_toNat_of_lt h]

/-! ## TOBCD, FROMBCD and ISBCD -/

theorem toBCD_of_le {v : Word64} (h : v.toNat ≤ 99) :
    toBCD v = .ok { res0 := BitVec.ofNat 64 (bcdNat v.toNat) } := by
  have hres : (bcdByte v.toNat).setWidth 64 = BitVec.ofNat 64 (bcdNat v.toNat) := by
    rw [← bcdByte_toNat h, BitVec.ofNat_toNat]
  rw [toBCD, if_neg (Nat.not_lt.2 h), hres]

theorem toBCD_of_lt {v : Word64} (h : 99 < v.toNat) : toBCD v = .error .bcdError := if_pos h

theorem exec_tobcd_of_le {s : State} (h : s.arg0.toNat ≤ 99) :
    exec .tobcd s = .next (succeeded s (BitVec.ofNat 64 (bcdNat s.arg0.toNat)) 0) :=
  congrArg (fun r => Host.Outcome.next (settle r s)) (toBCD_of_le h)

theorem exec_tobcd_of_lt {s : State} (h : 99 < s.arg0.toNat) :
    exec .tobcd s = .next (failed s .bcdError) :=
  congrArg (fun r => Host.Outcome.next (settle r s)) (toBCD_of_lt h)

/-- A command that checks for a byte operand ends with CommandError on a wider one. -/
theorem onByteArg_of_wide {s : State} (h : 256 ≤ s.arg0.toNat)
    (f : Word64 → Except ErrorKind Result) : onArg byteArgOk f s = failed s .commandError :=
  onArg_of_not (by rw [byteArgOk_iff]; omega) f

theorem onByteArg_of_lt {s : State} (h : s.arg0.toNat < 256)
    (f : Word64 → Except ErrorKind Result) : onArg byteArgOk f s = settle (f s.arg0) s :=
  onArg_of_true ((byteArgOk_iff _).2 h) f

theorem exec_frombcd_of_wide {s : State} (h : 256 ≤ s.arg0.toNat) :
    exec .frombcd s = .next (failed s .commandError) :=
  congrArg Host.Outcome.next (onByteArg_of_wide h _)

theorem exec_frombcd_of_isBcd {s : State} (h : s.arg0.toNat < 256) (hb : IsBcd s.arg0.toNat) :
    exec .frombcd s =
      .next (succeeded s (BitVec.ofNat 64 (s.arg0.toNat / 16 * 10 + s.arg0.toNat % 16)) 0) := by
  have hf : fromBCD (byteArg s.arg0) =
      .ok { res0 := BitVec.ofNat 64 (s.arg0.toNat / 16 * 10 + s.arg0.toNat % 16) } := by
    rw [fromBCD, if_pos ((isValidBCD_byteArg h).2 hb), bcdVal_eq, byteArg_toNat_of_lt h]
  rw [exec, execFrombcd, onByteArg_of_lt h, hf, settle_ok, complete_eq_succeeded]

theorem exec_frombcd_of_not_isBcd {s : State} (h : s.arg0.toNat < 256) (hb : ¬ IsBcd s.arg0.toNat) :
    exec .frombcd s = .next (failed s .bcdError) := by
  have hf : fromBCD (byteArg s.arg0) = .error .bcdError :=
    if_neg (mt (isValidBCD_byteArg h).1 hb)
  rw [exec, execFrombcd, onByteArg_of_lt h, hf, settle_error, errorCompletion_eq_failed]

/-- TOBCD succeeds on the numbers up to 99 only. -/
theorem exec_tobcd_ok {s t : State} (h : exec .tobcd s = .next t) (hc : t.code = .ok) :
    s.arg0.toNat ≤ 99 ∧ t = succeeded s (BitVec.ofNat 64 (bcdNat s.arg0.toNat)) 0 := by
  rcases Nat.lt_or_ge 99 s.arg0.toNat with hlt | hle
  · cases (exec_tobcd_of_lt hlt).symm.trans h
    cases hc
  · cases (exec_tobcd_of_le hle).symm.trans h
    exact ⟨hle, rfl⟩

/-- FROMBCD succeeds on BCD bytes only. -/
theorem exec_frombcd_ok {s t : State} (h : exec .frombcd s = .next t) (hc : t.code = .ok) :
    IsBcd s.arg0.toNat ∧
      t = succeeded s (BitVec.ofNat 64 (s.arg0.toNat / 16 * 10 + s.arg0.toNat % 16)) 0 := by
  rcases Nat.lt_or_ge s.arg0.toNat 256 with hlt | hge
  · by_cases hb : IsBcd s.arg0.toNat
    · cases (exec_frombcd_of_isBcd hlt hb).symm.trans h
      exact ⟨hb, rfl⟩
    · cases (exec_frombcd_of_not_isBcd hlt hb).symm.trans h
      cases hc
  · cases (exec_frombcd_of_wide hge).symm.trans h
    cases hc

/-- Settles O16, by whether ARG0 is above 99. -/
theorem tobcdPacksTwoDigits : Obligations.TobcdPacksTwoDigits :=
  ⟨encoded_of_getElem? (k := 0) (r := ⟨0x10, 0, fun _ => .tobcd⟩) rfl,
    fun _ => ⟨exec_tobcd_of_le, exec_tobcd_of_lt⟩⟩

/-- Settles O17, by the checks of R102 in their order. -/
theorem frombcdUnpacksTwoDigits : Obligations.FrombcdUnpacksTwoDigits :=
  ⟨encoded_of_getElem? (k := 1) (r := ⟨0x11, 0, fun _ => .frombcd⟩) rfl,
    fun _ => ⟨exec_frombcd_of_wide, exec_frombcd_of_isBcd, exec_frombcd_of_not_isBcd⟩⟩

/-- Settles O18: the answer is the truth of `IsBcd`. -/
theorem isbcdAnswersForEveryByte : Obligations.IsbcdAnswersForEveryByte := by
  refine ⟨encoded_of_getElem? (k := 2) (r := ⟨0x12, 0, fun _ => .isbcd⟩) rfl,
    fun s => ⟨fun h => ?_, fun h hb => ?_, fun h hb => ?_⟩⟩
  · exact congrArg Host.Outcome.next (onByteArg_of_wide h _)
  · rw [exec, execIsbcd, onByteArg_of_lt h, if_pos ((isValidBCD_byteArg h).2 hb), settle_ok,
      complete_eq_succeeded]
  · rw [exec, execIsbcd, onByteArg_of_lt h, if_neg (mt (isValidBCD_byteArg h).1 hb), settle_ok,
      complete_eq_succeeded]

/-- Settles O50: each command's success leaves in RES0 an operand on which the other succeeds. -/
theorem tobcdAndFrombcdAreInverse : Obligations.TobcdAndFrombcdAreInverse := by
  refine ⟨fun s t h hc => ?_, fun s t h hc => ?_⟩
  · obtain ⟨hle, rfl⟩ := exec_tobcd_ok h hc
    have hlt := bcdNat_lt hle
    have harg : (BitVec.ofNat 64 (bcdNat s.arg0.toNat)).toNat = bcdNat s.arg0.toNat := by
      rw [BitVec.toNat_ofNat]; omega
    have hval : BitVec.ofNat 64 (bcdNat s.arg0.toNat / 16 * 10 + bcdNat s.arg0.toNat % 16) = s.arg0 := by
      rw [value_bcdNat, BitVec.ofNat_toNat, BitVec.setWidth_eq]
    exact ⟨_, exec_frombcd_of_isBcd (harg.trans_lt hlt) (harg.symm ▸ isBcd_bcdNat hle), rfl,
      (congrArg (fun n => BitVec.ofNat 64 (n / 16 * 10 + n % 16)) harg).trans hval⟩
  · obtain ⟨hb, rfl⟩ := exec_frombcd_ok h hc
    have hle := value_le_of_isBcd hb
    have harg : (BitVec.ofNat 64 (s.arg0.toNat / 16 * 10 + s.arg0.toNat % 16)).toNat =
        s.arg0.toNat / 16 * 10 + s.arg0.toNat % 16 := by
      rw [BitVec.toNat_ofNat]; omega
    have hval : BitVec.ofNat 64 (bcdNat (s.arg0.toNat / 16 * 10 + s.arg0.toNat % 16)) = s.arg0 := by
      rw [bcdNat_value hb, BitVec.ofNat_toNat, BitVec.setWidth_eq]
    exact ⟨_, exec_tobcd_of_le (harg.trans_le hle), rfl,
      (congrArg (fun n => BitVec.ofNat 64 (bcdNat n)) harg).trans hval⟩

end Sys2Proof.Machine
end

section
/-! PROOFS. The digit strings of spec/41_bcd.md: ENCDIG and DECDIG (R104, R105) and laws 3 and 6 of
R108. -/

namespace Sys2Proof.Machine

/-! ## Digits, pads and pairs -/

theorem all_isDigit_iff (x : List Byte) :
    x.all isDigit = true ↔ ∀ b ∈ x, 0x30 ≤ b.toNat ∧ b.toNat ≤ 0x39 := by
  simp only [List.all_eq_true, isDigit_iff]

theorem all_isValidBCD_iff (x : List Byte) :
    x.all isValidBCD = true ↔ ∀ b ∈ x, IsBcd b.toNat := by
  simp only [List.all_eq_true, isValidBCD_iff]

theorem not_all_isDigit {x : List Byte} (h : ∃ b ∈ x, b.toNat < 0x30 ∨ 0x39 < b.toNat) :
    ¬ x.all isDigit = true := by
  obtain ⟨b, hb, hbad⟩ := h
  rw [all_isDigit_iff]
  intro hall
  have := hall b hb
  omega

theorem not_all_isValidBCD {x : List Byte} (h : ∃ b ∈ x, ¬ IsBcd b.toNat) :
    ¬ x.all isValidBCD = true := by
  obtain ⟨b, hb, hbad⟩ := h
  rw [all_isValidBCD_iff]
  exact fun hall => hbad (hall b hb)

theorem asciiOf_digitOf {b : Byte} (h : isDigit b = true) : asciiOf (digitOf b) = b := by
  have hb := (isDigit_iff b).1 h
  apply BitVec.eq_of_toNat_eq
  rw [asciiOf_toNat, digitOf_toNat h]
  omega

theorem digitOf_le {b : Byte} (h : isDigit b = true) : (digitOf b).toNat ≤ 9 := by
  have hb := (isDigit_iff b).1 h
  rw [digitOf_toNat h]
  omega

theorem padDigits_of_even (pad : Config.OddPad) {d : List (BitVec 4)} (h : d.length % 2 = 0) :
    padDigits pad d = d := if_neg (by omega)

theorem padDigits_leading_of_odd {d : List (BitVec 4)} (h : d.length % 2 = 1) :
    padDigits .leading d = 0 :: d := if_pos h

theorem padDigits_trailing_of_odd {d : List (BitVec 4)} (h : d.length % 2 = 1) :
    padDigits .trailing d = d ++ [0] := if_pos h

theorem padDigits_length_even (pad : Config.OddPad) (d : List (BitVec 4)) :
    (padDigits pad d).length % 2 = 0 := by
  rw [padDigits_length]
  omega

theorem eq_zero_or_mem_of_mem_padDigits {pad : Config.OddPad} {d : List (BitVec 4)} {c : BitVec 4}
    (h : c ∈ padDigits pad d) : c = 0 ∨ c ∈ d := by
  rcases Nat.mod_two_eq_zero_or_one d.length with he | ho
  · rw [padDigits_of_even pad he] at h
    exact .inr h
  · cases pad with
    | leading => simpa [padDigits_leading_of_odd ho] using h
    | trailing => simpa [padDigits_trailing_of_odd ho, or_comm] using h

theorem padNat_of_even (pad : Config.OddPad) {d : List Nat} (h : d.length % 2 = 0) :
    padNat pad d = d := if_pos h

theorem padNat_leading_of_odd {d : List Nat} (h : d.length % 2 = 1) :
    padNat .leading d = 0 :: d := if_neg (by omega)

theorem padNat_trailing_of_odd {d : List Nat} (h : d.length % 2 = 1) :
    padNat .trailing d = d ++ [0] := if_neg (by omega)

/-- The pad of the model, as numbers, is the pad of the statements. -/
theorem map_toNat_padDigits (pad : Config.OddPad) (d : List (BitVec 4)) :
    (padDigits pad d).map BitVec.toNat = padNat pad (d.map BitVec.toNat) := by
  have hlen : (d.map BitVec.toNat).length = d.length := List.length_map ..
  rcases Nat.mod_two_eq_zero_or_one d.length with he | ho
  · rw [padDigits_of_even pad he, padNat_of_even pad (hlen.symm ▸ he)]
  · cases pad with
    | leading => rw [padDigits_leading_of_odd ho, padNat_leading_of_odd (hlen.symm ▸ ho)]; rfl
    | trailing =>
      rw [padDigits_trailing_of_odd ho, padNat_trailing_of_odd (hlen.symm ▸ ho), List.map_append]
      rfl

/-- Byte `j` of packed digits is digits `2j` and `2j + 1`. -/
theorem packDigits_getD : ∀ (d : List (BitVec 4)) (j : Nat), j < (packDigits d).length →
    (packDigits d).getD j 0 = d.getD (2 * j) 0 ++ d.getD (2 * j + 1) 0
  | [], j, h | [_], j, h => absurd h (Nat.not_lt_zero j)
  | _ :: _ :: _, 0, _ => rfl
  | _ :: _ :: d, j + 1, h => packDigits_getD d j (Nat.lt_of_succ_lt_succ h)

/-- Decimal digits pack into BCD bytes. -/
theorem isBcd_of_mem_packDigits : ∀ {d : List (BitVec 4)}, (∀ c ∈ d, c.toNat ≤ 9) →
    ∀ b ∈ packDigits d, IsBcd b.toNat
  | [], _, _, hb | [_], _, _, hb => absurd hb List.not_mem_nil
  | h :: l :: d, hd, b, hb => by
    rcases List.mem_cons.1 hb with rfl | hb
    · have hh : h.toNat ≤ 9 := hd h (by simp)
      have hl : l.toNat ≤ 9 := hd l (by simp)
      rw [nibbles_toNat, IsBcd]
      omega
    · exact isBcd_of_mem_packDigits (fun c hc => hd c (by simp [hc])) b hb

/-- The ASCII digits of a byte, high nibble first (R105). -/
def asciiPair (b : Byte) : List Byte := [asciiOf (hiNibble b), asciiOf (loNibble b)]

/-- An even number of digits is unpacked as it was packed. -/
theorem flatMap_asciiPair_packDigits : ∀ {d : List (BitVec 4)}, d.length % 2 = 0 →
    (packDigits d).flatMap asciiPair = d.map asciiOf
  | [], _ => rfl
  | [_], h => absurd h (by simp)
  | h :: l :: d, hd => by
    have ih := flatMap_asciiPair_packDigits (d := d) (by
      simp only [List.length_cons] at hd
      omega)
    simp only [packDigits, List.flatMap_cons, ih, asciiPair, hiNibble_append, loNibble_append,
      List.map_cons, List.cons_append, List.nil_append]

/-- Bytes `2j` and `2j + 1` of unpacked bytes are the two digits of byte `j`. -/
theorem flatMap_asciiPair_getD : ∀ (x : List Byte) (j : Nat), j < x.length →
    (x.flatMap asciiPair).getD (2 * j) 0 = asciiOf (hiNibble (x.getD j 0)) ∧
      (x.flatMap asciiPair).getD (2 * j + 1) 0 = asciiOf (loNibble (x.getD j 0))
  | [], j, h => absurd h (Nat.not_lt_zero j)
  | _ :: _, 0, _ => ⟨rfl, rfl⟩
  | _ :: x, j + 1, h => flatMap_asciiPair_getD x j (Nat.lt_of_succ_lt_succ h)

/-! ## The two functions and their commands, one equation per case -/

theorem encodeDigits_of_digits (pad : Config.OddPad) {x : List Byte} (h : x.all isDigit = true) :
    encodeDigits pad x = .ok (packDigits (padDigits pad (x.map digitOf))) := if_pos h

theorem encodeDigits_of_not_digits (pad : Config.OddPad) {x : List Byte}
    (h : ¬ x.all isDigit = true) : encodeDigits pad x = .error .bcdError := if_neg h

theorem encodeDigits_eq_ok {pad : Config.OddPad} {x out : List Byte}
    (h : encodeDigits pad x = .ok out) :
    x.all isDigit = true ∧ out = packDigits (padDigits pad (x.map digitOf)) := by
  by_cases hd : x.all isDigit = true
  · cases (encodeDigits_of_digits pad hd).symm.trans h
    exact ⟨hd, rfl⟩
  · cases (encodeDigits_of_not_digits pad hd).symm.trans h

theorem decodeDigits_of_bcd {x : List Byte} (h : x.all isValidBCD = true) :
    decodeDigits x = .ok (x.flatMap asciiPair) := if_pos h

theorem decodeDigits_of_not_bcd {x : List Byte} (h : ¬ x.all isValidBCD = true) :
    decodeDigits x = .error .bcdError := if_neg h

theorem exec_encdig_of_holds {s : State} {x : List Byte} (h : Holds s.ibuf x) :
    exec (.encdig x.length) s =
      .next (settle ((encodeDigits Config.oddPad x).map outputOnly) s) := onInput_of_holds h _

theorem exec_decdig_of_holds {s : State} {x : List Byte} (h : Holds s.ibuf x) :
    exec (.decdig x.length) s = .next (settle ((decodeDigits x).map outputOnly) s) :=
  onInput_of_holds h _

/-- The digits of ASCII digits, as numbers. -/
theorem map_toNat_digitOf {x : List Byte} (h : x.all isDigit = true) :
    (x.map digitOf).map BitVec.toNat = x.map fun b => b.toNat - 0x30 := by
  rw [List.map_map]
  exact List.map_congr_left fun b hb => digitOf_toNat (List.all_eq_true.1 h b hb)

theorem map_asciiOf_digitOf {x : List Byte} (h : x.all isDigit = true) :
    (x.map digitOf).map asciiOf = x := by
  rw [List.map_map]
  exact (List.map_congr_left fun b hb => asciiOf_digitOf (List.all_eq_true.1 h b hb)).trans
    (List.map_id x)

/-- Whatever ENCDIG encodes is BCD bytes (R108, law 6). -/
theorem isBcd_of_encodeDigits {pad : Config.OddPad} {x out : List Byte}
    (h : encodeDigits pad x = .ok out) : ∀ b ∈ out, IsBcd b.toNat := by
  obtain ⟨hx, rfl⟩ := encodeDigits_eq_ok h
  refine isBcd_of_mem_packDigits fun c hc => ?_
  rcases eq_zero_or_mem_of_mem_padDigits hc with rfl | hc
  · decide
  · obtain ⟨b, hb, rfl⟩ := List.mem_map.1 hc
    exact digitOf_le (List.all_eq_true.1 hx b hb)

/-- Decoding what was encoded gives the padded digits (R108, law 3). -/
theorem decodeDigits_of_encodeDigits {pad : Config.OddPad} {x out : List Byte}
    (h : encodeDigits pad x = .ok out) :
    decodeDigits out = .ok ((padDigits pad (x.map digitOf)).map asciiOf) := by
  rw [decodeDigits_of_bcd ((all_isValidBCD_iff out).2 (isBcd_of_encodeDigits h)),
    (encodeDigits_eq_ok h).2, flatMap_asciiPair_packDigits (padDigits_length_even pad _)]

/-! ## The obligations -/

/-- Settles O19: output byte `j` is the packed pair `j` of the padded digits. -/
theorem encdigPacksDigitPairs : Obligations.EncdigPacksDigitPairs := by
  refine ⟨encoded_of_getElem? (k := 3) (r := ⟨0x13, 512, .encdig⟩) rfl,
    fun s x hx => ⟨fun hd => ?_, fun hd => ?_⟩⟩
  · have hall := (all_isDigit_iff x).2 hd
    rw [exec_encdig_of_holds hx, encodeDigits_of_digits _ hall]
    refine ⟨_, _, rfl, stored_complete_outputOnly _ s, ?_⟩
    rw [← map_toNat_digitOf hall, ← map_toNat_padDigits]
    generalize hdig : padDigits Config.oddPad (x.map digitOf) = d
    have heven : d.length % 2 = 0 := hdig ▸ padDigits_length_even _ _
    refine ⟨by rw [packDigits_length, List.length_map]; omega, fun j hj => ?_⟩
    have hget (i : Nat) : (d.map BitVec.toNat).getD i 0 = (d.getD i 0).toNat :=
      List.getD_map d 0#4 BitVec.toNat
    rw [packDigits_getD d j hj, nibbles_toNat, hget, hget, Nat.mul_comm]
  · rw [exec_encdig_of_holds hx, encodeDigits_of_not_digits _ (not_all_isDigit hd)]
    rfl

/-- Settles O20: output bytes `2j` and `2j + 1` are the digits of input byte `j`. -/
theorem decdigUnpacksDigitPairs : Obligations.DecdigUnpacksDigitPairs := by
  refine ⟨encoded_of_getElem? (k := 4) (r := ⟨0x14, 256, .decdig⟩) rfl,
    fun s x hx => ⟨fun hb => ?_, fun hb => ?_⟩⟩
  · rw [exec_decdig_of_holds hx, decodeDigits_of_bcd ((all_isValidBCD_iff x).2 hb)]
    refine ⟨_, _, rfl, stored_complete_outputOnly _ s, flatMap_pair_length _ _ x, fun j hj => ?_⟩
    obtain ⟨hhi, hlo⟩ := flatMap_asciiPair_getD x j hj
    rw [hhi, hlo, asciiOf_toNat, asciiOf_toNat, hiNibble_toNat, loNibble_toNat]
    exact ⟨rfl, rfl⟩
  · rw [exec_decdig_of_holds hx, decodeDigits_of_not_bcd (not_all_isValidBCD hb)]
    rfl

/-- Settles O51: what comes back is the padded digits, by the number of digits and the pad. -/
theorem decdigInvertsEncdigUpToThePad : Obligations.DecdigInvertsEncdigUpToThePad := by
  intro pad x out h
  have hx := map_asciiOf_digitOf (encodeDigits_eq_ok h).1
  have hlen : (x.map digitOf).length = x.length := List.length_map ..
  refine ⟨isBcd_of_encodeDigits h, fun he => ?_, fun ho hp => ?_, fun ho hp => ?_⟩ <;>
    rw [decodeDigits_of_encodeDigits h]
  · rw [padDigits_of_even pad (hlen.symm ▸ he), hx]
  · rw [hp, padDigits_leading_of_odd (hlen.symm ▸ ho), List.map_cons, hx]
    rfl
  · rw [hp, padDigits_trailing_of_odd (hlen.symm ▸ ho), List.map_append, hx]
    rfl

end Sys2Proof.Machine
end

section
/-! PROOFS. The integers of spec/41_bcd.md: ENCINT and DECINT (R106, R107) and laws 4 to 6 of R108. -/

namespace Sys2Proof.Machine

/-! ## Base-100 numbers -/

/-- The base-100 number of bytes, read most significant first (R107). -/
def bcdNumber (x : List Byte) : Nat := x.foldl (fun n b => n * 100 + bcdVal b) 0

theorem bcdNumber_append_singleton (x : List Byte) (b : Byte) :
    bcdNumber (x ++ [b]) = bcdNumber x * 100 + bcdVal b := by
  simp only [bcdNumber, List.foldl_append, List.foldl_cons, List.foldl_nil]

/-- The bytes' number is the sum of their values times their weights. -/
theorem bcdNumber_eq_sum (x : List Byte) :
    bcdNumber x = ((List.range x.length).map fun i =>
      bcdVal (x.getD i 0) * 100 ^ (x.length - 1 - i)).sum := by
  induction x using List.reverseRecOn with
  | nil => rfl
  | append_singleton x b ih =>
    have hterm : ∀ i ∈ List.range x.length,
        bcdVal ((x ++ [b]).getD i 0) * 100 ^ (x.length + 1 - 1 - i) =
          bcdVal (x.getD i 0) * 100 ^ (x.length - 1 - i) * 100 := by
      intro i hi
      have hi := List.mem_range.1 hi
      rw [List.getD_append _ _ _ _ hi, Nat.mul_assoc, ← Nat.pow_succ,
        show x.length + 1 - 1 - i = x.length - 1 - i + 1 by omega]
    have hlast : (x ++ [b]).getD x.length 0 = b := by simp
    rw [bcdNumber_append_singleton, ih, List.length_append, List.length_singleton, List.range_succ,
      List.map_append, List.sum_append, List.map_congr_left hterm, List.sum_map_mul_right,
      List.map_singleton, List.sum_singleton, hlast]
    simp

/-- `k` BCD bytes give a number below `100 ^ k`. -/
theorem bcdNumber_lt {x : List Byte} (h : ∀ b ∈ x, IsBcd b.toNat) :
    bcdNumber x < 100 ^ x.length := by
  induction x using List.reverseRecOn with
  | nil => decide
  | append_singleton x b ih =>
    have hx := ih fun c hc => h c (by simp [hc])
    have hb : bcdVal b ≤ 99 := by
      rw [bcdVal_eq]
      exact value_le_of_isBcd (h b (by simp))
    rw [bcdNumber_append_singleton, List.length_append, List.length_singleton, Nat.pow_succ]
    omega

/-- The first `j` of the `k` base-100 digits of a number are the number without its last `k - j`. -/
theorem bcdNumber_map_range {n k : Nat} (h : n < 100 ^ k) : ∀ {j : Nat}, j ≤ k →
    bcdNumber ((List.range j).map fun i => bcdByte (n / 100 ^ (k - 1 - i) % 100)) =
      n / 100 ^ (k - j)
  | 0, _ => (Nat.div_eq_of_lt h).symm
  | j + 1, hj => by
    have ih := bcdNumber_map_range h (Nat.le_of_succ_le hj)
    have hdiv : n / 100 ^ (k - j) = n / 100 ^ (k - 1 - j) / 100 := by
      rw [Nat.div_div_eq_div_mul, ← Nat.pow_succ, show (k - 1 - j).succ = k - j by omega]
    have hexp : k - (j + 1) = k - 1 - j := by omega
    rw [List.range_succ, List.map_append, List.map_singleton, bcdNumber_append_singleton, ih,
      bcdVal_bcdByte (by omega), hdiv, hexp]
    omega

/-! ## The two functions and their commands, one equation per case -/

theorem encodeInt_of_lt {n k : Nat} (h : n < 100 ^ k) : encodeInt n k =
    .ok ((List.range k).map fun i => bcdByte (n / 100 ^ (k - 1 - i) % 100)) :=
  if_neg (Nat.not_le.2 h)

theorem encodeInt_of_le {n k : Nat} (h : 100 ^ k ≤ n) : encodeInt n k = .error .bcdError := if_pos h

theorem encodeInt_eq_ok {n k : Nat} {out : List Byte} (h : encodeInt n k = .ok out) :
    n < 100 ^ k ∧ out = (List.range k).map fun i => bcdByte (n / 100 ^ (k - 1 - i) % 100) := by
  rcases Nat.lt_or_ge n (100 ^ k) with hlt | hle
  · cases (encodeInt_of_lt hlt).symm.trans h
    exact ⟨hlt, rfl⟩
  · cases (encodeInt_of_le hle).symm.trans h

theorem decodeInt_of_bcd {x : List Byte} (h : x.all isValidBCD = true) :
    decodeInt x = .ok (bcdNumber x) := if_pos h

theorem decodeInt_of_not_bcd {x : List Byte} (h : ¬ x.all isValidBCD = true) :
    decodeInt x = .error .bcdError := if_neg h

theorem exec_decint_of_holds {s : State} {x : List Byte} (h : Holds s.ibuf x) :
    exec (.decint x.length) s =
      .next (settle ((decodeInt x).map fun n => { res0 := BitVec.ofNat 64 n }) s) :=
  onInput_of_holds h _

/-! ## Base-100 digits as pairs of decimal digits -/

/-- Packing pairs up the values of a function on the numbers below `2k`. -/
theorem packDigits_map_range (f : Nat → BitVec 4) (k : Nat) :
    packDigits ((List.range (2 * k)).map f) =
      (List.range k).map fun i => f (2 * i) ++ f (2 * i + 1) := by
  induction k generalizing f with
  | zero => rfl
  | succ k ih =>
    rw [Nat.mul_succ, List.range_succ_eq_map, List.range_succ_eq_map, List.range_succ_eq_map]
    simp only [List.map_cons, List.map_map, packDigits]
    exact congrArg _ (ih (f ∘ (· + 2)))

/-- The ASCII code of the decimal digit `i` of `2k` of a number, the most significant first (R108,
law 5). -/
def decimalAscii (n k i : Nat) : Byte := BitVec.ofNat 8 (0x30 + n / 10 ^ (2 * k - 1 - i) % 10)

theorem isDigit_decimalAscii (n k i : Nat) : isDigit (decimalAscii n k i) = true := by
  rw [isDigit_iff, decimalAscii, BitVec.toNat_ofNat]
  omega

theorem digitOf_decimalAscii (n k i : Nat) :
    digitOf (decimalAscii n k i) = BitVec.ofNat 4 (n / 10 ^ (2 * k - 1 - i) % 10) := by
  apply BitVec.eq_of_toNat_eq
  rw [digitOf_toNat (isDigit_decimalAscii n k i), decimalAscii, BitVec.toNat_ofNat,
    BitVec.toNat_ofNat]
  omega

/-- The BCD byte of a base-100 digit is its two decimal digits side by side. -/
theorem bcdByte_eq_decimal_pair {n k i : Nat} (h : i < k) :
    bcdByte (n / 100 ^ (k - 1 - i) % 100) =
      digitOf (decimalAscii n k (2 * i)) ++ digitOf (decimalAscii n k (2 * i + 1)) := by
  have hpow : 100 ^ (k - 1 - i) = 10 ^ (2 * (k - 1 - i)) := Nat.pow_mul 10 2 _ ▸ rfl
  have hhi : n / 10 ^ (2 * k - 1 - 2 * i) = n / 100 ^ (k - 1 - i) / 10 := by
    rw [hpow, Nat.div_div_eq_div_mul, ← Nat.pow_succ,
      show (2 * (k - 1 - i)).succ = 2 * k - 1 - 2 * i by omega]
  have hlo : n / 10 ^ (2 * k - 1 - (2 * i + 1)) = n / 100 ^ (k - 1 - i) := by
    rw [hpow, show 2 * k - 1 - (2 * i + 1) = 2 * (k - 1 - i) by omega]
  rw [digitOf_decimalAscii, digitOf_decimalAscii, hhi, hlo, bcdByte,
    show n / 100 ^ (k - 1 - i) % 100 / 10 = n / 100 ^ (k - 1 - i) / 10 % 10 by omega,
    show n / 100 ^ (k - 1 - i) % 100 % 10 = n / 100 ^ (k - 1 - i) % 10 by omega]

/-- The encoding of an integer is the encoding of its decimal digits (R108, law 5). -/
theorem encodeDigits_decimalAscii (pad : Config.OddPad) (n k : Nat) :
    encodeDigits pad ((List.range (2 * k)).map (decimalAscii n k)) =
      .ok ((List.range k).map fun i => bcdByte (n / 100 ^ (k - 1 - i) % 100)) := by
  have hdigits : ((List.range (2 * k)).map (decimalAscii n k)).all isDigit = true := by
    simp [isDigit_decimalAscii]
  have hbytes : ((List.range k).map fun i => bcdByte (n / 100 ^ (k - 1 - i) % 100)) =
      (List.range k).map fun i =>
        digitOf (decimalAscii n k (2 * i)) ++ digitOf (decimalAscii n k (2 * i + 1)) :=
    List.map_congr_left fun i hi => bcdByte_eq_decimal_pair (List.mem_range.1 hi)
  rw [encodeDigits_of_digits pad hdigits, List.map_map, padDigits_of_even pad (by simp),
    packDigits_map_range, hbytes]
  rfl

/-! ## The obligations -/

/-- Settles O21, by whether ARG0 fits in `k` base-100 digits. -/
theorem encintWritesBase100Digits : Obligations.EncintWritesBase100Digits := by
  refine ⟨encoded_of_getElem? (k := 5) (r := ⟨0x15, 8, .encint⟩) rfl,
    fun s k => ⟨fun h => ?_, fun h => ?_⟩⟩
  · rw [exec, execEncint, encodeInt_of_lt h]
    refine ⟨_, _, rfl, stored_complete_outputOnly _ s, by simp, fun i hi => ?_⟩
    rw [List.getD_eq_getElem _ _ (by simpa using hi), List.getElem_map, List.getElem_range,
      bcdByte_toNat (by omega)]
  · rw [exec, execEncint, encodeInt_of_le h]
    rfl

/-- Settles O22: eight BCD bytes stay below `100 ^ 8`, so the sum is exact in 64 bits. -/
theorem decintReadsBase100Digits : Obligations.DecintReadsBase100Digits := by
  refine ⟨encoded_of_getElem? (k := 6) (r := ⟨0x16, 8, .decint⟩) rfl,
    fun s x hx hlen => ⟨fun hb => ?_, fun hb => ?_⟩⟩
  · have hlt : bcdNumber x < 2 ^ 64 :=
      calc bcdNumber x < 100 ^ x.length := bcdNumber_lt hb
        _ ≤ 100 ^ 8 := Nat.pow_le_pow_right (by decide) hlen
        _ < 2 ^ 64 := by decide
    rw [exec_decint_of_holds hx, decodeInt_of_bcd ((all_isValidBCD_iff x).2 hb)]
    refine ⟨BitVec.ofNat 64 (bcdNumber x), rfl, ?_⟩
    rw [BitVec.toNat_ofNat, Nat.mod_eq_of_lt hlt, bcdNumber_eq_sum]
    simp only [bcdVal_eq]
  · rw [exec_decint_of_holds hx, decodeInt_of_not_bcd (not_all_isValidBCD hb)]
    rfl

/-- Settles O52: the bytes are BCD because they are ENCDIG's of the decimal digits, and reading all `k`
of them gives the integer back. -/
theorem decintInvertsEncint : Obligations.DecintInvertsEncint := by
  intro n k out h
  obtain ⟨hlt, rfl⟩ := encodeInt_eq_ok h
  have hbcd := isBcd_of_encodeDigits (encodeDigits_decimalAscii .leading n k)
  refine ⟨?_, hbcd, fun pad => encodeDigits_decimalAscii pad n k⟩
  rw [decodeInt_of_bcd ((all_isValidBCD_iff _).2 hbcd), bcdNumber_map_range hlt le_rfl, Nat.sub_self,
    Nat.pow_zero, Nat.div_one]

end Sys2Proof.Machine
end

section
/-! PROOFS. The family of spec/42_checksum.md: the checksum of R130 over numbers, CSUM as an equation of
whole states, and the laws of R132. -/

namespace Sys2Proof.Machine

/-! ## The checksum, over numbers -/

/-- One shift over bit vectors is the shift of R130 over numbers. -/
theorem crcShift_toNat (c : Byte) : (crcShift c).toNat = crcShiftNat c.toNat := by
  have hbit : c.getLsbD 7 = decide (128 ≤ c.toNat) := BitVec.msb_eq_decide c
  have hshl : (c <<< 1).toNat = 2 * c.toNat % 256 := by
    rw [BitVec.toNat_shiftLeft, Nat.shiftLeft_eq, Nat.mul_comm]
  rw [crcShift, crcShiftNat, hbit]
  by_cases h : 128 ≤ c.toNat
  · simp only [h, decide_true, if_true, BitVec.toNat_xor, hshl]
    rfl
  · simp only [h, decide_false, Bool.false_eq_true, if_false, hshl]
    omega

/-- The shifts of `crcShifts` are an iteration: the last one can be taken off as well as the first. -/
theorem crcShifts_succ_last (n : Nat) (c : Byte) : crcShifts (n + 1) c = crcShift (crcShifts n c) := by
  induction n generalizing c with
  | zero => rfl
  | succ n ih => exact ih (crcShift c)

theorem crcShifts_toNat (n : Nat) (c : Byte) :
    (crcShifts n c).toNat = Nat.repeat crcShiftNat n c.toNat := by
  induction n with
  | zero => rfl
  | succ n ih => rw [crcShifts_succ_last, crcShift_toNat, ih, Nat.repeat]

theorem crcByte_toNat (c b : Byte) :
    (crcByte c b).toNat = Nat.repeat crcShiftNat 8 (c.toNat ^^^ b.toNat) := by
  rw [crcByte, crcShifts_toNat, BitVec.toNat_xor]

/-- The register after a region, from any start. -/
theorem foldl_crcByte_toNat (r : List Byte) (c : Byte) :
    (r.foldl crcByte c).toNat =
      (r.map fun b => b.toNat).foldl (fun c b => Nat.repeat crcShiftNat 8 (c ^^^ b)) c.toNat := by
  induction r generalizing c with
  | nil => rfl
  | cons b r ih => rw [List.foldl_cons, ih, crcByte_toNat, List.map_cons, List.foldl_cons]

/-- The mask keeps the register's low 7 bits. -/
theorem checksum_toNat_eq_mod (r : List Byte) :
    (checksum r).toNat = (r.foldl crcByte 0).toNat % 128 :=
  (BitVec.toNat_and _ _).trans (Nat.and_two_pow_sub_one_eq_mod _ 7)

theorem checksum_toNat (r : List Byte) :
    (checksum r).toNat = checksumNat (r.map fun b => b.toNat) := by
  rw [checksum_toNat_eq_mod, foldl_crcByte_toNat]
  rfl

theorem exec_csum_of_holds {s : State} {x : List Byte} (h : Holds s.ibuf x) :
    exec (.csum x.length) s = .next (settle (.ok { res0 := (checksum x).setWidth 64 }) s) :=
  onInput_of_holds h _

/-! ## The two low bits of the register -/

/-- Bits 1:0 of POLY are 0, so a shift moves bit 0 to bit 1 and a 0 into bit 0 (R132, law 3). -/
theorem crcShiftNat_mod_four (c : Nat) : crcShiftNat c % 4 = 2 * c % 4 := by
  rw [crcShiftNat]
  split
  · rw [Nat.xor_mod_two_pow (n := 2), Nat.xor_zero]
    omega
  · rfl

/-- Two shifts clear bits 1:0, whatever was there. -/
theorem crcShiftNat_crcShiftNat_mod_four (c : Nat) : crcShiftNat (crcShiftNat c) % 4 = 0 := by
  have h₁ := crcShiftNat_mod_four c
  have h₂ := crcShiftNat_mod_four (crcShiftNat c)
  omega

theorem crcByte_mod_four (c b : Byte) : (crcByte c b).toNat % 4 = 0 := by
  rw [crcByte_toNat, Nat.repeat, Nat.repeat, crcShiftNat_crcShiftNat_mod_four]

theorem checksum_lt (r : List Byte) : (checksum r).toNat < 128 := by
  rw [checksum_toNat_eq_mod]
  exact Nat.mod_lt _ (by decide)

theorem foldl_crcByte_mod_four (r : List Byte) {c : Byte} (h : c.toNat % 4 = 0) :
    (r.foldl crcByte c).toNat % 4 = 0 := by
  induction r generalizing c with
  | nil => exact h
  | cons b r ih => exact ih (crcByte_mod_four c b)

theorem checksum_mod_four (r : List Byte) : (checksum r).toNat % 4 = 0 := by
  rw [checksum_toNat_eq_mod, Nat.mod_mod_of_dvd _ (by decide)]
  exact foldl_crcByte_mod_four r rfl

/-! ## Linearity over xor -/

/-- A shift xors in a constant that depends on one bit of the register only (R132, law 4). -/
theorem crcShift_eq_xor (c : Byte) :
    crcShift c = (c <<< 1) ^^^ (if c.getLsbD 7 then Config.poly else 0) := by
  rw [crcShift]
  split
  · rfl
  · exact (BitVec.xor_zero).symm

/-- The constant of a shift is linear in that bit. -/
theorem ite_poly_xor (p q : Bool) :
    (if p ^^ q then Config.poly else 0) =
      (if p then Config.poly else 0) ^^^ (if q then Config.poly else 0) := by
  cases p <;> cases q <;> rfl

theorem crcShift_xor (c d : Byte) : crcShift (c ^^^ d) = crcShift c ^^^ crcShift d := by
  rw [crcShift_eq_xor, crcShift_eq_xor, crcShift_eq_xor, BitVec.shiftLeft_xor_distrib,
    BitVec.getLsbD_xor, ite_poly_xor]
  ac_rfl

theorem crcShifts_xor (n : Nat) (c d : Byte) :
    crcShifts n (c ^^^ d) = crcShifts n c ^^^ crcShifts n d := by
  induction n with
  | zero => rfl
  | succ n ih => rw [crcShifts_succ_last, ih, crcShift_xor, ← crcShifts_succ_last, ← crcShifts_succ_last]

theorem crcByte_xor (c d a b : Byte) : crcByte (c ^^^ d) (a ^^^ b) = crcByte c a ^^^ crcByte d b := by
  have hswap : c ^^^ d ^^^ (a ^^^ b) = c ^^^ a ^^^ (d ^^^ b) := by ac_rfl
  rw [crcByte, hswap, crcShifts_xor, ← crcByte, ← crcByte]

/-- The register is linear in its start and the region together. -/
theorem foldl_crcByte_xor : ∀ {a b : List Byte}, a.length = b.length → ∀ c d : Byte,
    (List.zipWith (fun x y => x ^^^ y) a b).foldl crcByte (c ^^^ d) =
      a.foldl crcByte c ^^^ b.foldl crcByte d
  | [], [], _, _, _ => rfl
  | x :: a, y :: b, h, c, d => by
    rw [List.zipWith_cons_cons, List.foldl_cons, crcByte_xor,
      foldl_crcByte_xor (Nat.succ.inj h), List.foldl_cons, List.foldl_cons]

theorem xor_and_csMask (c d : Byte) :
    (c ^^^ d) &&& Config.csMask = (c &&& Config.csMask) ^^^ (d &&& Config.csMask) := by
  ext i
  simp only [BitVec.getElem_and, BitVec.getElem_xor, Bool.and_xor_distrib_right]

theorem checksum_xor {a b : List Byte} (h : a.length = b.length) :
    checksum (List.zipWith (fun x y => x ^^^ y) a b) = checksum a ^^^ checksum b := by
  rw [checksum, checksum, checksum, ← xor_and_csMask, ← foldl_crcByte_xor h 0 0]
  rfl

/-- A zero register stays zero through a zero byte (R132, law 6). -/
theorem checksum_zero_cons (r : List Byte) : checksum (0 :: r) = checksum r := by
  have hzero : crcByte 0 0 = 0 := by decide
  rw [checksum, List.foldl_cons, hzero, ← checksum]

/-! ## The obligations -/

/-- Settles O23: the algorithm by induction over the region, CSUM by what IBUF holds. -/
theorem csumReturnsTheDocumentedChecksum : Obligations.CsumReturnsTheDocumentedChecksum := by
  refine ⟨checksum_toNat, encoded_of_getElem? (k := 7) (r := ⟨0x20, 512, .csum⟩) rfl, fun s x hx => ?_⟩
  rw [exec_csum_of_holds hx, ← checksum_toNat, BitVec.ofNat_toNat]
  rfl

/-- Settles O53: the mask bounds the checksum, two shifts clear its two low bits, and every shift is
linear over xor. -/
theorem checksumLaws : Obligations.ChecksumLaws :=
  ⟨rfl, fun r => ⟨checksum_lt r, checksum_mod_four r⟩, fun _ _ => checksum_xor, checksum_zero_cons⟩

end Sys2Proof.Machine
end

section
/-! PROOFS. The family of spec/43_address.md: an address value as its tag and five wire bytes, each codec
function by its cases, each command as an equation of whole states, and laws 1 to 3 of R148. -/

namespace Sys2Proof.Machine

/-! ## An address value is its tag and its five wire bytes -/

/-- Wire byte `i` of a value made of five bytes is byte `i` (R83). -/
theorem avByte_avOf (tag : Bool) (a0 a1 a2 a3 a4 : Byte) {i : Nat} (h : i < 5) :
    avByte (avOf tag a0 a1 a2 a3 a4) i = [a0, a1, a2, a3, a4].getD i 0 := by
  apply BitVec.eq_of_toNat_eq
  rw [avByte_toNat, avOf_toNat, addrByteNat]
  simp only [wireNat, List.foldl]
  interval_cases i <;> simp only [List.getD_cons_zero, List.getD_cons_succ] <;> split <;> omega

theorem avByte_zero_avOf (tag : Bool) (a0 a1 a2 a3 a4 : Byte) :
    avByte (avOf tag a0 a1 a2 a3 a4) 0 = a0 := avByte_avOf tag a0 a1 a2 a3 a4 (by decide)

theorem adminCodeOk_avOf (tag : Bool) (a0 a1 a2 a3 a4 : Byte) :
    adminCodeOk (avOf tag a0 a1 a2 a3 a4) = (isValidBCD a0 && isValidBCD a1 && isValidBCD a2) := by
  simp [adminCodeOk, avByte_avOf]

theorem avBytes_avOf (tag : Bool) (a0 a1 a2 a3 a4 : Byte) :
    avBytes (avOf tag a0 a1 a2 a3 a4) = [a0, a1, a2, a3, a4] := by
  simp [avBytes, avByte_avOf]

/-- The wire bytes leave the bits from the tag on free. -/
theorem wireNat_five_lt (a0 a1 a2 a3 a4 : Byte) : wireNat [a0, a1, a2, a3, a4] < 2 ^ 40 := by
  simp only [wireNat, List.foldl]
  omega

theorem avTag_avOf (tag : Bool) (a0 a1 a2 a3 a4 : Byte) : avTag (avOf tag a0 a1 a2 a3 a4) = tag := by
  have hlt := wireNat_five_lt a0 a1 a2 a3 a4
  rw [avTag_eq, avOf_toNat]
  cases tag <;> simp only [if_true, Bool.false_eq_true, if_false, decide_eq_true_eq,
    decide_eq_false_iff_not] <;> omega

/-- A value made of five bytes is well-formed when a coded one begins with 0 (R75). -/
theorem avOk_avOf {tag : Bool} {a0 : Byte} (h : tag = true → a0 = 0) (a1 a2 a3 a4 : Byte) :
    avOk (avOf tag a0 a1 a2 a3 a4) = true := by
  have hlt := wireNat_five_lt a0 a1 a2 a3 a4
  have hhigh : (avOf tag a0 a1 a2 a3 a4).extractLsb' 41 23 = 0 := by
    apply BitVec.eq_of_toNat_eq
    rw [BitVec.extractLsb'_toNat, avOf_toNat, Nat.shiftRight_eq_div_pow]
    split <;> simp <;> omega
  rw [avOk, hhigh, avTag_avOf, avByte_zero_avOf]
  cases tag
  · rfl
  · rw [h rfl]
    rfl

/-- A well-formed value is the value made of its tag and its wire bytes. -/
theorem avOf_avByte {av : Word64} (h : avOk av = true) :
    avOf (avTag av) (avByte av 0) (avByte av 1) (avByte av 2) (avByte av 3) (avByte av 4) = av := by
  obtain ⟨hlt, -⟩ := (avOk_iff av).1 h
  apply BitVec.eq_of_toNat_eq
  rw [avOf_toNat, avTag_eq]
  simp only [wireNat, List.foldl, avByte_toNat, addrByteNat, decide_eq_true_eq]
  split <;> omega

/-- A well-formed coded value has a 0 where an admin value has its first byte (R75). -/
theorem avByte_zero_of_coded {av : Word64} (h : avOk av = true) (ht : avTag av = true) :
    avByte av 0 = Config.codedTag := by
  obtain ⟨-, hfirst⟩ := Bool.and_eq_true_iff.1 h
  rw [ht] at hfirst
  exact eq_of_beq hfirst

/-! ## The tag and the bytes as numbers -/

/-- The tag of a well-formed value says whether it reaches `2 ^ 40`. -/
theorem avTag_iff {av : Word64} (h : AddrFormed av.toNat) : avTag av = true ↔ 2 ^ 40 ≤ av.toNat := by
  obtain ⟨hlt, -⟩ := h
  rw [avTag_eq, decide_eq_true_eq]
  omega

theorem avTag_of_lt {av : Word64} (h : av.toNat < 2 ^ 40) : avTag av = false := by
  rw [avTag_eq, decide_eq_false_iff_not]
  omega

/-- Every value without a tag is well-formed (R75). -/
theorem addrFormed_of_lt {n : Nat} (h : n < 2 ^ 40) : AddrFormed n :=
  ⟨by omega, fun hge => absurd h (Nat.not_lt.2 hge)⟩

theorem eq_codedTag_iff (b : Byte) : b = Config.codedTag ↔ b.toNat = 0 :=
  BitVec.toNat_inj.symm

theorem bcdCode_iff (a0 a1 a2 : Byte) : (isValidBCD a0 && isValidBCD a1 && isValidBCD a2) = true ↔
    IsBcd a0.toNat ∧ IsBcd a1.toNat ∧ IsBcd a2.toNat := by
  simp only [Bool.and_eq_true, isValidBCD_iff, and_assoc]

theorem adminCodeOk_iff (av : Word64) : adminCodeOk av = true ↔ AdminBcd av.toNat := by
  rw [adminCodeOk, bcdCode_iff, avByte_toNat, avByte_toNat, avByte_toNat, AdminBcd]

theorem map_toNat_avBytes (av : Word64) :
    (avBytes av).map (fun b => b.toNat) = (List.range 5).map (addrByteNat av.toNat) := by
  simp only [avBytes, List.map_cons, List.map_nil, avByte_toNat]
  rfl

/-! ## Decode and encode, one equation per case -/

theorem addrDecode_coded {a0 : Byte} (h : a0 = Config.codedTag) (a1 a2 a3 a4 : Byte) :
    addrDecode [a0, a1, a2, a3, a4] = .ok (avOf true a0 a1 a2 a3 a4) := if_pos h

theorem addrDecode_admin {a0 a1 a2 : Byte} (h0 : a0 ≠ Config.codedTag)
    (hb : (isValidBCD a0 && isValidBCD a1 && isValidBCD a2) = true) (a3 a4 : Byte) :
    addrDecode [a0, a1, a2, a3, a4] = .ok (avOf false a0 a1 a2 a3 a4) :=
  (if_neg h0).trans (if_pos hb)

theorem addrDecode_not_bcd {a0 a1 a2 : Byte} (h0 : a0 ≠ Config.codedTag)
    (hb : ¬ (isValidBCD a0 && isValidBCD a1 && isValidBCD a2) = true) (a3 a4 : Byte) :
    addrDecode [a0, a1, a2, a3, a4] = .error .addressError :=
  (if_neg h0).trans (if_neg hb)

/-- What decodes is five bytes that begin with 0 or with a BCD code that does not (R140). -/
theorem addrDecode_eq_ok {a : List Byte} {av : Word64} (h : addrDecode a = .ok av) :
    ∃ a0 a1 a2 a3 a4, a = [a0, a1, a2, a3, a4] ∧
      ((a0 = Config.codedTag ∧ av = avOf true a0 a1 a2 a3 a4) ∨
        (a0 ≠ Config.codedTag ∧ (isValidBCD a0 && isValidBCD a1 && isValidBCD a2) = true ∧
          av = avOf false a0 a1 a2 a3 a4)) := by
  unfold addrDecode at h
  split at h
  · next a0 a1 a2 a3 a4 =>
    refine ⟨a0, a1, a2, a3, a4, rfl, ?_⟩
    split at h
    · next h0 => exact .inl ⟨h0, (Except.ok.inj h).symm⟩
    · next h0 =>
      split at h
      · next hb => exact .inr ⟨h0, hb, (Except.ok.inj h).symm⟩
      · cases h
  · cases h

theorem addrEncode_coded {av : Word64} (h : avTag av = true) : addrEncode av = .ok (avBytes av) :=
  if_pos h

theorem addrEncode_admin {av : Word64} (ht : avTag av = false) (h0 : avByte av 0 ≠ Config.codedTag)
    (hb : adminCodeOk av = true) : addrEncode av = .ok (avBytes av) := by
  rw [addrEncode, ht, if_neg Bool.false_ne_true, if_neg h0, if_pos hb]

theorem addrEncode_refused {av : Word64} (ht : avTag av = false)
    (h : avByte av 0 = Config.codedTag ∨ ¬ adminCodeOk av = true) :
    addrEncode av = .error .addressError := by
  rw [addrEncode, ht, if_neg Bool.false_ne_true]
  by_cases h0 : avByte av 0 = Config.codedTag
  · rw [if_pos h0]
  · rw [if_neg h0, if_neg (h.resolve_left h0)]

/-- What encodes is a coded value, or an admin one with a BCD code that does not begin with 0
(R141). -/
theorem addrEncode_eq_ok {av : Word64} {a : List Byte} (h : addrEncode av = .ok a) :
    a = avBytes av ∧ (avTag av = true ∨
      (avTag av = false ∧ avByte av 0 ≠ Config.codedTag ∧ adminCodeOk av = true)) := by
  cases ht : avTag av with
  | true =>
    cases (addrEncode_coded ht).symm.trans h
    exact ⟨rfl, .inl rfl⟩
  | false =>
    by_cases hbad : avByte av 0 = Config.codedTag ∨ ¬ adminCodeOk av = true
    · cases (addrEncode_refused ht hbad).symm.trans h
    · obtain ⟨h0, hb⟩ := not_or.1 hbad
      cases (addrEncode_admin ht h0 (not_not.1 hb)).symm.trans h
      exact ⟨rfl, .inr ⟨rfl, h0, not_not.1 hb⟩⟩

/-! ## ADEC, and the address operand of AENC, AVAL and AHEX -/

theorem exec_adec_of_lt {s : State} {len : Nat} (h : len < 5) :
    exec (.adec len) s = .next (failed s .addressError) := if_pos h

theorem exec_adec_of_holds {s : State} {len : Nat} {x : List Byte} (hlen : 5 ≤ len)
    (hx : x.length = 5) (h : Holds s.ibuf x) : exec (.adec len) s =
      .next (settle ((addrDecode x).map fun av => { res0 := av, res1 := 5 }) s) := by
  have hread := onInput_of_holds h fun x => (addrDecode x).map fun av => { res0 := av, res1 := 5 }
  rw [hx] at hread
  exact (if_neg (Nat.not_lt.2 hlen)).trans hread

/-- The AV made of a tag and five bytes, as the number in RES0 (R140). -/
theorem avOf_eq_ofNat (tag : Bool) (a0 a1 a2 a3 a4 : Byte) : avOf tag a0 a1 a2 a3 a4 =
    BitVec.ofNat 64 ((if tag then 2 ^ 40 else 0) + wireNat [a0, a1, a2, a3, a4]) := by
  rw [← avOf_toNat, BitVec.ofNat_toNat, BitVec.setWidth_eq]

/-- A command that checks for an address operand ends with CommandError on an ill-formed one. -/
theorem onAddr_of_not_formed {s : State} (h : ¬ AddrFormed s.arg0.toNat)
    (f : Word64 → Except ErrorKind Result) : onArg avOk f s = failed s .commandError :=
  onArg_of_not (mt (avOk_iff _).1 h) f

theorem onAddr_of_formed {s : State} (h : AddrFormed s.arg0.toNat)
    (f : Word64 → Except ErrorKind Result) : onArg avOk f s = settle (f s.arg0) s :=
  onArg_of_true ((avOk_iff _).2 h) f

/-! ## The classes of AVAL -/

theorem addrValidate_coded {av : Word64} (h : avTag av = true) : addrValidate av = .ok 4 := if_pos h

theorem addrValidate_refused {av : Word64} (ht : avTag av = false)
    (h : ¬ adminCodeOk av = true ∨ (avStation av).toNat = 0) :
    addrValidate av = .error .addressError := by
  rw [addrValidate, ht, if_neg Bool.false_ne_true]
  cases hb : adminCodeOk av with
  | false => rfl
  | true => exact if_pos (h.resolve_left (not_not.2 hb))

/-- The class of a station id that is not 0 (R142). -/
def stationClass (sid : Nat) : Nat := if sid ≤ 60000 then 1 else if sid ≤ 65534 then 2 else 3

theorem addrValidate_admin {av : Word64} (ht : avTag av = false) (hb : adminCodeOk av = true)
    (h0 : (avStation av).toNat ≠ 0) : addrValidate av = .ok (stationClass (avStation av).toNat) := by
  rw [addrValidate, ht, if_neg Bool.false_ne_true, hb, Bool.not_true, if_neg Bool.false_ne_true,
    if_neg h0, stationClass]
  split_ifs <;> rfl

theorem exec_aval_refused {s : State} (h : s.arg0.toNat < 2 ^ 40)
    (hbad : ¬ AdminBcd s.arg0.toNat ∨ s.arg0.toNat % 65536 = 0) :
    exec .aval s = .next (failed s .addressError) := by
  rw [← adminCodeOk_iff, ← avStation_toNat] at hbad
  rw [exec, execAval, onAddr_of_formed (addrFormed_of_lt h),
    addrValidate_refused (avTag_of_lt h) hbad]
  rfl

theorem exec_aval_admin {s : State} (h : s.arg0.toNat < 2 ^ 40) (hb : AdminBcd s.arg0.toNat)
    (h0 : s.arg0.toNat % 65536 ≠ 0) : exec .aval s =
      .next (succeeded s (BitVec.ofNat 64 (stationClass (s.arg0.toNat % 65536))) 0) := by
  rw [← adminCodeOk_iff] at hb
  rw [← avStation_toNat] at h0 ⊢
  rw [exec, execAval, onAddr_of_formed (addrFormed_of_lt h),
    addrValidate_admin (avTag_of_lt h) hb h0]
  rfl

/-! ## The hex text of AHEX -/

theorem hexChar_toNat (case : Config.HexCase) (n : BitVec 4) :
    (hexChar case n).toNat = hexNat case n.toNat := by
  have hlt := n.isLt
  have hwide : (n.setWidth 8).toNat = n.toNat := by
    rw [BitVec.toNat_setWidth]
    omega
  unfold hexChar hexNat
  by_cases h : n.toNat ≤ 9
  · rw [if_pos h, if_pos h, BitVec.toNat_add, hwide]
    exact Nat.mod_eq_of_lt (show 0x30 + n.toNat < 256 by omega)
  · rw [if_neg h, if_neg h]
    cases case <;>
    · simp only [BitVec.toNat_add, BitVec.toNat_sub, hwide, BitVec.ofNat_eq_ofNat, BitVec.toNat_ofNat]
      omega

theorem pow_256_eq (k : Nat) : 256 ^ k = 16 ^ (2 * k) := (Nat.pow_mul 16 2 k).symm

/-- The high nibble of wire byte `i` is a hexadecimal digit of the value. -/
theorem hiNibble_avByte_toNat (av : Word64) (i : Nat) :
    (hiNibble (avByte av i)).toNat = av.toNat / 16 ^ (2 * (4 - i) + 1) % 16 := by
  rw [hiNibble_toNat, avByte_toNat, addrByteNat, pow_256_eq, Nat.pow_succ, ← Nat.div_div_eq_div_mul]
  omega

/-- The low nibble of wire byte `i` is the next hexadecimal digit of the value. -/
theorem loNibble_avByte_toNat (av : Word64) (i : Nat) :
    (loNibble (avByte av i)).toNat = av.toNat / 16 ^ (2 * (4 - i)) % 16 := by
  rw [loNibble_toNat, avByte_toNat, addrByteNat, pow_256_eq]
  omega

/-- The hex text of the four code bytes is the value's eight low hexadecimal digits. -/
theorem map_toNat_hexText (case : Config.HexCase) (av : Word64) :
    (hexText case [avByte av 1, avByte av 2, avByte av 3, avByte av 4]).map (fun b => b.toNat) =
      (List.range 8).map fun i => hexNat case (av.toNat / 16 ^ (7 - i) % 16) := by
  simp only [hexText, List.flatMap_cons, List.flatMap_nil, List.cons_append, List.nil_append,
    List.map_cons, List.map_nil, hexChar_toNat, hiNibble_avByte_toNat, loNibble_avByte_toNat]
  rfl

theorem addrHex_coded (case : Config.HexCase) {av : Word64} (h : avTag av = true) :
    addrHex case av = .ok (hexText case [avByte av 1, avByte av 2, avByte av 3, avByte av 4]) :=
  if_pos h

theorem addrHex_admin (case : Config.HexCase) {av : Word64} (h : avTag av = false) :
    addrHex case av = .error .commandError := by
  rw [addrHex, h, if_neg Bool.false_ne_true]

/-! ## The obligations -/

/-- Settles O24: LEN below 5 ends before IBUF is read, and five bytes end as `addrDecode` does. -/
theorem adecDecodesFiveBytes : Obligations.AdecDecodesFiveBytes := by
  refine ⟨encoded_of_getElem? (k := 8) (r := ⟨0x30, 512, .adec⟩) rfl,
    fun s len h => exec_adec_of_lt h, fun s len x hlen hx hold => ?_⟩
  rw [exec_adec_of_holds hlen hx hold]
  match x, hx with
  | [a0, a1, a2, a3, a4], _ =>
    refine ⟨fun h0 => ?_, fun h0 hb => ?_, fun h0 hb => ?_⟩
    · rw [addrDecode_coded ((eq_codedTag_iff a0).2 h0), avOf_eq_ofNat]
      rfl
    · rw [addrDecode_admin (mt (eq_codedTag_iff a0).1 h0) ((bcdCode_iff a0 a1 a2).2 hb),
        avOf_eq_ofNat, if_neg Bool.false_ne_true, Nat.zero_add]
      rfl
    · rw [addrDecode_not_bcd (mt (eq_codedTag_iff a0).1 h0) (mt (bcdCode_iff a0 a1 a2).1 hb)]
      rfl

/-- Settles O25: a well-formed value ends as `addrEncode` does. -/
theorem aencEncodesFiveBytes : Obligations.AencEncodesFiveBytes := by
  refine ⟨encoded_of_getElem? (k := 9) (r := ⟨0x31, 0, fun _ => .aenc⟩) rfl,
    fun s => ⟨fun h => ?_, fun h hlt hbad => ?_, fun h hgood => ?_⟩⟩
  · exact congrArg Host.Outcome.next (onAddr_of_not_formed h _)
  · rw [← avByte_toNat, ← eq_codedTag_iff, ← adminCodeOk_iff] at hbad
    rw [exec, execAenc, onAddr_of_formed h, addrEncode_refused (avTag_of_lt hlt) hbad]
    rfl
  · have hok : addrEncode s.arg0 = .ok (avBytes s.arg0) := by
      cases ht : avTag s.arg0 with
      | true => exact addrEncode_coded ht
      | false =>
        obtain ⟨h0, hb⟩ := hgood.resolve_left fun hge => by simp [(avTag_iff h).2 hge] at ht
        rw [← avByte_toNat, Ne, ← eq_codedTag_iff] at h0
        exact addrEncode_admin ht h0 ((adminCodeOk_iff _).2 hb)
    rw [exec, execAenc, onAddr_of_formed h, hok]
    exact ⟨_, _, rfl, stored_complete_outputOnly _ s, map_toNat_avBytes s.arg0⟩

/-- Settles O26: an admin value that is not refused gets the class of its station id. -/
theorem avalClassifiesTheStation : Obligations.AvalClassifiesTheStation := by
  refine ⟨encoded_of_getElem? (k := 10) (r := ⟨0x32, 0, fun _ => .aval⟩) rfl,
    fun s => ⟨fun h => ?_, fun h hge => ?_, exec_aval_refused, fun h hb hlo hhi => ?_,
      fun h hb hlo hhi => ?_, fun h hb heq => ?_⟩⟩
  · exact congrArg Host.Outcome.next (onAddr_of_not_formed h _)
  · rw [exec, execAval, onAddr_of_formed h, addrValidate_coded ((avTag_iff h).2 hge)]
    rfl
  · rw [exec_aval_admin h hb (by omega), stationClass, if_pos hhi]
    rfl
  · rw [exec_aval_admin h hb (by omega), stationClass, if_neg (by omega), if_pos hhi]
    rfl
  · rw [exec_aval_admin h hb (by omega), stationClass, if_neg (by omega), if_neg (by omega)]
    rfl

/-- Settles O27: a coded value's text is its eight low hexadecimal digits. -/
theorem ahexRendersTheStationCode : Obligations.AhexRendersTheStationCode := by
  refine ⟨encoded_of_getElem? (k := 11) (r := ⟨0x33, 0, fun _ => .ahex⟩) rfl,
    fun s => ⟨fun hbad => ?_, fun h hge => ?_⟩⟩
  · rw [exec, execAhex]
    by_cases h : AddrFormed s.arg0.toNat
    · rw [onAddr_of_formed h, addrHex_admin _ (avTag_of_lt (hbad.resolve_left (not_not.2 h)))]
      rfl
    · rw [onAddr_of_not_formed h]
  · rw [exec, execAhex, onAddr_of_formed h, addrHex_coded _ ((avTag_iff h).2 hge)]
    exact ⟨_, _, rfl, stored_complete_outputOnly _ s, map_toNat_hexText _ s.arg0⟩

/-- Encoding a decoded address gives its bytes back (R148, law 1). -/
theorem addrEncode_of_addrDecode {a : List Byte} {av : Word64} (h : addrDecode a = .ok av) :
    addrEncode av = .ok a := by
  obtain ⟨a0, a1, a2, a3, a4, rfl, ⟨h0, rfl⟩ | ⟨h0, hb, rfl⟩⟩ := addrDecode_eq_ok h
  · rw [addrEncode_coded (avTag_avOf ..), avBytes_avOf]
  · rw [addrEncode_admin (avTag_avOf ..) (by rwa [avByte_zero_avOf]) (by rwa [adminCodeOk_avOf]),
      avBytes_avOf]

/-- Decoding the bytes of a well-formed value gives the value back (R148, law 1). -/
theorem addrDecode_of_addrEncode {av : Word64} {a : List Byte} (hok : avOk av = true)
    (h : addrEncode av = .ok a) : addrDecode a = .ok av := by
  have heta := avOf_avByte hok
  obtain ⟨rfl, ht | ⟨ht, h0, hb⟩⟩ := addrEncode_eq_ok h
  · have hfirst := avByte_zero_of_coded hok ht
    rw [ht] at heta
    rw [avBytes, addrDecode_coded hfirst, heta]
  · rw [ht] at heta
    rw [avBytes, addrDecode_admin h0 hb, heta]

/-- Settles O54, by the two kinds of bytes that decode. -/
theorem addressCodecIsInvertible : Obligations.AddressCodecIsInvertible := by
  refine ⟨fun a av h => ?_, fun a av => addrDecode_of_addrEncode⟩
  have hencode := addrEncode_of_addrDecode h
  obtain ⟨a0, a1, a2, a3, a4, rfl, ⟨h0, rfl⟩ | ⟨h0, hb, rfl⟩⟩ := addrDecode_eq_ok h <;>
    rw [avTag_avOf, avByte_zero_avOf]
  · exact ⟨avOk_avOf (tag := true) (fun _ => h0) a1 a2 a3 a4, hencode, iff_of_true rfl h0, nofun⟩
  · exact ⟨avOk_avOf (tag := false) nofun a1 a2 a3 a4, hencode, iff_of_false Bool.false_ne_true h0,
      fun _ => ⟨mt (eq_codedTag_iff a0).2 h0, ((bcdCode_iff a0 a1 a2).1 hb).1⟩⟩

end Sys2Proof.Machine
end

section
/-! PROOFS. The family of spec/44_control.md: a control value as its two bytes, decode and encode by their
cases, each command as an equation of whole states, and the laws of R165. -/

namespace Sys2Proof.Machine

/-! ## A control value is its first byte and its split count -/

theorem splitFlag_iff (b : Byte) : splitFlag b = true ↔ b.toNat / 64 % 2 = 1 := by
  rw [splitFlag_eq, decide_eq_true_eq]

theorem splitFlag_eq_false_iff (b : Byte) : splitFlag b = false ↔ b.toNat / 64 % 2 = 0 := by
  rw [splitFlag_eq, decide_eq_false_iff_not]
  omega

/-- SPLIT stands at bit 6 of the value, as it does in the first byte (R84). -/
theorem cvFirst_toNat_bit6 (cv : Word64) : (cvFirst cv).toNat / 64 % 2 = cv.toNat / 64 % 2 := by
  rw [cvFirst_toNat]
  omega

theorem cvFirst_cvOf (sc c0 : Byte) : cvFirst (cvOf sc c0) = c0 := by
  apply BitVec.eq_of_toNat_eq
  rw [cvFirst_toNat, cvOf_toNat]
  omega

theorem cvSplitCount_cvOf (sc c0 : Byte) : cvSplitCount (cvOf sc c0) = sc := by
  apply BitVec.eq_of_toNat_eq
  rw [cvSplitCount_toNat, cvOf_toNat]
  omega

theorem cvOk_cvOf (sc c0 : Byte) : cvOk (cvOf sc c0) = true := by
  rw [cvOk_iff, cvOf_toNat]
  omega

/-- A well-formed value is nothing but its two bytes (R75). -/
theorem cvOf_cvSplitCount_cvFirst {cv : Word64} (h : cvOk cv = true) :
    cvOf (cvSplitCount cv) (cvFirst cv) = cv := by
  rw [cvOk_iff] at h
  apply BitVec.eq_of_toNat_eq
  rw [cvOf_toNat, cvSplitCount_toNat, cvFirst_toNat]
  omega

/-- The CV made of two bytes, as the number in RES0 (R160). -/
theorem cvOf_eq_ofNat (sc c0 : Byte) : cvOf sc c0 = BitVec.ofNat 64 (sc.toNat * 256 + c0.toNat) := by
  rw [← cvOf_toNat, BitVec.ofNat_toNat, BitVec.setWidth_eq]

theorem cvOf_zero_eq_ofNat (c0 : Byte) : cvOf 0 c0 = BitVec.ofNat 64 c0.toNat := by
  simp [cvOf_eq_ofNat]

/-- A well-formed value has no split count exactly when it is below 256. -/
theorem cvSplitCount_eq_zero_iff {cv : Word64} (h : cv.toNat < 65536) :
    cvSplitCount cv = 0 ↔ cv.toNat < 256 := by
  rw [← BitVec.toNat_inj, cvSplitCount_toNat, BitVec.ofNat_eq_ofNat, BitVec.toNat_zero]
  omega

/-! ## Decode and encode, one equation per case -/

theorem ctrlDecode_zero (x : List Byte) : ctrlDecode x 0 = .error .controlError := if_pos rfl

theorem ctrlDecode_nil (n : Nat) : ctrlDecode [] n = .error .controlError := ite_self _

/-- Without SPLIT the field is one byte, whatever follows it (R160). -/
theorem ctrlDecode_unsplit {c0 : Byte} (h : splitFlag c0 = false) {n : Nat} (hn : 1 ≤ n)
    (rest : List Byte) : ctrlDecode (c0 :: rest) n = .ok (cvOf 0 c0, 1) :=
  (if_neg (Nat.ne_of_gt hn)).trans (if_neg (Bool.eq_false_iff.1 h))

/-- With SPLIT the field is two bytes, whatever follows them (R160). -/
theorem ctrlDecode_split {c0 : Byte} (h : splitFlag c0 = true) {n : Nat} (hn : 2 ≤ n) (c1 : Byte)
    (rest : List Byte) : ctrlDecode (c0 :: c1 :: rest) n = .ok (cvOf c1 c0, 2) :=
  (if_neg (by omega)).trans ((if_pos h).trans (if_neg (Nat.not_lt.2 hn)))

/-- With SPLIT a lone byte is not enough (R160). -/
theorem ctrlDecode_split_short {c0 : Byte} (h : splitFlag c0 = true) {n : Nat} {rest : List Byte}
    (hshort : n < 2 ∨ rest = []) : ctrlDecode (c0 :: rest) n = .error .controlError := by
  unfold ctrlDecode
  rcases hshort with hn | rfl
  · simp [h, hn]
  · simp [h]

/-- What decodes is a byte without SPLIT, or one that has it and a split count (R160). -/
theorem ctrlDecode_eq_ok {x : List Byte} {n : Nat} {cv : Word64} {used : BitVec 32}
    (h : ctrlDecode x n = .ok (cv, used)) :
    (∃ c0 rest, x = c0 :: rest ∧ splitFlag c0 = false ∧ cv = cvOf 0 c0 ∧ used = 1) ∨
      (∃ c0 c1 rest, x = c0 :: c1 :: rest ∧ splitFlag c0 = true ∧ cv = cvOf c1 c0 ∧ used = 2) := by
  rcases Nat.eq_zero_or_pos n with rfl | hn
  · cases (ctrlDecode_zero x).symm.trans h
  · match x with
    | [] => cases (ctrlDecode_nil n).symm.trans h
    | c0 :: rest =>
      cases hs : splitFlag c0 with
      | false =>
        cases (ctrlDecode_unsplit hs hn rest).symm.trans h
        exact .inl ⟨c0, rest, rfl, hs, rfl, rfl⟩
      | true =>
        by_cases hshort : n < 2 ∨ rest = []
        · cases (ctrlDecode_split_short hs hshort).symm.trans h
        · obtain ⟨h2, hne⟩ := not_or.1 hshort
          obtain ⟨c1, tail, rfl⟩ := List.exists_cons_of_ne_nil hne
          cases (ctrlDecode_split hs (Nat.not_lt.1 h2) c1 tail).symm.trans h
          exact .inr ⟨c0, c1, tail, rfl, hs, rfl, rfl⟩

/-- With SPLIT both bytes are sent, the second also when it is 0 (R161). -/
theorem ctrlEncode_split {cv : Word64} (h : splitFlag (cvFirst cv) = true) :
    ctrlEncode cv = .ok [cvFirst cv, cvSplitCount cv] := if_pos h

theorem ctrlEncode_unsplit {cv : Word64} (h : splitFlag (cvFirst cv) = false)
    (h0 : cvSplitCount cv = 0) : ctrlEncode cv = .ok [cvFirst cv] := by
  rw [ctrlEncode, h, if_neg Bool.false_ne_true, if_pos h0]

theorem ctrlEncode_refused {cv : Word64} (h : splitFlag (cvFirst cv) = false)
    (h0 : cvSplitCount cv ≠ 0) : ctrlEncode cv = .error .controlError := by
  rw [ctrlEncode, h, if_neg Bool.false_ne_true, if_neg h0]

/-- What encodes has SPLIT, or no split count (R161). -/
theorem ctrlEncode_eq_ok {cv : Word64} {out : List Byte} (h : ctrlEncode cv = .ok out) :
    (splitFlag (cvFirst cv) = true ∧ out = [cvFirst cv, cvSplitCount cv]) ∨
      (splitFlag (cvFirst cv) = false ∧ cvSplitCount cv = 0 ∧ out = [cvFirst cv]) := by
  cases hs : splitFlag (cvFirst cv) with
  | true => exact .inl ⟨rfl, (Except.ok.inj ((ctrlEncode_split hs).symm.trans h)).symm⟩
  | false =>
    by_cases h0 : cvSplitCount cv = 0
    · exact .inr ⟨rfl, h0, (Except.ok.inj ((ctrlEncode_unsplit hs h0).symm.trans h)).symm⟩
    · cases (ctrlEncode_refused hs h0).symm.trans h

/-- Encoding a value made of two bytes, the first with SPLIT, gives them back. -/
theorem ctrlEncode_cvOf_split {c0 : Byte} (h : splitFlag c0 = true) (c1 : Byte) :
    ctrlEncode (cvOf c1 c0) = .ok [c0, c1] := by
  rw [ctrlEncode_split (by rwa [cvFirst_cvOf]), cvFirst_cvOf, cvSplitCount_cvOf]

theorem ctrlEncode_cvOf_unsplit {c0 : Byte} (h : splitFlag c0 = false) :
    ctrlEncode (cvOf 0 c0) = .ok [c0] := by
  rw [ctrlEncode_unsplit (by rwa [cvFirst_cvOf]) (cvSplitCount_cvOf 0 c0), cvFirst_cvOf]

/-! ## The bytes CDEC reads -/

theorem holds_singleton {m : Memory} {b : Byte} (h : Memory.load m 0 = some b) : Holds m [b] := by
  intro i hi
  obtain rfl : i = 0 := Nat.lt_one_iff.1 hi
  exact h

theorem holds_pair {m : Memory} {b c : Byte} (hb : Memory.load m 0 = some b)
    (hc : Memory.load m 1 = some c) : Holds m [b, c]
  | 0, _ => hb
  | 1, _ => hc

/-- The second byte is not read without SPLIT, nor when LEN is 1 (R162). -/
theorem cdecReads_eq_one {len : Nat} {m : Memory} {c0 : Byte} (hlen : 1 ≤ len)
    (h : Memory.load m 0 = some c0) (hone : splitFlag c0 = false ∨ len = 1) :
    cdecReads len m = 1 := by
  have hcond : ¬ (splitFlag c0 && decide (2 ≤ len)) = true := by
    rcases hone with hs | rfl <;> simp [*]
  rw [cdecReads, if_neg (by omega), h]
  exact if_neg hcond

theorem cdecReads_eq_two {len : Nat} {m : Memory} {c0 : Byte} (hlen : 2 ≤ len)
    (h : Memory.load m 0 = some c0) (hs : splitFlag c0 = true) : cdecReads len m = 2 := by
  rw [cdecReads, if_neg (by omega), h]
  simp [hs, hlen]

/-- CDEC ends as `ctrlDecode` does on the bytes it reads. -/
theorem exec_cdec_of_holds {s : State} {len : Nat} {x : List Byte} (h : Holds s.ibuf x)
    (hx : cdecReads len s.ibuf = x.length) : exec (.cdec len) s =
      .next (settle ((ctrlDecode x len).map fun p => { res0 := p.1, res1 := p.2 }) s) := by
  rw [exec, execCdec, hx]
  exact onInput_of_holds h _

/-! ## The control value operand of CENC and CLEN -/

theorem onCv_of_wide {s : State} (h : 65536 ≤ s.arg0.toNat)
    (f : Word64 → Except ErrorKind Result) : onArg cvOk f s = failed s .commandError :=
  onArg_of_not (mt (cvOk_iff _).1 (Nat.not_lt.2 h)) f

theorem onCv_of_lt {s : State} (h : s.arg0.toNat < 65536)
    (f : Word64 → Except ErrorKind Result) : onArg cvOk f s = settle (f s.arg0) s :=
  onArg_of_true ((cvOk_iff _).2 h) f

/-! ## The obligations -/

/-- Settles O28: CDEC reads as many bytes as the field has, and ends as `ctrlDecode` does on them. -/
theorem cdecDecodesOneOrTwoBytes : Obligations.CdecDecodesOneOrTwoBytes := by
  refine ⟨encoded_of_getElem? (k := 12) (r := ⟨0x40, 512, .cdec⟩) rfl, fun s => rfl,
    fun s len c0 hlen h0 => ⟨fun hs => ?_, fun hs h1 => ?_, fun hs h2 c1 hc1 => ?_⟩⟩
  · rw [← splitFlag_eq_false_iff] at hs
    rw [exec_cdec_of_holds (holds_singleton h0) (cdecReads_eq_one hlen h0 (.inl hs)),
      ctrlDecode_unsplit hs hlen, cvOf_zero_eq_ofNat]
    rfl
  · rw [← splitFlag_iff] at hs
    rw [exec_cdec_of_holds (holds_singleton h0) (cdecReads_eq_one hlen h0 (.inr h1)), h1,
      ctrlDecode_split_short hs (.inl Nat.one_lt_two)]
    rfl
  · rw [← splitFlag_iff] at hs
    rw [exec_cdec_of_holds (holds_pair h0 hc1) (cdecReads_eq_two h2 h0 hs),
      ctrlDecode_split hs h2, cvOf_eq_ofNat]
    rfl

/-- Settles O29: a value that fits 16 bits ends as `ctrlEncode` does. -/
theorem cencEncodesOneOrTwoBytes : Obligations.CencEncodesOneOrTwoBytes := by
  refine ⟨encoded_of_getElem? (k := 13) (r := ⟨0x41, 0, fun _ => .cenc⟩) rfl,
    fun s => ⟨fun h => ?_, fun h hs => ?_, fun h hs => ?_, fun hge h hs => ?_⟩⟩
  · exact congrArg Host.Outcome.next (onCv_of_wide h _)
  · rw [← cvFirst_toNat_bit6, ← splitFlag_iff] at hs
    rw [exec, execCenc, onCv_of_lt h, ctrlEncode_split hs]
    refine ⟨_, _, rfl, stored_complete_outputOnly _ s, ?_⟩
    rw [List.map_cons, List.map_cons, List.map_nil, cvFirst_toNat, cvSplitCount_toNat,
      Nat.mod_eq_of_lt (a := s.arg0.toNat / 256) (by omega)]
  · have hwide : s.arg0.toNat < 65536 := by omega
    rw [← cvFirst_toNat_bit6, ← splitFlag_eq_false_iff] at hs
    rw [exec, execCenc, onCv_of_lt hwide, ctrlEncode_unsplit hs ((cvSplitCount_eq_zero_iff hwide).2 h)]
    refine ⟨_, _, rfl, stored_complete_outputOnly _ s, ?_⟩
    rw [List.map_cons, List.map_nil, cvFirst_toNat, Nat.mod_eq_of_lt h]
  · rw [← cvFirst_toNat_bit6, ← splitFlag_eq_false_iff] at hs
    rw [exec, execCenc, onCv_of_lt h,
      ctrlEncode_refused hs (mt (cvSplitCount_eq_zero_iff h).1 (Nat.not_lt.2 hge))]
    rfl

/-- Settles O30: CLEN looks at SPLIT alone. -/
theorem clenGivesOneOrTwo : Obligations.ClenGivesOneOrTwo := by
  refine ⟨encoded_of_getElem? (k := 14) (r := ⟨0x42, 0, fun _ => .clen⟩) rfl,
    fun s => ⟨fun h => congrArg Host.Outcome.next (onCv_of_wide h _), fun h => ?_⟩⟩
  rw [exec, execClen, onCv_of_lt h, ← cvFirst_toNat_bit6]
  cases hs : splitFlag (cvFirst s.arg0) with
  | true =>
    rw [(splitFlag_iff _).1 hs]
    rfl
  | false =>
    rw [(splitFlag_eq_false_iff _).1 hs]
    rfl

/-- Settles O55: each direction by the two forms of the field, one byte without SPLIT and two with it. -/
theorem controlCodecIsInvertible : Obligations.ControlCodecIsInvertible := by
  refine ⟨fun x cv used h => ?_, fun cv out hok h => ?_⟩
  · rcases ctrlDecode_eq_ok h with ⟨c0, rest, rfl, hs, rfl, rfl⟩ | ⟨c0, c1, rest, rfl, hs, rfl, rfl⟩
    · exact ⟨cvOk_cvOf 0 c0, ctrlEncode_cvOf_unsplit hs, fun _ => cvSplitCount_cvOf 0 c0⟩
    · refine ⟨cvOk_cvOf c1 c0, ctrlEncode_cvOf_split hs c1, fun hunsplit => ?_⟩
      rw [cvFirst_cvOf, hs] at hunsplit
      cases hunsplit
  · have heta := cvOf_cvSplitCount_cvFirst hok
    rcases ctrlEncode_eq_ok h with ⟨hs, rfl⟩ | ⟨hs, h0, rfl⟩
    · have hdecode := ctrlDecode_split hs (Nat.le_refl 2) (cvSplitCount cv) []
      rw [heta] at hdecode
      exact ⟨hdecode, (if_pos hs).symm⟩
    · have hdecode := ctrlDecode_unsplit hs (Nat.le_refl 1) []
      rw [← h0, heta] at hdecode
      exact ⟨hdecode, (if_neg (Bool.eq_false_iff.1 hs)).symm⟩

end Sys2Proof.Machine
end

section
/-! PROOFS. The family of spec/45_frame.md: frame encode and decode by their checks, FENC and FDEC as
equations of whole states, and the laws of R184. -/

namespace Sys2Proof.Machine

/-! ## Encode, one equation per case -/

theorem frameEncode_refused {r : List Byte} (h : r.length = 0 ∨ 255 < r.length) :
    frameEncode r = .error .lengthError := if_pos h

/-- The bytes of R81, with an envelope that need not fit the region. -/
def enveloped (s1 l s2 : Byte) (r : List Byte) (cs e : Byte) : List Byte := [s1, l, s2] ++ r ++ [cs, e]

/-- The frame of a region (R180). -/
def frameOf (r : List Byte) : List Byte :=
  enveloped Config.start (BitVec.ofNat 8 r.length) Config.start r (checksum r) Config.endMarker

theorem frameEncode_of_length {r : List Byte} (h1 : 1 ≤ r.length) (h255 : r.length ≤ 255) :
    frameEncode r = .ok (frameOf r) :=
  if_neg (not_or.2 ⟨Nat.ne_of_gt h1, Nat.not_lt.2 h255⟩)

/-! ## Decode, one equation per check -/

theorem frameDecode_short {w : List Byte} (h : w.length < 7) :
    frameDecode w = .error .framingError := if_pos h

/-- A bad start marker is FramingError also on a wire that is too short. -/
theorem frameDecode_bad_start {w : List Byte}
    (h : w.getD 0 0 ≠ Config.start ∨ w.getD 2 0 ≠ Config.start) :
    frameDecode w = .error .framingError := by
  rw [frameDecode, if_pos h, ite_self]

/-- Wire bytes that pass the first two checks of R181. -/
structure Started (w : List Byte) : Prop where
  min_length : 7 ≤ w.length
  first      : w.getD 0 0 = Config.start
  second     : w.getD 2 0 = Config.start

/-- What is left of frame decode after its first two checks. -/
theorem frameDecode_of_started {w : List Byte} (h : Started w) :
    frameDecode w =
      if w.length ≠ (w.getD 1 0).toNat + 5 then .error .lengthError
      else if w.getD (w.length - 1) 0 ≠ Config.endMarker then .error .framingError
      else if checksum ((w.drop 3).take (w.getD 1 0).toNat) ≠ w.getD (3 + (w.getD 1 0).toNat) 0 then
        .error .checksumError
      else .ok { region := (w.drop 3).take (w.getD 1 0).toNat, l := w.getD 1 0,
                 cs := w.getD (3 + (w.getD 1 0).toNat) 0 } :=
  (if_neg (Nat.not_lt.2 h.min_length)).trans
    (if_neg (not_or.2 ⟨not_not.2 h.first, not_not.2 h.second⟩))

theorem frameDecode_bad_length {w : List Byte} (h : Started w)
    (hl : w.length ≠ (w.getD 1 0).toNat + 5) : frameDecode w = .error .lengthError :=
  (frameDecode_of_started h).trans (if_pos hl)

/-- On wire bytes of the length they name the end marker and then the checksum decide. The checksum
byte is the last but one. -/
theorem frameDecode_of_length {w : List Byte} (h : Started w)
    (hl : w.length = (w.getD 1 0).toNat + 5) :
    frameDecode w =
      if w.getD (w.length - 1) 0 ≠ Config.endMarker then .error .framingError
      else if checksum ((w.drop 3).take (w.getD 1 0).toNat) ≠ w.getD (w.length - 2) 0 then
        .error .checksumError
      else .ok { region := (w.drop 3).take (w.getD 1 0).toNat, l := w.getD 1 0,
                 cs := w.getD (w.length - 2) 0 } := by
  have hcs : w.length - 2 = 3 + (w.getD 1 0).toNat := by omega
  rw [frameDecode_of_started h, if_neg (not_not.2 hl), hcs]

/-! ## Decode of enveloped bytes -/

section
variable (s1 l s2 : Byte) (r : List Byte) (cs e : Byte)

@[simp] theorem enveloped_length : (enveloped s1 l s2 r cs e).length = r.length + 5 := by
  simp [enveloped]

theorem enveloped_region : ((enveloped s1 l s2 r cs e).drop 3).take r.length = r := List.take_left

theorem enveloped_getD_checksum : (enveloped s1 l s2 r cs e).getD (r.length + 3) 0 = cs := by
  simp [enveloped]

theorem enveloped_getD_end : (enveloped s1 l s2 r cs e).getD (r.length + 4) 0 = e := by
  simp [enveloped]

theorem enveloped_set_checksum (b : Byte) :
    (enveloped s1 l s2 r cs e).set (r.length + 3) b = enveloped s1 l s2 r b e := by
  simp [enveloped]

theorem enveloped_set_end (b : Byte) :
    (enveloped s1 l s2 r cs e).set (r.length + 4) b = enveloped s1 l s2 r cs b := by
  simp [enveloped]

end

theorem enveloped_started {r : List Byte} (h : 2 ≤ r.length) (l cs e : Byte) :
    Started (enveloped Config.start l Config.start r cs e) :=
  ⟨by rw [enveloped_length]; omega, rfl, rfl⟩

/-- With good start markers and the region's length, the end marker and then the checksum decide. -/
theorem frameDecode_enveloped {r : List Byte} {l : Byte} (h2 : 2 ≤ r.length) (hl : l.toNat = r.length)
    (cs e : Byte) :
    frameDecode (enveloped Config.start l Config.start r cs e) =
      if e ≠ Config.endMarker then .error .framingError
      else if checksum r ≠ cs then .error .checksumError
      else .ok { region := r, l := l, cs := cs } := by
  have hbyte : (enveloped Config.start l Config.start r cs e).getD 1 0 = l := rfl
  have hlen := enveloped_length Config.start l Config.start r cs e
  rw [frameDecode_of_length (enveloped_started h2 l cs e) (by rw [hlen, hbyte, hl]), hlen, hbyte, hl,
    enveloped_region, Nat.add_sub_assoc (by decide), Nat.add_sub_assoc (by decide),
    enveloped_getD_end, enveloped_getD_checksum]

theorem toNat_lengthByte {r : List Byte} (h : r.length ≤ 255) :
    (BitVec.ofNat 8 r.length).toNat = r.length := by
  rw [BitVec.toNat_ofNat, Nat.mod_eq_of_lt (by omega)]

/-- What encodes has at most 255 bytes, and encodes to its frame. -/
theorem frameEncode_eq_ok {r w : List Byte} (h : frameEncode r = .ok w) :
    r.length ≤ 255 ∧ w = frameOf r :=
  (frameEncode_ok h).2

/-- The round trip (R184, law 2). -/
theorem frameDecode_frameOf {r : List Byte} (h2 : 2 ≤ r.length) (h255 : r.length ≤ 255) :
    frameDecode (frameOf r) =
      .ok { region := r, l := BitVec.ofNat 8 r.length, cs := checksum r } :=
  (frameDecode_enveloped h2 (toNat_lengthByte h255) _ _).trans
    ((if_neg (not_not.2 rfl)).trans (if_neg (not_not.2 rfl)))

/-! ## The two commands -/

/-- The FR of a length byte and a checksum byte, as the number in RES0 (R85). -/
theorem frOf_eq_ofNat (l cs : Byte) : frOf l cs = BitVec.ofNat 64 (l.toNat + 256 * cs.toNat) := by
  rw [← frOf_toNat, BitVec.ofNat_toNat, BitVec.setWidth_eq]

theorem fencResult_res0 {r : List Byte} (h : r.length ≤ 255) (f : List Byte) :
    (fencResult r f).res0 = BitVec.ofNat 64 (r.length + 256 * (checksum r).toNat) := by
  rw [fencResult, frOf_eq_ofNat, toNat_lengthByte h]

theorem exec_fenc_of_holds {s : State} {r : List Byte} (h : Holds s.ibuf r) :
    exec (.fenc r.length) s = .next (settle ((frameEncode r).map (fencResult r)) s) :=
  onInput_of_holds h _

theorem exec_fdec_of_error {s : State} {w : List Byte} {e : ErrorKind} (h : Holds s.ibuf w)
    (he : frameDecode w = .error e) : exec (.fdec w.length) s = .next (failed s e) := by
  rw [exec, execFdec, onInput_of_holds h, he]
  rfl

theorem exec_fdec_of_ok {s : State} {w : List Byte} {f : Frame} (h : Holds s.ibuf w)
    (hf : frameDecode w = .ok f) : ∃ t, exec (.fdec w.length) s = .next t ∧
      Stored s t f.region (BitVec.ofNat 64 (f.l.toNat + 256 * f.cs.toNat)) 0 := by
  rw [exec, execFdec, onInput_of_holds h, hf, ← frOf_eq_ofNat]
  exact ⟨_, rfl, stored_complete _ s⟩

/-! ## The obligations -/

/-- Settles O31: FENC ends as `frameEncode` does on the region that IBUF holds. -/
theorem fencWrapsTheRegion : Obligations.FencWrapsTheRegion := by
  refine ⟨encoded_of_getElem? (k := 15) (r := ⟨0x50, 512, .fenc⟩) rfl,
    fun s r hr => ⟨fun h => ?_, fun h1 h255 => ?_⟩⟩
  · rw [exec_fenc_of_holds hr, frameEncode_refused h]
    rfl
  · rw [exec_fenc_of_holds hr, frameEncode_of_length h1 h255, ← fencResult_res0 h255 (frameOf r)]
    exact ⟨_, rfl, stored_complete (fencResult r (frameOf r)) s⟩

/-- Settles O32: FDEC ends as `frameDecode` does, and the checks over bytes are those over numbers. -/
theorem fdecChecksInOrder : Obligations.FdecChecksInOrder := by
  refine ⟨encoded_of_getElem? (k := 16) (r := ⟨0x51, 512, .fdec⟩) rfl, fun s w hw =>
    ⟨fun h => exec_fdec_of_error hw (frameDecode_short h), fun _ h => ?_, fun h7 h0 h2 => ?_⟩⟩
  · exact exec_fdec_of_error hw
      (frameDecode_bad_start (h.imp (mt (congrArg BitVec.toNat)) (mt (congrArg BitVec.toNat))))
  · have hs : Started w := ⟨h7, BitVec.eq_of_toNat_eq h0, BitVec.eq_of_toNat_eq h2⟩
    refine ⟨fun hl => exec_fdec_of_error hw (frameDecode_bad_length hs hl), fun hl he => ?_,
      fun hl he hc => ?_, fun hl he hc => ?_⟩
    · exact exec_fdec_of_error hw
        ((frameDecode_of_length hs hl).trans (if_pos (mt (congrArg BitVec.toNat) he)))
    · exact exec_fdec_of_error hw ((frameDecode_of_length hs hl).trans
        ((if_neg (not_not.2 (BitVec.eq_of_toNat_eq he))).trans
          (if_pos (mt (congrArg BitVec.toNat) hc))))
    · exact exec_fdec_of_ok hw ((frameDecode_of_length hs hl).trans
        ((if_neg (not_not.2 (BitVec.eq_of_toNat_eq he))).trans
          (if_neg (not_not.2 (BitVec.eq_of_toNat_eq hc)))))

/-- Settles O56: the frame of a 1-byte region is too short to decode; longer ones pass every check. -/
theorem frameRoundTrip : Obligations.FrameRoundTrip := by
  refine fun r => ⟨frameEncode_refused, fun h1 h255 => ⟨frameOf r, frameEncode_of_length h1 h255,
    enveloped_length .., fun h => frameDecode_short ?_, fun h2 => frameDecode_frameOf h2 h255⟩⟩
  rw [frameOf, enveloped_length, h]
  decide

/-- Settles O57: with one envelope byte changed, the first check that sees it is the one that fails. -/
theorem frameCorruptionIsDetected : Obligations.FrameCorruptionIsDetected := by
  intro r w b h2 h
  obtain ⟨h255, rfl⟩ := frameEncode_eq_ok h
  have hdecode := frameDecode_enveloped h2 (toNat_lengthByte h255)
  refine ⟨fun hb => ?_, fun hb => ?_,
    fun hb => ⟨frameDecode_bad_start (.inl hb), frameDecode_bad_start (.inr hb)⟩, fun hb => ?_⟩
  · rw [frameOf, enveloped_set_checksum, hdecode, if_neg (not_not.2 rfl), if_pos hb.symm]
  · rw [frameOf, enveloped_set_end]
    exact (hdecode (checksum r) b).trans (if_pos hb)
  · refine frameDecode_bad_length (enveloped_started h2 b _ _) fun hl => hb ?_
    have hlen : r.length = b.toNat := Nat.add_right_cancel ((enveloped_length ..).symm.trans hl)
    rw [hlen, BitVec.ofNat_toNat, BitVec.setWidth_eq]

end Sys2Proof.Machine
end

section
/-! PROOFS. The family of spec/46_stream.md, steps: the issue steps of RDFRM and WRFRM (R201, R213), the
framer's and the transmitter's steps (R203 to R210, R214, R215), and waiting (R202). -/

namespace Sys2Proof.Machine

/-! ## The issue steps -/

theorem exec_wrfrm_of_ok {s : State} {r f : List Byte} (h : Holds s.ibuf r) (hf : frameEncode r = .ok f) :
    exec (.wrfrm r.length) s = .next (startSend f s) := by
  simp only [exec, execWrfrm, loadRange_of_holds h, hf]

theorem exec_wrfrm_of_error {s : State} {r : List Byte} {e : ErrorKind} (h : Holds s.ibuf r)
    (he : frameEncode r = .error e) : exec (.wrfrm r.length) s = .next (failed s e) := by
  simp only [exec, execWrfrm, loadRange_of_holds h, he, errorCompletion_eq_failed]

/-! ## The framer's steps -/

/-- A reading framer with a byte ready takes it. -/
theorem engineStep_byte {s : State} {b : Byte} {rest : List RxEvent} (h : isReading s.fstate = true)
    (hr : s.env.rx = .byte b :: rest) : engineStep s = takeByte b (withRx rest s) :=
  engineStep_reading h hr

theorem engineStep_seekStart {s : State} {b : Byte} {rest : List RxEvent} (h : s.fstate = .seekStart)
    (hr : s.env.rx = .byte b :: rest) : engineStep s = seekStartByte b (withRx rest s) := by
  rw [engineStep_byte (by rw [h]; rfl) hr, takeByte, withRx_fstate, h]

theorem engineStep_readLength {s : State} {b : Byte} {rest : List RxEvent} (h : s.fstate = .readLength)
    (hr : s.env.rx = .byte b :: rest) : engineStep s = readLengthByte b (withRx rest s) := by
  rw [engineStep_byte (by rw [h]; rfl) hr, takeByte, withRx_fstate, h]

theorem engineStep_readSecondStart {s : State} {b : Byte} {rest : List RxEvent}
    (h : s.fstate = .readSecondStart) (hr : s.env.rx = .byte b :: rest) :
    engineStep s = readSecondStartByte b (withRx rest s) := by
  rw [engineStep_byte (by rw [h]; rfl) hr, takeByte, withRx_fstate, h]

theorem engineStep_readBody {s : State} {b : Byte} {rest : List RxEvent} (h : s.fstate = .readBody)
    (hr : s.env.rx = .byte b :: rest) : engineStep s = readBodyByte b (withRx rest s) := by
  rw [engineStep_byte (by rw [h]; rfl) hr, takeByte, withRx_fstate, h]

theorem finalize_of_error {s : State} {e : ErrorKind} (h : frameDecode s.fbuf = .error e) :
    finalize s = finishErr .readBody e s := by
  rw [finalize, h]

theorem finalize_of_ok {s : State} {f : Frame} (h : frameDecode s.fbuf = .ok f) :
    finalize s = complete { res0 := frOf f.l f.cs, res1 := s.fcnt, out := f.region } s := by
  rw [finalize, h]

/-- FREM leaves room for the body of the longest frame: FL + 2 does not wrap (R205). -/
theorem frem_of_fl (l : Byte) : l.setWidth 9 + 2 = BitVec.ofNat 9 (l.toNat + 2) := by
  rw [← BitVec.ofNat_toNat, BitVec.ofNat_add]
  rfl

/-- The number of a sequencer state in RES0 is its FSTATE number (R210). -/
theorem setWidth_fstateWord (f : FState) :
    (fstateWord f).setWidth 64 = BitVec.ofNat 64 (fstateBits f).toNat := by
  rw [← fstateWord_toNat, BitVec.ofNat_toNat]

/-! ## The transmitter's steps -/

/-- TXPOS counts up to the longest frame without wrapping (R214). -/
theorem txpos_succ_toNat {s : State} (h : s.txpos.toNat < s.txbuf.length) (h260 : s.txbuf.length ≤ 260) :
    (s.txpos + 1).toNat = s.txpos.toNat + 1 :=
  BitVec.toNat_add_of_lt (show s.txpos.toNat + 1 < 512 by omega)

/-- Below the end of TXBUF the byte that goes out is TXBUF[TXPOS]. -/
theorem sendByte_of_lt {s : State} (h : s.txpos.toNat < s.txbuf.length) :
    sendByte s = { s with
      txpos := s.txpos + 1,
      env := { s.env with sent := s.env.sent ++ [s.txbuf.getD s.txpos.toNat 0] } } := by
  have hbyte : offeredByte s = some (s.txbuf.getD s.txpos.toNat 0) := by
    rw [offeredByte, List.getElem?_eq_getElem h, List.getD_eq_getElem _ _ h]
  rw [sendByte, hbyte]
  rfl

/-! ## Waiting -/

/-- A state that a step leaves as it is stays for any number of steps. -/
theorem runs_of_step_self {s : State} (h : step s = .next s) (n : Nat) : runs n s = .next s := by
  induction n with
  | zero => rfl
  | succ n ih => exact (runs_succ h n).trans ih

/-! ## The obligations -/

/-- Settles O33: the words are those of RDFRM's row, the state is its meaning's. -/
theorem rdfrmStartsTheFramer : Obligations.RdfrmStartsTheFramer :=
  ⟨encoded_of_getElem? (k := 17) (r := ⟨0x60, 0, fun _ => .rdfrm⟩) rfl, fun _ => rfl⟩

/-- Settles O34: WRFRM loads what `frameEncode` makes of the region that IBUF holds. -/
theorem wrfrmLoadsTheFrame : Obligations.WrfrmLoadsTheFrame :=
  ⟨encoded_of_getElem? (k := 18) (r := ⟨0x61, 512, .wrfrm⟩) rfl,
    fun _ _ hr => ⟨fun h => exec_wrfrm_of_error hr (frameEncode_refused h),
      fun h1 h255 => exec_wrfrm_of_ok hr (frameEncode_of_length h1 h255)⟩⟩

/-- Settles O36: the start marker decides. -/
theorem framerSeeksTheStartMarker : Obligations.FramerSeeksTheStartMarker :=
  fun _ _ _ hf hr => ⟨fun hb => (engineStep_seekStart hf hr).trans (if_pos hb),
    fun hb => (engineStep_seekStart hf hr).trans (if_neg hb)⟩

/-- Settles O37: a length of 0 ends the read. -/
theorem framerReadsTheLength : Obligations.FramerReadsTheLength :=
  fun _ _ _ hf hr => ⟨fun hb => (engineStep_readLength hf hr).trans (if_pos hb),
    fun hb => (engineStep_readLength hf hr).trans (if_neg hb)⟩

/-- Settles O38: the marker decides, and FREM is FL + 2 in nine bits. -/
theorem framerReadsTheSecondMarker : Obligations.FramerReadsTheSecondMarker := by
  intro s b rest hf hr
  refine ⟨fun hb => (engineStep_readSecondStart hf hr).trans (if_neg hb), fun hb => ?_⟩
  rw [← frem_of_fl]
  exact (engineStep_readSecondStart hf hr).trans (if_pos hb)

/-- Settles O39: FREM decides whether the byte is the last, and then `frameDecode` how the read ends. -/
theorem framerReadsTheBody : Obligations.FramerReadsTheBody := by
  intro s b rest hf hr s'
  have hstep := engineStep_readBody hf hr
  refine ⟨fun hm => hstep.trans (readBodyByte_of_more (sub_ne_zero.2 hm)), fun h1 => ?_⟩
  have hlast : engineStep s = finalize s' := hstep.trans (readBodyByte_of_last (sub_eq_zero.2 h1))
  refine ⟨fun e he => hlast.trans (finalize_of_error he), fun f hd => ?_⟩
  rw [hlast, finalize_of_ok (s := s') hd, ← frOf_eq_ofNat]
  exact stored_complete _ s'

/-- Settles O40: both events end the read in the state it is in. -/
theorem framerStreamEndAndFailure : Obligations.FramerStreamEndAndFailure := by
  intro s rest h ended
  have hended : ∀ e, finishErr s.fstate e (withRx rest s) = ended e := by
    intro e
    rw [finishErr, setWidth_fstateWord]
    rfl
  exact ⟨fun hr => (engineStep_reading h hr).trans (hended _),
    fun hr => (engineStep_reading h hr).trans (hended _)⟩

/-- Settles O41: an accepted byte is the last one exactly when TXPOS reaches the length of TXBUF. -/
theorem transmitterStep : Obligations.TransmitterStep := by
  intro s a rest hf ht hlt h260 gone
  have hstep := engineStep_sending hf ht
  have hpos := txpos_succ_toNat hlt h260
  have hsend : sendByte (withTx rest s) = gone := sendByte_of_lt (s := withTx rest s) hlt
  refine ⟨?_, ?_, ?_⟩
  · rintro rfl hmore
    exact (hstep.trans (acceptByte_of_more (hpos.trans_ne hmore.ne))).trans hsend
  · rintro rfl hlast
    have hall : (s.txpos + 1).toNat = s.txbuf.length := hpos.trans hlast
    have hres1 : (s.txpos + 1).setWidth 32 = BitVec.ofNat 32 s.txbuf.length := by
      rw [← hall, BitVec.ofNat_toNat]
    rw [hstep, ← frOf_eq_ofNat, ← hres1, ← hsend]
    exact acceptByte_of_last (s := withTx rest s) hall
  · rintro rfl
    rw [hstep, BitVec.ofNat_toNat]
    rfl

/-- Settles O42: each engine step leaves the state as it is, so any number of them does. -/
theorem engineWaitsWithoutInput : Obligations.EngineWaitsWithoutInput := by
  intro n s hm hw
  have hwait : engineStep s = s := engineStep_waiting (hw.imp_right (Or.imp_right .inl))
  exact runs_of_step_self ((step_of_no_move hm).trans (congrArg Host.Outcome.next hwait)) n

end Sys2Proof.Machine
end

section
/-! PROOFS. The family of spec/46_stream.md, runs: while the host stays silent, a read takes noise, a
header and a body in turn (R217, law 1), and a write sends its frame or the first bytes of it (R213 to
R215). -/

namespace Sys2Proof.Machine

/-! ## Runs of a core whose host is silent -/

/-- With no move left a step of a run is a step of the engine. -/
theorem runs_succ_of_engineStep {s t : State} (h : engineStep s = t) (hm : s.env.moves = []) (n : Nat) :
    runs (n + 1) s = runs n t :=
  runs_succ ((step_of_no_move hm).trans (congrArg Host.Outcome.next h)) n

/-- The step in which a ready core issues a word, be it a command or not. -/
theorem step_of_ready_write {s : State} {v : Nat} {rest : List Move} (hb : s.busy = false)
    (hm : s.env.moves = .host (.write 0 v) :: rest) :
    step s = issue (BitVec.ofNat 32 v) (acceptCmd (BitVec.ofNat 32 v) (withMoves rest s)) :=
  (step_of_move hm).trans (if_neg (by simp [hb]))

/-! ## Reading, one byte a step -/

/-- `s` after the framer has consumed `n` bytes, with the events `rest` still to come. -/
def consumed (n : Nat) (rest : List RxEvent) (s : State) : State :=
  { s with fcnt := s.fcnt + BitVec.ofNat 32 n, env := { s.env with rx := rest } }

theorem consumed_zero {s : State} {rest : List RxEvent} (h : s.env.rx = rest) : consumed 0 rest s = s := by
  simp [consumed, ← h]

theorem consumed_consumed (m n : Nat) (r rest : List RxEvent) (s : State) :
    consumed n rest (consumed m r s) = consumed (m + n) rest s := by
  simp [consumed, BitVec.ofNat_add, BitVec.add_assoc]

/-- `s` in READ_BODY with the bytes `x` in FBUF and `n` bytes to come. -/
def inBody (l : Byte) (x : List Byte) (n : Nat) (s : State) : State :=
  { s with fl := l, fbuf := x, frem := BitVec.ofNat 9 n, fstate := .readBody }

theorem inBody_frem_pred {n : Nat} (h : 1 ≤ n) (l : Byte) (x : List Byte) (s : State) :
    (inBody l x n s).frem - 1 = BitVec.ofNat 9 (n - 1) :=
  BitVec.ofNat_sub_ofNat_of_le n 1 (by decide) h

/-- A body byte before the last is kept (R206). -/
theorem engineStep_inBody_more {n : Nat} (h1 : 1 < n) (hn : n < 512) {l b : Byte} {x : List Byte}
    {rest : List RxEvent} {s : State} (hr : s.env.rx = .byte b :: rest) :
    engineStep (inBody l x n s) = inBody l (x ++ [b]) (n - 1) (consumed 1 rest s) := by
  have hmore : (inBody l x n s).frem ≠ 1 := fun h => by
    have hnat : n % 512 = 1 := congrArg BitVec.toNat h
    omega
  refine ((framerReadsTheBody (inBody l x n s) b rest rfl hr).1 hmore).trans ?_
  rw [inBody_frem_pred h1.le]
  rfl

/-- The last body byte completes a read whose bytes decode (R207). -/
theorem engineStep_inBody_last {l b : Byte} {x : List Byte} {f : Frame}
    (hf : frameDecode (x ++ [b]) = .ok f) {rest : List RxEvent} {s : State}
    (hr : s.env.rx = .byte b :: rest) :
    Stored (inBody l (x ++ [b]) 0 (consumed 1 rest s)) (engineStep (inBody l x 1 s)) f.region
      (BitVec.ofNat 64 (f.l.toNat + 256 * f.cs.toNat)) (consumed 1 rest s).fcnt := by
  have h := ((framerReadsTheBody (inBody l x 1 s) b rest rfl hr).2 rfl).2 f hf
  rw [inBody_frem_pred le_rfl] at h
  exact h

/-- Noise is dropped (R203). -/
theorem runs_of_noise {p : List Byte} (hp : ∀ b ∈ p, b ≠ 0x68) {rest : List RxEvent} {s : State}
    (hm : s.env.moves = []) (hf : s.fstate = .seekStart) (hr : s.env.rx = p.map RxEvent.byte ++ rest) :
    runs p.length s = .next (consumed p.length rest s) := by
  induction p generalizing s with
  | nil => exact congrArg Host.Outcome.next (consumed_zero hr).symm
  | cons b p ih =>
    obtain ⟨hb, hp⟩ := List.forall_mem_cons.1 hp
    have hstep : engineStep s = consumed 1 (p.map RxEvent.byte ++ rest) s :=
      (framerSeeksTheStartMarker s b _ hf hr).2 hb
    calc runs (p.length + 1) s = runs p.length (consumed 1 (p.map RxEvent.byte ++ rest) s) :=
          runs_succ_of_engineStep hstep hm _
      _ = .next (consumed p.length rest (consumed 1 (p.map RxEvent.byte ++ rest) s)) := ih hp hm hf rfl
      _ = .next (consumed (p.length + 1) rest s) := by rw [consumed_consumed, Nat.add_comm 1]

/-- Two start markers around a length other than 0 lead to READ_BODY in three steps (R203 to R205). -/
theorem runs_of_header {l : Byte} (hl : l ≠ 0) {rest : List RxEvent} {s : State} (hm : s.env.moves = [])
    (hf : s.fstate = .seekStart) (hr : s.env.rx = [.byte 0x68, .byte l, .byte 0x68] ++ rest) :
    runs 3 s = .next (inBody l [0x68, l, 0x68] (l.toNat + 2) (consumed 3 rest s)) := by
  -- `by exact` puts `hm` off until the framer's equation has named the state it speaks of.
  refine (runs_succ_of_engineStep ((framerSeeksTheStartMarker s _ _ hf hr).1 rfl) hm 2).trans ?_
  refine (runs_succ_of_engineStep ((framerReadsTheLength _ l _ rfl rfl).2 hl) (by exact hm) 1).trans ?_
  refine (runs_succ_of_engineStep ((framerReadsTheSecondMarker _ _ rest rfl rfl).2 rfl) (by exact hm)
    0).trans ?_
  simp [inBody, consumed, BitVec.add_assoc]

/-- Body bytes before the last are kept (R206). -/
theorem runs_of_body {x : List Byte} {n : Nat} (hx : x.length < n) (hn : n < 512) {l : Byte}
    {y : List Byte} {rest : List RxEvent} {s : State} (hm : s.env.moves = [])
    (hr : s.env.rx = x.map RxEvent.byte ++ rest) :
    runs x.length (inBody l y n s) =
      .next (inBody l (y ++ x) (n - x.length) (consumed x.length rest s)) := by
  induction x generalizing n y s with
  | nil =>
    rw [List.length_nil, consumed_zero (rest := rest) hr, List.append_nil]
    rfl
  | cons b x ih =>
    rw [List.length_cons] at hx
    have hstep := engineStep_inBody_more (by omega) hn (l := l) (x := y) hr
    calc runs (x.length + 1) (inBody l y n s)
      _ = runs x.length (inBody l (y ++ [b]) (n - 1) (consumed 1 (x.map RxEvent.byte ++ rest) s)) :=
          runs_succ_of_engineStep hstep hm _
      _ = .next (inBody l (y ++ [b] ++ x) (n - 1 - x.length)
            (consumed x.length rest (consumed 1 (x.map RxEvent.byte ++ rest) s))) :=
          ih (by omega) (by omega) hm rfl
      _ = .next (inBody l (y ++ b :: x) (n - (x.length + 1)) (consumed (x.length + 1) rest s)) := by
          rw [consumed_consumed, Nat.sub_sub, Nat.add_comm 1, List.append_assoc, List.singleton_append]

/-- Noise, a header and the body bytes before the last are taken in a row. -/
theorem runs_before_last {p x : List Byte} {l : Byte} (hp : ∀ b ∈ p, b ≠ 0x68) (hl : l ≠ 0)
    (hx : x.length = l.toNat + 1) {rest : List RxEvent} {s : State} (hm : s.env.moves = [])
    (hf : s.fstate = .seekStart) (hr : s.env.rx =
      p.map RxEvent.byte ++ ([.byte 0x68, .byte l, .byte 0x68] ++ (x.map RxEvent.byte ++ rest))) :
    runs (p.length + (3 + x.length)) s =
      .next (inBody l ([0x68, l, 0x68] ++ x) 1 (consumed (p.length + (3 + x.length)) rest s)) := by
  have hone : l.toNat + 2 - x.length = 1 := by omega
  rw [runs_add (runs_of_noise hp hm hf hr), runs_add (runs_of_header hl (by exact hm) (by exact hf) rfl),
    runs_of_body (by omega) (by omega) (by exact hm) rfl, consumed_consumed, consumed_consumed, hone]

theorem frameOf_eq_append (r : List Byte) :
    frameOf r = [0x68, BitVec.ofNat 8 r.length, 0x68] ++ (r ++ [checksum r]) ++ [0x16] := by
  rw [← List.append_assoc, List.append_assoc _ [checksum r]]
  rfl

/-- A read from SEEK_START takes noise and a whole frame, and completes with the frame's region. -/
theorem runs_of_frame {p r : List Byte} (hp : ∀ b ∈ p, b ≠ 0x68) (h2 : 2 ≤ r.length)
    (h255 : r.length ≤ 255) {rest : List RxEvent} {s : State} (hm : s.env.moves = [])
    (hf : s.fstate = .seekStart)
    (hr : s.env.rx = p.map RxEvent.byte ++ (frameOf r).map RxEvent.byte ++ rest) :
    ∃ t, runs (p.length + (frameOf r).length) s = .next t ∧
      Stored (inBody (BitVec.ofNat 8 r.length) (frameOf r) 0
          (consumed (p.length + (frameOf r).length) rest s)) t r
        (BitVec.ofNat 64 (r.length + 256 * (checksum r).toNat))
        (s.fcnt + BitVec.ofNat 32 (p.length + (frameOf r).length)) := by
  have hframe := frameOf_eq_append r
  have hl := toNat_lengthByte h255
  have hl0 : BitVec.ofNat 8 r.length ≠ 0 := fun h => by
    have : 0 = r.length := (congrArg BitVec.toNat h).symm.trans hl
    omega
  have hrun := runs_before_last (x := r ++ [checksum r]) (rest := .byte 0x16 :: rest) hp hl0
    (by simp [hl]) hm hf (by simpa [hframe] using hr)
  have hlast := engineStep_inBody_last (l := BitVec.ofNat 8 r.length)
    (s := consumed (p.length + (3 + (r ++ [checksum r]).length)) (.byte 0x16 :: rest) s)
    (hframe ▸ frameDecode_frameOf h2 h255) rfl
  rw [consumed_consumed, ← hframe] at hlast
  dsimp only at hlast
  rw [hl] at hlast
  have hlen : p.length + (frameOf r).length = p.length + (3 + (r ++ [checksum r]).length) + 1 := by
    simp only [hframe, List.length_append, List.length_cons, List.length_nil]
    omega
  rw [hlen, runs_add hrun]
  exact ⟨_, runs_succ_of_engineStep rfl (by exact hm) 0, hlast⟩

/-! ## Writing, one byte a step -/

/-- `s` in a write of `w` whose first `k` bytes are out, with the answers `rest` still to come. -/
def sendingAt (w : List Byte) (k : Nat) (rest : List TxAnswer) (s : State) : State :=
  { startSend w s with
    txpos := BitVec.ofNat 9 k, env := { s.env with tx := rest, sent := s.env.sent ++ w.take k } }

theorem sendingAt_zero (w : List Byte) {rest : List TxAnswer} {s : State} (h : s.env.tx = rest) :
    sendingAt w 0 rest s = startSend w s := by
  rw [sendingAt, List.take_zero, List.append_nil, ← h]
  rfl

/-- TXPOS and the TX stream after one more byte. -/
theorem sendingAt_succ {w : List Byte} {k : Nat} (h : k < w.length) (rest : List TxAnswer) (s : State) :
    { startSend w s with
      txpos := BitVec.ofNat 9 k + 1,
      env := { s.env with tx := rest, sent := s.env.sent ++ w.take k ++ [w.getD k 0] } } =
      sendingAt w (k + 1) rest s := by
  rw [sendingAt, BitVec.ofNat_add, List.take_succ_eq_append_getElem h, List.getD_eq_getElem _ _ h,
    List.append_assoc]
  rfl

/-- What the answer to the byte after the first `k` does: O41 within a write. -/
theorem engineStep_sendingAt {w : List Byte} (h260 : w.length ≤ 260) {k : Nat} (hk : k < w.length)
    (rest : List TxAnswer) (s : State) :
    (k + 1 < w.length → engineStep (sendingAt w k (.accept :: rest) s) = sendingAt w (k + 1) rest s) ∧
    (k + 1 = w.length → engineStep (sendingAt w k (.accept :: rest) s) =
      succeeded (sendingAt w (k + 1) rest s)
        (BitVec.ofNat 64 ((w.getD 1 0).toNat + 256 * (w.getD (w.length - 2) 0).toNat))
        (BitVec.ofNat 32 w.length)) ∧
    engineStep (sendingAt w k (.fail :: rest) s) = { sendingAt w k rest s with
      code := .err .connectionError, res0 := 0, res1 := BitVec.ofNat 32 k, olen := 0, busy := false,
      fstate := .idle } := by
  have hpos : ∀ as, (sendingAt w k as s).txpos.toNat = k := fun _ => Nat.mod_eq_of_lt (by omega)
  have hstep := fun a => transmitterStep (sendingAt w k (a :: rest) s) a rest rfl rfl
  simp only [hpos] at hstep
  rw [← sendingAt_succ hk]
  exact ⟨(hstep .accept hk h260).1 rfl, (hstep .accept hk h260).2.1 rfl, (hstep .fail hk h260).2.2 rfl⟩

section
variable {w : List Byte} {s : State} (hm : s.env.moves = []) (h260 : w.length ≤ 260)
include hm h260

/-- While some bytes are left after them, accepted bytes go out (R214). -/
theorem runs_of_accepts {k : Nat} (hk : k < w.length) {rest : List TxAnswer}
    (ht : s.env.tx = List.replicate k .accept ++ rest) :
    runs k (startSend w s) = .next (sendingAt w k rest s) := by
  induction k generalizing rest with
  | zero => rw [sendingAt_zero w (rest := rest) ht, runs_zero]
  | succ k ih =>
    have hk' := Nat.lt_of_succ_lt hk
    have hrun : runs k (startSend w s) = .next (sendingAt w k (.accept :: rest) s) :=
      ih hk' (by rw [ht, List.replicate_succ', List.append_assoc, List.singleton_append])
    rw [runs_add hrun]
    exact runs_succ_of_engineStep ((engineStep_sendingAt h260 hk' rest s).1 hk) hm 0

/-- A write whose bytes are all accepted completes with the FR and the length of its frame (R214). -/
theorem runs_of_all_accepted (h0 : w.length ≠ 0) {rest : List TxAnswer}
    (ht : s.env.tx = List.replicate w.length .accept ++ rest) :
    runs w.length (startSend w s) = .next (succeeded (sendingAt w w.length rest s)
      (BitVec.ofNat 64 ((w.getD 1 0).toNat + 256 * (w.getD (w.length - 2) 0).toNat))
      (BitVec.ofNat 32 w.length)) := by
  obtain ⟨n, hn⟩ := Nat.exists_eq_succ_of_ne_zero h0
  have hn' : n < w.length := Nat.lt_of_succ_le hn.ge
  have hlast := (engineStep_sendingAt h260 hn' rest s).2.1 hn.symm
  rw [hn, List.replicate_succ', List.append_assoc] at ht
  have hrun := (runs_add (runs_of_accepts hm h260 hn' ht) 1).trans
    (runs_succ_of_engineStep hlast hm 0)
  rwa [← Nat.succ_eq_add_one, ← hn] at hrun

/-- A write that the port fails after `k` bytes ends with ConnectionError and that count (R215). -/
theorem runs_of_failure {k : Nat} (hk : k < w.length) {rest : List TxAnswer}
    (ht : s.env.tx = List.replicate k .accept ++ .fail :: rest) :
    runs (k + 1) (startSend w s) = .next { sendingAt w k rest s with
      code := .err .connectionError, res0 := 0, res1 := BitVec.ofNat 32 k, olen := 0, busy := false,
      fstate := .idle } := by
  rw [runs_add (runs_of_accepts hm h260 hk ht)]
  exact runs_succ_of_engineStep (engineStep_sendingAt h260 hk rest s).2.2 hm 0

end

/-- TXBUF[1] and TXBUF[len-2] of a frame are its length byte and its checksum (R214). -/
theorem frameOf_fr {r : List Byte} (h255 : r.length ≤ 255) :
    ((frameOf r).getD 1 0).toNat + 256 * ((frameOf r).getD ((frameOf r).length - 2) 0).toNat =
      r.length + 256 * (checksum r).toNat := by
  have hbyte : (frameOf r).getD 1 0 = BitVec.ofNat 8 r.length := rfl
  have hcs : (frameOf r).getD ((frameOf r).length - 2) 0 = checksum r := by
    rw [frameOf, enveloped_length]
    exact enveloped_getD_checksum ..
  rw [hbyte, hcs, toNat_lengthByte h255]

/-! ## The issue, on a ready core -/

/-- `s` with a read begun (R201). -/
def startRead (s : State) : State :=
  { s with fcnt := 0, fbuf := [], fl := 0, frem := 0, fstate := .seekStart, busy := true }

theorem step_of_rdfrm_write {s : State} {rest : List Move} (hb : s.busy = false)
    (hm : s.env.moves = .host (.write 0 0x60) :: rest) :
    step s = .next (startRead (acceptCmd 0x60 (withMoves rest s))) :=
  (step_of_ready_write hb hm).trans
    (((rdfrmStartsTheFramer.1 0 (by decide) _).1 le_rfl).trans (rdfrmStartsTheFramer.2 _))

theorem step_of_wrfrm_write {s : State} {r w : List Byte} {rest : List Move} (hb : s.busy = false)
    (hr : Holds s.ibuf r) (hw : frameEncode r = .ok w)
    (hm : s.env.moves = .host (.write 0 (0x61 + r.length * 65536)) :: rest) :
    step s = .next (startSend w
      (acceptCmd (BitVec.ofNat 32 (0x61 + r.length * 65536)) (withMoves rest s))) := by
  have h255 := (frameEncode_eq_ok hw).1
  rw [step_of_ready_write hb hm, (wrfrmLoadsTheFrame.1 r.length (by omega) _).1 (by omega)]
  exact exec_wrfrm_of_ok hr hw

/-! ## What the host finds after a success -/

/-- What a completion with output bytes leaves, register by register (R233). -/
theorem Stored.results {s t : State} {out : List Byte} {r0 : Word64} {r1 : BitVec 32}
    (h : Stored s t out r0 r1) :
    t.code = .ok ∧ t.busy = false ∧ t.fstate = .idle ∧ t.olen = BitVec.ofNat 16 out.length ∧
      Holds t.obuf out ∧ t.res0 = r0 ∧ t.res1 = r1 ∧ t.env = s.env ∧ t.ibuf = s.ibuf ∧
      t.arg0 = s.arg0 := by
  obtain ⟨ht, hload⟩ := h
  have hout : Holds t.obuf out := fun i hi => (hload i).trans (if_pos hi)
  rw [ht]
  exact ⟨rfl, rfl, rfl, rfl, hout, rfl, rfl, rfl, rfl, rfl⟩

/-! ## The obligations -/

/-- Settles O58: the issue step, then `runs_of_frame`. -/
theorem readResynchronises : Obligations.ReadResynchronises := by
  intro s p r w rest hb hm hr hp hw h2
  obtain ⟨h255, rfl⟩ := frameEncode_eq_ok hw
  obtain ⟨t, hrun, hstored⟩ :=
    runs_of_frame (s := startRead (acceptCmd 0x60 (withMoves [] s))) hp h2 h255 rfl rfl hr
  obtain ⟨hcode, hbusy, hfstate, holen, hobuf, hres0, hres1, henv, hibuf, harg0⟩ := hstored.results
  refine ⟨t, ?_, hcode, hbusy, hfstate, ?_, hobuf, hres0, ?_, congrArg Env.rx henv, hibuf, harg0⟩
  · rw [Nat.add_assoc, Nat.add_comm 1, runs_succ (step_of_rdfrm_write hb hm), hrun]
  · rw [holen, BitVec.toNat_ofNat, Nat.mod_eq_of_lt (by omega)]
  · exact hres1.trans (BitVec.zero_add _)

/-- Settles O59: the issue step, then `runs_of_all_accepted` or `runs_of_failure`. -/
theorem writeSendsTheFrame : Obligations.WriteSendsTheFrame := by
  intro s r w rest hb hr hw hm
  have hissue := step_of_wrfrm_write hb hr hw hm
  obtain ⟨h255, rfl⟩ := frameEncode_eq_ok hw
  have hlen : (frameOf r).length = r.length + 5 := enveloped_length ..
  have h260 : (frameOf r).length ≤ 260 := by omega
  refine ⟨fun ht => ?_, fun k hk ht => ?_⟩
  · rw [Nat.add_comm 1, runs_succ hissue]
    exact ⟨_, runs_of_all_accepted rfl h260 (by omega) ht, rfl, rfl, rfl,
      congrArg (s.env.sent ++ ·) List.take_length, rfl, rfl, rfl,
      congrArg (BitVec.ofNat 64) (frameOf_fr h255), rfl⟩
  · rw [Nat.add_comm 2, runs_succ hissue]
    exact ⟨_, runs_of_failure rfl h260 hk ht, rfl, rfl, rfl, rfl, rfl, rfl, rfl, rfl, rfl⟩

end Sys2Proof.Machine
end

section
/-! PROOFS. The family of spec/60_exceptions.md, invariant: every step keeps `State.Inv`. It is three
claims that different moves can break: one about IBUF, which the host writes, one about the results,
which completions write, and one about the engine, which issue starts and engine steps move on. -/

namespace Sys2Proof.Machine

/-! ## The parts of the invariant -/

/-- The results are in range: OBUF (20_memory.md R51), OLEN (10_state.md R26), CODE (R231). -/
structure ResultsOk (s : State) : Prop where
  obuf_ok : Memory.ok s.obuf
  olen_le : s.olen.toNat ≤ Config.bufSize
  code_ok : s.code ≠ .err .dataError ∧ s.code ≠ .err .authError

/-- The engine is in order: the sizes of FBUF and TXBUF (10_state.md R33, R34), BUSY (R22), and the
hidden registers for FSTATE. -/
structure EngineInv (s : State) : Prop where
  fbuf_size  : s.fbuf.length ≤ 260
  txbuf_size : s.txbuf.length ≤ 260
  busy_iff   : s.busy = true ↔ s.fstate ≠ .idle
  engine_ok  : engineOk s

theorem State.inv_iff (s : State) : s.Inv ↔ Memory.ok s.ibuf ∧ ResultsOk s ∧ EngineInv s := by
  constructor
  · rintro ⟨hi, ho, hf, ht, hl, hc, hb, he⟩
    exact ⟨hi, ⟨ho, hl, hc⟩, ⟨hf, ht, hb, he⟩⟩
  · rintro ⟨hi, ⟨ho, hl, hc⟩, ⟨hf, ht, hb, he⟩⟩
    exact ⟨hi, ho, hf, ht, hl, hc, hb, he⟩

/-! ## The buffers and the results -/

theorem Memory.ok_store {m : Memory} {a : Nat} (h : Memory.ok m) (ha : a < Config.bufSize) (v : Byte) :
    Memory.ok (Memory.store m a v) := by
  refine ⟨Memory.wf_store h.1 a v, fun c hc => ?_⟩
  rcases Memory.mem_store hc with rfl | hc
  · exact ha
  · exact h.2 c hc

theorem Memory.ok_storeRange {m : Memory} {x : List Byte} (h : Memory.ok m)
    (hx : x.length ≤ Config.bufSize) : Memory.ok (Memory.storeRange m 0 x) := by
  refine ⟨Memory.wf_storeRange h.1 0 x, fun c hc => ?_⟩
  rcases Memory.mem_storeRange hc with ⟨-, hlt⟩ | hc
  · omega
  · exact h.2 c hc

theorem ResultsOk.of_sameResults {s t : State} (h : ResultsOk s) (hst : SameResults s t) :
    ResultsOk t := by
  obtain ⟨hc, -, -, hl, ho⟩ := hst
  exact ⟨ho ▸ h.obuf_ok, hl ▸ h.olen_le, hc ▸ h.code_ok⟩

theorem ResultsOk.of_error {s t : State} {e : ErrorKind} (h : ResultsOk s) (hc : t.code = .err e)
    (he : e ≠ .dataError ∧ e ≠ .authError) (ho : t.obuf = s.obuf) (hl : t.olen = 0) :
    ResultsOk t where
  obuf_ok := ho ▸ h.obuf_ok
  olen_le := by simp [hl]
  code_ok := by simpa [hc] using he

theorem ResultsOk.of_success {s t : State} {out : List Byte} (h : ResultsOk s) (hc : t.code = .ok)
    (hn : out.length ≤ Config.bufSize) (ho : t.obuf = Memory.storeRange s.obuf 0 out)
    (hl : t.olen = BitVec.ofNat 16 out.length) : ResultsOk t where
  obuf_ok := ho ▸ Memory.ok_storeRange h.obuf_ok hn
  olen_le := by
    rw [hl, BitVec.toNat_ofNat]
    exact (Nat.mod_le ..).trans hn
  code_ok := by simp [hc]

/-- A command that completes at issue leaves its results in range. -/
theorem Ends.resultsOk {s t : State} (h : Ends Config.bufSize s t) (hs : ResultsOk s) :
    ResultsOk t := by
  rcases h with ⟨e, rfl, he⟩ | ⟨r, rfl, hn⟩
  · exact hs.of_error rfl he rfl rfl
  · exact hs.of_success rfl hn rfl rfl

/-- A step of the engine leaves the results in range. -/
theorem EngineEnd.resultsOk {s t : State} (h : EngineEnd s t) (hs : ResultsOk s) : ResultsOk t := by
  cases h with
  | goesOn hst hb => exact hs.of_sameResults hst
  | error e hc he ho hl hb hf => exact hs.of_error hc he ho hl
  | success out hc hn ho hl hb hf => exact hs.of_success hc (hn.trans (by decide)) ho hl

/-! ## What the engine's registers hold, state by state -/

section
variable {s : State}

theorem engineOk_seekStart (h : s.fstate = .seekStart) :
    engineOk s ↔ s.fbuf = [] ∧ s.fl = 0 ∧ s.frem = 0 := by
  rw [engineOk, h]

theorem engineOk_readLength (h : s.fstate = .readLength) :
    engineOk s ↔ s.fbuf = [Config.start] ∧ s.fl = 0 ∧ s.frem = 0 := by
  rw [engineOk, h]

theorem engineOk_readSecondStart (h : s.fstate = .readSecondStart) :
    engineOk s ↔ s.fbuf = [Config.start, s.fl] ∧ s.fl ≠ 0 ∧ s.frem = 0 := by
  rw [engineOk, h]

theorem engineOk_readBody (h : s.fstate = .readBody) :
    engineOk s ↔ s.fbuf.take 3 = [Config.start, s.fl, Config.start] ∧ s.fl ≠ 0 ∧ s.frem ≠ 0 ∧
      s.fbuf.length + s.frem.toNat = s.fl.toNat + 5 := by
  rw [engineOk, h]

theorem engineOk_tx (h : s.fstate = .tx) :
    engineOk s ↔ (∃ r, frameEncode r = .ok s.txbuf) ∧ s.txpos.toNat < s.txbuf.length := by
  rw [engineOk, h]

/-- With no command in progress only the sizes are left to show. -/
theorem EngineInv.of_idle (hb : s.busy = false) (hf : s.fstate = .idle) (hfb : s.fbuf.length ≤ 260)
    (htx : s.txbuf.length ≤ 260) : EngineInv s where
  fbuf_size := hfb
  txbuf_size := htx
  busy_iff := by simp [hb, hf]
  engine_ok := by rw [engineOk, hf]; trivial

theorem EngineInv.of_busy (hb : s.busy = true) (hf : s.fstate ≠ .idle) (hfb : s.fbuf.length ≤ 260)
    (htx : s.txbuf.length ≤ 260) (he : engineOk s) : EngineInv s :=
  ⟨hfb, htx, iff_of_true hb hf, he⟩

theorem EngineInv.with_env (h : EngineInv s) (e : Env) : EngineInv { s with env := e } :=
  ⟨h.fbuf_size, h.txbuf_size, h.busy_iff, h.engine_ok⟩

/-! ## The framer's steps -/

theorem finishErr_engineInv (h : EngineInv s) (f : FState) (e : ErrorKind) :
    EngineInv (finishErr f e s) :=
  .of_idle rfl rfl h.fbuf_size h.txbuf_size

theorem finalize_engineInv (hfb : s.fbuf.length ≤ 260) (htx : s.txbuf.length ≤ 260) :
    EngineInv (finalize s) := by
  cases hd : frameDecode s.fbuf with
  | ok f => rw [finalize_of_ok hd]; exact .of_idle rfl rfl hfb htx
  | error e => rw [finalize_of_error hd]; exact .of_idle rfl rfl hfb htx

theorem seekStartByte_engineInv (h : EngineInv s) (hf : s.fstate = .seekStart) (b : Byte) :
    EngineInv (seekStartByte b s) := by
  obtain ⟨hfb, hfl, hfrem⟩ := (engineOk_seekStart hf).1 h.engine_ok
  have hbusy := h.busy_iff.2 (by simp [hf])
  unfold seekStartByte
  split
  · rename_i hb
    exact .of_busy hbusy (by simp) (by simp) h.txbuf_size
      ((engineOk_readLength rfl).2 ⟨congrArg (fun b => [b]) hb, hfl, hfrem⟩)
  · exact .of_busy hbusy (by simp [hf]) h.fbuf_size h.txbuf_size
      ((engineOk_seekStart hf).2 ⟨hfb, hfl, hfrem⟩)

theorem readLengthByte_engineInv (h : EngineInv s) (hf : s.fstate = .readLength) (b : Byte) :
    EngineInv (readLengthByte b s) := by
  obtain ⟨hfb, -, hfrem⟩ := (engineOk_readLength hf).1 h.engine_ok
  have hbusy := h.busy_iff.2 (by simp [hf])
  have hbuf : (keepByte b s).fbuf = [Config.start, b] := by rw [keepByte_fbuf, hfb]; rfl
  have hsize : (keepByte b s).fbuf.length ≤ 260 := by rw [hbuf]; simp
  unfold readLengthByte
  dsimp only
  split
  · exact .of_idle rfl rfl hsize h.txbuf_size
  · rename_i hb
    exact .of_busy hbusy (by simp) hsize h.txbuf_size
      ((engineOk_readSecondStart rfl).2 ⟨hbuf, hb, hfrem⟩)

theorem readSecondStartByte_engineInv (h : EngineInv s) (hf : s.fstate = .readSecondStart) (b : Byte) :
    EngineInv (readSecondStartByte b s) := by
  obtain ⟨hfb, hfl, -⟩ := (engineOk_readSecondStart hf).1 h.engine_ok
  have hbusy := h.busy_iff.2 (by simp [hf])
  have hbuf : (keepByte b s).fbuf = [Config.start, s.fl, b] := by rw [keepByte_fbuf, hfb]; rfl
  have hsize : (keepByte b s).fbuf.length ≤ 260 := by rw [hbuf]; simp
  have hfrem : (s.fl.setWidth 9 + 2).toNat = s.fl.toNat + 2 := by
    rw [frem_of_fl, BitVec.toNat_ofNat]
    omega
  unfold readSecondStartByte
  split
  · rename_i hb
    refine .of_busy hbusy (by simp) hsize h.txbuf_size ((engineOk_readBody rfl).2 ⟨?_, hfl, ?_, ?_⟩)
    · exact (congrArg (List.take 3) hbuf).trans (by rw [hb]; rfl)
    · exact fun h0 => absurd (hfrem.symm.trans (congrArg BitVec.toNat h0)) (by simp)
    · exact (congrArg₂ (List.length · + ·) hbuf hfrem).trans (Nat.add_comm 3 _)
  · exact .of_idle rfl rfl hsize h.txbuf_size

theorem readBodyByte_engineInv (h : EngineInv s) (hf : s.fstate = .readBody) (b : Byte) :
    EngineInv (readBodyByte b s) := by
  obtain ⟨htake, hfl, hfrem, hlen⟩ := (engineOk_readBody hf).1 h.engine_ok
  have hpos : s.frem.toNat ≠ 0 := fun h0 => hfrem (BitVec.eq_of_toNat_eq h0)
  have hkept : (keepByte b s).fbuf.length = s.fbuf.length + 1 := by simp
  have hsize : (keepByte b s).fbuf.length ≤ 260 := by omega
  by_cases hlast : s.frem - 1 = 0
  · rw [readBodyByte_of_last hlast]
    exact finalize_engineInv hsize h.txbuf_size
  · rw [readBodyByte_of_more hlast]
    refine .of_busy (h.busy_iff.2 (by simp [hf])) (by simp [hf]) hsize h.txbuf_size
      ((engineOk_readBody (s := { keepByte b s with frem := s.frem - 1 }) hf).2 ⟨?_, hfl, hlast, ?_⟩)
    · have h3 : 3 ≤ s.fbuf.length := by simpa using congrArg List.length htake
      exact (List.take_append_of_le_length h3).trans htake
    · have hpred : (s.frem - 1).toNat = s.frem.toNat - 1 :=
        BitVec.toNat_sub_of_le (BitVec.le_def.2 (Nat.pos_of_ne_zero hpos))
      exact (congrArg₂ (· + ·) hkept hpred).trans
        (show s.fbuf.length + 1 + (s.frem.toNat - 1) = s.fl.toNat + 5 by omega)

theorem takeByte_engineInv (h : EngineInv s) (b : Byte) : EngineInv (takeByte b s) := by
  cases hf : s.fstate with
  | seekStart => rw [takeByte, hf]; exact seekStartByte_engineInv h hf b
  | readLength => rw [takeByte, hf]; exact readLengthByte_engineInv h hf b
  | readSecondStart => rw [takeByte, hf]; exact readSecondStartByte_engineInv h hf b
  | readBody => rw [takeByte, hf]; exact readBodyByte_engineInv h hf b
  | idle | done | tx => rw [takeByte, hf]; exact h

theorem takeEvent_engineInv (h : EngineInv s) (e : RxEvent) : EngineInv (takeEvent e s) := by
  cases e with
  | byte b => exact takeByte_engineInv h b
  | streamEnd | fail => exact finishErr_engineInv h _ _

/-! ## The transmitter's steps -/

theorem acceptByte_engineInv (h : EngineInv s) (hf : s.fstate = .tx) : EngineInv (acceptByte s) := by
  obtain ⟨hframe, hlt⟩ := (engineOk_tx hf).1 h.engine_ok
  have hpos := txpos_succ_toNat hlt h.txbuf_size
  by_cases hlast : (s.txpos + 1).toNat = s.txbuf.length
  · rw [acceptByte_of_last hlast]
    exact .of_idle rfl rfl h.fbuf_size h.txbuf_size
  · rw [acceptByte_of_more hlast]
    exact .of_busy (h.busy_iff.2 (by simp [hf])) (by simp [hf]) h.fbuf_size h.txbuf_size
      ((engineOk_tx (s := sendByte s) hf).2
        ⟨hframe, show (s.txpos + 1).toNat < s.txbuf.length by omega⟩)

theorem takeAnswer_engineInv (h : EngineInv s) (hf : s.fstate = .tx) (a : TxAnswer) :
    EngineInv (takeAnswer a s) := by
  cases a with
  | accept => exact acceptByte_engineInv h hf
  | fail => exact .of_idle rfl rfl h.fbuf_size h.txbuf_size

end

/-- A step of the engine leaves it in order. -/
theorem engineStep_engineInv {s : State} (h : EngineInv s) : EngineInv (engineStep s) := by
  cases hf : s.fstate with
  | idle | done => rwa [engineStep_waiting (by simp [hf])]
  | tx =>
    cases hq : s.env.tx with
    | nil => rwa [engineStep_waiting (.inr (.inl ⟨hf, hq⟩))]
    | cons a rest =>
      rw [engineStep_sending hf hq]
      exact takeAnswer_engineInv (h.with_env _ : EngineInv (withTx rest s)) hf a
  | seekStart | readLength | readSecondStart | readBody =>
    have hread : isReading s.fstate = true := by rw [hf]; rfl
    cases hq : s.env.rx with
    | nil => rwa [engineStep_waiting (.inl ⟨hread, hq⟩)]
    | cons e rest =>
      rw [engineStep_reading hread hq]
      exact takeEvent_engineInv (h.with_env _ : EngineInv (withRx rest s)) e

/-! ## The invariant, move by move -/

/-- A step of the engine keeps the invariant: it leaves IBUF alone. -/
theorem engineStep_inv {s : State} (h : s.Inv) : (engineStep s).Inv := by
  obtain ⟨hi, hr, he⟩ := s.inv_iff.1 h
  exact (State.inv_iff _).2
    ⟨(engineStep_frame s).ibuf ▸ hi, (engineStep_end s).resultsOk hr, engineStep_engineInv he⟩

theorem applyReset_inv (s : State) : (applyReset s).Inv := resetMeetsTheInvariant.with_env s.env

theorem Ends.inv {s t : State} (h : Ends Config.bufSize s t) (hs : s.Inv) : t.Inv := by
  obtain ⟨hi, hr, he⟩ := s.inv_iff.1 hs
  refine (State.inv_iff _).2 ⟨?_, h.resultsOk hr, ?_⟩
  · rcases h with ⟨e, rfl, -⟩ | ⟨r, rfl, -⟩ <;> exact hi
  · rcases h with ⟨e, rfl, -⟩ | ⟨r, rfl, -⟩ <;> exact .of_idle rfl rfl he.fbuf_size he.txbuf_size

theorem startRead_inv {s : State} (hs : s.Inv) : (startRead s).Inv := by
  obtain ⟨hi, hr, he⟩ := s.inv_iff.1 hs
  have hseek : engineOk (startRead s) := (engineOk_seekStart rfl).2 ⟨rfl, rfl, rfl⟩
  exact (State.inv_iff _).2 ⟨hi, hr.of_sameResults (.rfl' s),
    .of_busy rfl (by simp [startRead]) (Nat.zero_le _) he.txbuf_size hseek⟩

/-- An encoded frame fills TXBUF with at most 260 bytes, none of them sent. -/
theorem startSend_inv {s : State} {r f : List Byte} (hf : frameEncode r = .ok f) (hs : s.Inv) :
    (startSend f s).Inv := by
  obtain ⟨hi, hr, he⟩ := s.inv_iff.1 hs
  have hlen : f.length = r.length + 5 ∧ r.length ≤ 255 := by
    obtain ⟨h255, rfl⟩ := frameEncode_eq_ok hf
    exact ⟨enveloped_length .., h255⟩
  have hsend : engineOk (startSend f s) :=
    (engineOk_tx rfl).2 ⟨⟨r, hf⟩, show 0 < f.length by omega⟩
  exact (State.inv_iff _).2 ⟨hi, hr.of_sameResults (.rfl' s),
    .of_busy rfl (by simp) he.fbuf_size (show f.length ≤ 260 by omega) hsend⟩

/-- A well-formed command keeps the invariant: its output fits OBUF. -/
theorem exec_inv {i : Instr} {s t : State} (hi : i.WellFormed) (h : exec i s = .next t)
    (hs : s.Inv) : t.Inv := by
  rcases exec_cases h with ⟨-, rfl⟩ | ⟨n, r, f, -, hf, rfl⟩ | ⟨-, he⟩
  · exact startRead_inv hs
  · exact startSend_inv hf hs
  · exact (he.mono (outMax_le hi)).inv hs

theorem issue_inv {w : CmdWord} {s t : State} (h : issue w s = .next t) (hs : s.Inv) : t.Inv := by
  rcases issue_cases h with ⟨-, rfl⟩ | ⟨i, hi, hx⟩
  · exact Ends.inv (.inl ⟨_, rfl, by decide, by decide⟩) hs
  · exact exec_inv (wellFormed_of_decode hi) hx hs

/-- The invariant does not speak of CMD, CMDLOST and ARG0. -/
theorem State.Inv.with_host_registers {s : State} (h : s.Inv) (w : CmdWord) (l : Bool) (a : Word64) :
    { s with cmd := w, cmdLost := l, arg0 := a }.Inv := by
  obtain ⟨h1, h2, h3, h4, h5, h6, h7, h8⟩ := h
  exact ⟨h1, h2, h3, h4, h5, h6, h7, h8⟩

theorem writeRegister_inv {s : State} (h : s.Inv) (r v : Nat) : (writeRegister r v s).Inv := by
  by_cases h2 : r = 2
  · rw [h2, writeRegister_arg0]
    exact h.with_host_registers s.cmd s.cmdLost _
  · rwa [writeRegister_of_ne r v s h2]

/-- A byte the host writes lies below BUF_SIZE (10_state.md R43). -/
theorem writeIbuf_inv {s : State} (h : s.Inv) (i : Nat) (b : Byte) : (writeIbuf i b s).Inv := by
  rcases Nat.lt_or_ge i Config.bufSize with hlt | hge
  · obtain ⟨hi, hr, he⟩ := s.inv_iff.1 h
    rw [writeIbuf_of_lt b s hlt]
    exact (State.inv_iff _).2 ⟨Memory.ok_store hi hlt b, hr.of_sameResults (.rfl' s),
      he.fbuf_size, he.txbuf_size, he.busy_iff, he.engine_ok⟩
  · rwa [writeIbuf_of_le b s hge]

theorem readIbuf_inv {s : State} (h : s.Inv) (i : Nat) : (readIbuf i s).Inv := by
  obtain ⟨e, he⟩ := readIbuf_eq_with_env i s
  exact he ▸ h.with_env e

theorem perform_inv {m : Move} {s t : State} (h : perform m s = .next t) (hs : s.Inv) : t.Inv := by
  rcases perform_cases h with ⟨-, rfl⟩ | ⟨-, rfl⟩ | ⟨v, -, -, rfl⟩ | ⟨v, -, -, hi⟩ | ⟨r, v, -, -, rfl⟩ |
    ⟨r, -, rfl⟩ | ⟨i, b, -, rfl⟩ | ⟨i, -, rfl⟩ | ⟨i, v, -, rfl⟩
  · exact engineStep_inv hs
  · exact applyReset_inv s
  · exact hs.with_host_registers s.cmd true s.arg0
  · exact issue_inv hi (hs.with_host_registers _ false s.arg0)
  · exact writeRegister_inv hs r v
  · exact hs.with_env _
  · exact writeIbuf_inv hs i b
  · exact readIbuf_inv hs i
  · exact hs.with_env _

/-! ## The obligation -/

/-- Settles O4: the step is the engine's, or a move, and either keeps the invariant. -/
theorem stepKeepsTheInvariant : Obligations.StepKeepsTheInvariant := by
  intro s t hs h
  rcases step_cases h with ⟨-, rfl⟩ | ⟨m, rest, -, hm⟩
  · exact engineStep_inv hs
  · exact perform_inv hm (hs.with_env _)

end Sys2Proof.Machine
end

section
/-! PROOFS. The family of spec/60_exceptions.md, ends of an issue step: the numbers of the codes (R231),
what an error leaves alone (R232, R236), and the fault of an unwritten input byte (R241). -/

namespace Sys2Proof.Machine

/-! ## Reads of an unwritten byte -/

theorem loadRange_of_unwritten {m : Memory} {n : Nat} (h : Unwritten m n) :
    Memory.loadRange m 0 n = none := by
  obtain ⟨i, hi, hload⟩ := h
  exact Memory.loadRange_eq_none.2 ⟨i, hi, (Nat.zero_add i).symm ▸ hload⟩

/-- A command faults when a byte it reads is unwritten, whatever it would compute (R241). -/
theorem onInput_of_unwritten {n : Nat} {s : State} (h : Unwritten s.ibuf n)
    (f : List Byte → Except ErrorKind Result) : onInput n f s = .fault .unwrittenInput := by
  rw [onInput, loadRange_of_unwritten h]

theorem exec_wrfrm_of_unwritten {n : Nat} {s : State} (h : Unwritten s.ibuf n) :
    exec (.wrfrm n) s = .fault .unwrittenInput := by
  rw [exec, execWrfrm, loadRange_of_unwritten h]

theorem exec_adec_of_unwritten {len : Nat} {s : State} (hlen : 5 ≤ len) (h : Unwritten s.ibuf 5) :
    exec (.adec len) s = .fault .unwrittenInput :=
  (if_neg (Nat.not_lt.2 hlen)).trans (onInput_of_unwritten h _)

/-- With its first byte unwritten CDEC reads that byte only (44_control.md R162). -/
theorem cdecReads_of_unwritten {len : Nat} {m : Memory} (hlen : 1 ≤ len) (h : Unwritten m 1) :
    cdecReads len m = 1 := by
  obtain ⟨i, hi, hload⟩ := h
  obtain rfl := Nat.lt_one_iff.1 hi
  rw [cdecReads, if_neg (Nat.ne_of_gt hlen), hload]

theorem exec_cdec_of_unwritten {len n : Nat} {s : State} (hn : cdecReads len s.ibuf = n)
    (h : Unwritten s.ibuf n) : exec (.cdec len) s = .fault .unwrittenInput := by
  subst hn
  exact onInput_of_unwritten h _

/-! ## Errors at issue -/

/-- A command that completes at issue with an error is its error completion. -/
theorem Ends.eq_failed {n : Nat} {s t : State} {e : ErrorKind} (h : Ends n s t)
    (hc : t.code = .err e) : t = failed s e := by
  rcases h with ⟨e', rfl, -⟩ | ⟨r, rfl, -⟩
  · cases hc
    exact errorCompletion_eq_failed e s
  · cases hc

/-! ## The obligations -/

/-- Settles O35: each command reads its bytes before it computes anything from them. -/
theorem unwrittenInputFaults : Obligations.UnwrittenInputFaults := by
  intro s n h
  have hread := fun f => onInput_of_unwritten h f
  refine ⟨hread _, hread _, hread _, hread _, hread _, hread _, exec_wrfrm_of_unwritten h, ?_, ?_, ?_⟩
  · rintro rfl len hlen
    exact exec_adec_of_unwritten hlen h
  · rintro rfl len hlen
    exact exec_cdec_of_unwritten (cdecReads_of_unwritten hlen h) h
  · rintro rfl len c0 hlen hload hsplit
    exact exec_cdec_of_unwritten (cdecReads_eq_two hlen hload ((splitFlag_iff c0).2 hsplit)) h

/-- Settles O47: a stream command that starts leaves BUSY at 1, and every other end that is an error is
an error completion. -/
theorem issueErrorsArePrecise : Obligations.IssueErrorsArePrecise := by
  intro i s t e h hb hc
  rcases exec_cases h with ⟨-, rfl⟩ | ⟨n, r, f, -, -, rfl⟩ | ⟨-, hend⟩
  · cases hb
  · cases hb
  · exact hend.eq_failed hc

/-- Settles O2, by evaluation of the two tables. -/
theorem codesAndStatesHaveTheirNumbers : Obligations.CodesAndStatesHaveTheirNumbers :=
  ⟨rfl, rfl, rfl⟩

end Sys2Proof.Machine
end

section
/-! PROOFS. The family of spec/70_reset_and_hazards.md: a stream command ends when its port answers
(R269). Each engine step with something to take ends the command, brings it nearer its end or drops a
noise byte (`engineStep_progress`); the bounds count such steps, the fair runs wait for them. -/

namespace Sys2Proof.Machine

/-! ## A command that has ended, and one in progress -/

/-- No command is in progress: BUSY is 0 and FSTATE is IDLE (R22, R27). -/
def Ended (s : State) : Prop := s.busy = false ∧ s.fstate = .idle

theorem State.Inv.ended {s : State} (h : s.Inv) (hf : s.fstate = .idle) : Ended s :=
  ⟨by simpa [hf] using h.busy_iff, hf⟩

theorem State.Inv.busy_of_not_ended {s : State} (h : s.Inv) (hs : ¬ Ended s) : s.busy = true :=
  h.busy_iff.2 fun hf => hs (h.ended hf)

theorem State.Inv.busy_of_reading {s : State} (h : s.Inv) (hr : isReading s.fstate = true) :
    s.busy = true :=
  h.busy_iff.2 fun hf => by rw [hf] at hr; cases hr

theorem State.Inv.busy_of_sending {s : State} (h : s.Inv) (ht : s.fstate = .tx) : s.busy = true :=
  h.busy_iff.2 fun hf => by rw [hf] at ht; cases ht

/-- A command in progress is a read or a write: DONE is never held. -/
theorem State.Inv.reading_or_sending {s : State} (h : s.Inv) (hb : s.busy = true) :
    isReading s.fstate = true ∨ s.fstate = .tx := by
  have hidle := h.busy_iff.1 hb
  have he := h.engine_ok
  unfold engineOk at he
  cases hf : s.fstate with
  | idle => exact absurd hf hidle
  | done => rw [hf] at he; exact he.elim
  | tx => exact .inr rfl
  | seekStart | readLength | readSecondStart | readBody => exact .inl rfl

theorem eventsLeft_seekStart {s : State} (hf : s.fstate = .seekStart) : eventsLeft s = 260 := by
  rw [eventsLeft, hf]

theorem eventsLeft_sending {s : State} (hf : s.fstate = .tx) :
    eventsLeft s = s.txbuf.length - s.txpos.toNat := by
  rw [eventsLeft, hf]

theorem State.Inv.eventsLeft_le_260 {s : State} (h : s.Inv) : eventsLeft s ≤ 260 := by
  by_cases hf : s.fstate = .seekStart
  · exact (eventsLeft_seekStart hf).le
  · exact (eventsLeft_le h hf).1

/-- A command in progress takes at least one more event or answer. -/
theorem State.Inv.eventsLeft_pos {s : State} (h : s.Inv) (hb : s.busy = true) : 0 < eventsLeft s := by
  rcases h.reading_or_sending hb with hr | ht
  · cases hf : s.fstate with
    | idle | done | tx => rw [hf] at hr; cases hr
    | seekStart | readLength | readSecondStart => simp [eventsLeft, hf]
    | readBody =>
      obtain ⟨-, -, hrem, -⟩ := (engineOk_readBody hf).1 h.engine_ok
      simpa [eventsLeft, hf, Nat.pos_iff_ne_zero, ← BitVec.toNat_inj] using hrem
  · obtain ⟨-, hlt⟩ := (engineOk_tx ht).1 h.engine_ok
    rw [eventsLeft_sending ht]
    exact Nat.sub_pos_of_lt hlt

/-! ## What is left in the queues after an engine step -/

theorem finalize_env_and_ended (s : State) : (finalize s).env = s.env ∧ Ended (finalize s) := by
  unfold finalize
  split <;> exact ⟨rfl, rfl, rfl⟩

/-- A byte ends a read or leaves it reading; the environment is as before. -/
theorem takeByte_of_reading (b : Byte) {s : State} (h : isReading s.fstate = true) :
    (takeByte b s).env = s.env ∧ (Ended (takeByte b s) ∨ isReading (takeByte b s).fstate = true) := by
  unfold takeByte
  cases hf : s.fstate with
  | idle | done | tx => rw [hf] at h; cases h
  | seekStart =>
    simp only [seekStartByte]
    split
    · exact ⟨rfl, .inr rfl⟩
    · exact ⟨rfl, .inr h⟩
  | readLength =>
    simp only [readLengthByte]
    split
    · exact ⟨rfl, .inl ⟨rfl, rfl⟩⟩
    · exact ⟨rfl, .inr rfl⟩
  | readSecondStart =>
    simp only [readSecondStartByte]
    split
    · exact ⟨rfl, .inr rfl⟩
    · exact ⟨rfl, .inl ⟨rfl, rfl⟩⟩
  | readBody =>
    by_cases hlast : s.frem - 1 = 0
    · simp only [readBodyByte_of_last hlast]
      obtain ⟨henv, hend⟩ := finalize_env_and_ended { keepByte b s with frem := s.frem - 1 }
      exact ⟨henv, .inl hend⟩
    · simp only [readBodyByte_of_more hlast]
      exact ⟨rfl, .inr h⟩

/-- An engine step takes one event, which ends the read or leaves it reading. -/
theorem engineStep_takes_event {s : State} {e : RxEvent} {rest : List RxEvent}
    (hr : isReading s.fstate = true) (hq : s.env.rx = e :: rest) :
    (engineStep s).env.rx = rest ∧ (Ended (engineStep s) ∨ isReading (engineStep s).fstate = true) := by
  rw [engineStep_reading hr hq]
  cases e with
  | streamEnd | fail => exact ⟨rfl, .inl ⟨rfl, rfl⟩⟩
  | byte b =>
    obtain ⟨henv, hgoes⟩ := takeByte_of_reading b (s := withRx rest s) hr
    exact ⟨congrArg Env.rx henv, hgoes⟩

/-- An engine step takes one answer. -/
theorem engineStep_takes_answer {s : State} {a : TxAnswer} {rest : List TxAnswer}
    (ht : s.fstate = .tx) (hq : s.env.tx = a :: rest) : (engineStep s).env.tx = rest := by
  rw [engineStep_sending ht hq]
  cases a with
  | fail => rfl
  | accept =>
    simp only [takeAnswer, acceptByte]
    split <;> rfl

/-- A seeking read drops noise (R203). -/
theorem engineStep_noise {s : State} {e : RxEvent} {rest : List RxEvent} (hf : s.fstate = .seekStart)
    (hq : s.env.rx = e :: rest) (he : isNoise e = true) : (engineStep s).fstate = .seekStart := by
  cases e with
  | streamEnd | fail => cases he
  | byte b =>
    have hb : b ≠ Config.start := by simpa [isNoise] using he
    rw [(framerSeeksTheStartMarker s b rest hf hq).2 hb]
    exact hf

/-- An event that is no noise to a seeking read ends the read or commits it and brings it nearer its
end. -/
theorem engineStep_commits {s : State} (h : s.Inv) {e : RxEvent} {rest : List RxEvent}
    (hr : isReading s.fstate = true) (hq : s.env.rx = e :: rest)
    (hnoise : s.fstate = .seekStart → isNoise e = false) :
    Ended (engineStep s) ∨ isReading (engineStep s).fstate = true ∧
      (engineStep s).fstate ≠ .seekStart ∧ eventsLeft (engineStep s) < eventsLeft s := by
  rcases (engineStep_takes_event hr hq).2 with hend | hread
  · exact .inl hend
  rcases (engineStep_progress h).1 e rest hr hq with hidle | hless | ⟨hseek, he, -⟩
  · exact .inl ((engineStep_inv h).ended hidle)
  · refine .inr ⟨hread, fun hf => ?_, hless⟩
    exact absurd (eventsLeft_seekStart hf) (hless.trans_le h.eventsLeft_le_260).ne
  · exact absurd he (by simp [hnoise hseek])

/-! ## Bounds, while no move is left -/

/-- A run of at most `N` steps ends the command in progress. -/
def EndsWithin (N : Nat) (s : State) : Prop :=
  ∃ n t, n ≤ N ∧ runs n s = .next t ∧ Ended t

theorem Ended.endsWithin {s : State} (h : Ended s) (N : Nat) : EndsWithin N s :=
  ⟨0, s, N.zero_le, rfl, h⟩

theorem EndsWithin.mono {M N : Nat} {s : State} (h : EndsWithin M s) (hMN : M ≤ N) : EndsWithin N s := by
  obtain ⟨n, t, hn, hrun⟩ := h
  exact ⟨n, t, hn.trans hMN, hrun⟩

/-- One engine step more. -/
theorem EndsWithin.of_engineStep {N : Nat} {s : State} (h : EndsWithin N (engineStep s))
    (hm : s.env.moves = []) : EndsWithin (N + 1) s := by
  obtain ⟨n, t, hn, hrun, hend⟩ := h
  exact ⟨n + 1, t, Nat.succ_le_succ hn, (runs_succ_of_engineStep rfl hm n).trans hrun, hend⟩

theorem engineStep_no_move {s : State} (hm : s.env.moves = []) : (engineStep s).env.moves = [] :=
  (engineStep_frame s).moves.trans hm

/-- A read ends with the end or the failure of its stream at the latest (R208, R209). -/
theorem endsWithin_of_streamEnd_or_fail {es : List RxEvent} {s : State} (hm : s.env.moves = [])
    (hr : isReading s.fstate = true) (hq : s.env.rx = es)
    (hes : RxEvent.streamEnd ∈ es ∨ RxEvent.fail ∈ es) : EndsWithin es.length s := by
  induction es generalizing s with
  | nil => simp at hes
  | cons e es ih =>
    refine EndsWithin.of_engineStep ?_ hm
    obtain ⟨hrest, hend | hread⟩ := engineStep_takes_event hr hq
    · exact hend.endsWithin _
    cases e with
    | byte b => exact ih (engineStep_no_move hm) hread hrest (by simpa using hes)
    | streamEnd | fail =>
      rw [engineStep_reading hr hq]
      exact Ended.endsWithin ⟨rfl, rfl⟩ _

/-- A read that drops no noise ends within the events it may still take, once they are there. -/
theorem endsWithin_eventsLeft {k : Nat} {s : State} (h : s.Inv) (hm : s.env.moves = [])
    (hr : isReading s.fstate = true) (hk : eventsLeft s ≤ k) (hq : eventsLeft s ≤ s.env.rx.length)
    (hnoise : s.fstate = .seekStart → ∀ e ∈ s.env.rx.head?, isNoise e = false) : EndsWithin k s := by
  have hpos := h.eventsLeft_pos (h.busy_of_reading hr)
  induction k generalizing s with
  | zero => omega
  | succ k ih =>
    refine EndsWithin.of_engineStep ?_ hm
    cases hrx : s.env.rx with
    | nil =>
      rw [hrx, List.length_nil] at hq
      omega
    | cons e rest =>
      rcases engineStep_commits h hr hrx (fun hf => hnoise hf e (by simp [hrx])) with
        hend | ⟨hread, hseek, hless⟩
      · exact hend.endsWithin k
      have hrest := (engineStep_takes_event hr hrx).1
      rw [hrx, List.length_cons] at hq
      have ht := engineStep_inv h
      exact ih ht (engineStep_no_move hm) hread (by omega) (by rw [hrest]; omega)
        (fun hf => absurd hf hseek) (ht.eventsLeft_pos (ht.busy_of_reading hread))

/-- A seeking read that meets an event that is no noise, and 259 more, ends within 260 steps. -/
theorem endsWithin_260_of_not_noise {e : RxEvent} {rest : List RxEvent} {s : State} (h : s.Inv)
    (hm : s.env.moves = []) (hf : s.fstate = .seekStart) (hq : s.env.rx = e :: rest)
    (he : isNoise e = false) (hrest : 259 ≤ rest.length) : EndsWithin 260 s := by
  have h260 := eventsLeft_seekStart hf
  refine endsWithin_eventsLeft h hm (by rw [hf]; rfl) h260.le ?_ fun _ e' he' => ?_
  · rw [h260, hq]
    exact Nat.succ_le_succ hrest
  · obtain rfl : e = e' := by simpa [hq] using he'
    exact he

/-- A seeking read drops noise up to the start marker, or meets an event before it that is none
(R203). -/
theorem endsWithin_of_startMarker {p rest : List RxEvent} {s : State} (h : s.Inv)
    (hm : s.env.moves = []) (hf : s.fstate = .seekStart)
    (hq : s.env.rx = p ++ .byte 0x68 :: rest) (hrest : 259 ≤ rest.length) :
    EndsWithin (p.length + 260) s := by
  induction p generalizing s with
  | nil => exact (endsWithin_260_of_not_noise h hm hf hq rfl hrest).mono (Nat.le_add_left ..)
  | cons e p ih =>
    cases he : isNoise e with
    | false =>
      have hlen : 259 ≤ (p ++ .byte 0x68 :: rest).length := by
        rw [List.length_append, List.length_cons]
        omega
      exact (endsWithin_260_of_not_noise h hm hf hq he hlen).mono (Nat.le_add_left ..)
    | true =>
      have hr : isReading s.fstate = true := by rw [hf]; rfl
      have ht := ih (engineStep_inv h) (engineStep_no_move hm) (engineStep_noise hf hq he)
        (engineStep_takes_event hr hq).1
      rw [List.length_cons, Nat.add_right_comm]
      exact ht.of_engineStep hm

/-- A write ends with the answer to its last byte, or with a failure before it (R214, R215). -/
theorem endsWithin_of_answers {as : List TxAnswer} {s : State} (h : s.Inv) (hm : s.env.moves = [])
    (ht : s.fstate = .tx) (hq : s.env.tx = as)
    (has : eventsLeft s ≤ as.length ∨ TxAnswer.fail ∈ as) : EndsWithin as.length s := by
  induction as generalizing s with
  | nil =>
    have hpos := h.eventsLeft_pos (h.busy_of_sending ht)
    rcases has with hle | hfail
    · rw [List.length_nil] at hle
      omega
    · cases hfail
  | cons a as ih =>
    refine EndsWithin.of_engineStep ?_ hm
    rcases (engineStep_progress h).2 a as ht hq with hidle | ⟨htx, hless⟩
    · exact ((engineStep_inv h).ended hidle).endsWithin _
    refine ih (engineStep_inv h) (engineStep_no_move hm) htx (engineStep_takes_answer ht hq) ?_
    cases a with
    | fail =>
      rw [engineStep_sending ht hq] at htx
      cases htx
    | accept => exact has.imp (fun hle => by rw [List.length_cons] at hle; omega) (by simp)

/-! ## Steps that bring a command no nearer its end -/

/-- The ports have nothing for the engine, or noise for a seeking read. -/
structure OnlyNoiseReady (s : State) : Prop where
  rx : isReading s.fstate = true → ∀ e rest, s.env.rx = e :: rest →
    s.fstate = .seekStart ∧ isNoise e = true
  tx : s.fstate = .tx → s.env.tx = []

theorem OnlyNoiseReady.of_reading {s : State} (hr : isReading s.fstate = true)
    (h : ∀ e rest, s.env.rx = e :: rest → s.fstate = .seekStart ∧ isNoise e = true) : OnlyNoiseReady s :=
  ⟨fun _ => h, fun ht => by rw [ht] at hr; cases hr⟩

theorem OnlyNoiseReady.of_sending {s : State} (ht : s.fstate = .tx) (h : s.env.tx = []) :
    OnlyNoiseReady s :=
  ⟨fun hr => (by rw [ht] at hr; cases hr), fun _ => h⟩

/-- From `s` to `t` the command in progress stays where it is. -/
structure StandsStill (s t : State) : Prop where
  fstate : t.fstate = s.fstate
  eventsLeft : eventsLeft t = eventsLeft s

theorem StandsStill.of_eq {s t : State} (h : t = s) : StandsStill s t := by
  subst h
  exact ⟨rfl, rfl⟩

/-- An engine step of a read ends it, brings it nearer its end, or has at most noise to take. -/
theorem engineStep_advances_read {s : State} (h : s.Inv) (hr : isReading s.fstate = true) :
    Ended (engineStep s) ∨ eventsLeft (engineStep s) < eventsLeft s ∨
      StandsStill s (engineStep s) ∧ OnlyNoiseReady s := by
  cases hq : s.env.rx with
  | nil =>
    exact .inr (.inr ⟨.of_eq (engineStep_waiting (.inl ⟨hr, hq⟩)), .of_reading hr (by simp [hq])⟩)
  | cons e rest =>
    rcases (engineStep_progress h).1 e rest hr hq with hidle | hless | ⟨hseek, he, hseek'⟩
    · exact .inl ((engineStep_inv h).ended hidle)
    · exact .inr (.inl hless)
    · refine .inr (.inr ⟨⟨hseek'.trans hseek.symm, ?_⟩, .of_reading hr fun e' rest' hq' => ?_⟩)
      · rw [eventsLeft_seekStart hseek, eventsLeft_seekStart hseek']
      · obtain ⟨rfl, -⟩ := List.cons.inj (hq.symm.trans hq')
        exact ⟨hseek, he⟩

/-- An engine step of a write ends it, brings it nearer its end, or has nothing to take. -/
theorem engineStep_advances_write {s : State} (h : s.Inv) (ht : s.fstate = .tx) :
    Ended (engineStep s) ∨ eventsLeft (engineStep s) < eventsLeft s ∨
      StandsStill s (engineStep s) ∧ OnlyNoiseReady s := by
  cases hq : s.env.tx with
  | nil =>
    exact .inr (.inr ⟨.of_eq (engineStep_waiting (.inr (.inl ⟨ht, hq⟩))), .of_sending ht hq⟩)
  | cons a rest =>
    rcases (engineStep_progress h).2 a rest ht hq with hidle | ⟨-, hless⟩
    · exact .inl ((engineStep_inv h).ended hidle)
    · exact .inr (.inl hless)

/-- A step ends the command in progress, brings it nearer its end, or leaves it where it is; in the last
case it is not the engine's, or the engine has at most noise to take. -/
theorem step_advances {s t : State} (h : s.Inv) (hb : s.busy = true) (hst : step s = .next t) :
    Ended t ∨ eventsLeft t < eventsLeft s ∨
      StandsStill s t ∧ (engineTurn s → OnlyNoiseReady s) := by
  by_cases hturn : engineTurn s
  · obtain ⟨ms, hms⟩ := step_of_engineTurn hturn
    cases hst.symm.trans hms
    have hinv : { s with env := { s.env with moves := ms } }.Inv := h.with_env _
    have hadv := (hinv.reading_or_sending hb).elim (engineStep_advances_read hinv)
      (engineStep_advances_write hinv)
    exact hadv.imp_right (Or.imp_right fun ⟨⟨hf, hleft⟩, ⟨hrx, htx⟩⟩ =>
      ⟨⟨hf, hleft⟩, fun _ => ⟨hrx, htx⟩⟩)
  · rcases step_elsewhere hb hturn hst with ⟨hf, hbt⟩ | ⟨hf, hleft⟩
    · exact .inl ⟨hbt, hf⟩
    · exact .inr (.inr ⟨⟨hf, hleft⟩, (absurd · hturn)⟩)

/-! ## Fair runs -/

section
variable {d : Nat → Delivery} {σ : Nat → State} (hrun : OpenRun d σ) (h0 : (σ 0).Inv)
include hrun h0

/-- The invariant holds all along a run. -/
theorem OpenRun.inv (n : Nat) : (σ n).Inv := by
  induction n with
  | zero => exact h0
  | succ n ih => exact stepKeepsTheInvariant _ _ (deliver_inv (d n) ih) (hrun n)

/-- A command that does not end and comes no nearer its end stands still in every step. -/
theorem OpenRun.standsStill {n : Nat} (hlive : ∀ m, n ≤ m → ¬ Ended (σ m))
    (hleast : ∀ m, n ≤ m → eventsLeft (σ n) ≤ eventsLeft (σ m)) {m : Nat} (hm : n ≤ m) :
    StandsStill (σ n) (σ m) ∧ (engineTurn (before d σ m) → OnlyNoiseReady (before d σ m)) := by
  have hstep : ∀ m, n ≤ m → StandsStill (σ n) (σ m) → StandsStill (before d σ m) (σ (m + 1)) ∧
      (engineTurn (before d σ m) → OnlyNoiseReady (before d σ m)) := by
    intro m hm hsame
    have hinv := hrun.inv h0 m
    have hb := hinv.busy_of_not_ended (hlive m hm)
    rcases step_advances (deliver_inv (d m) hinv) hb (hrun m) with hend | hless | hstill
    · exact absurd hend (hlive _ (Nat.le_succ_of_le hm))
    · rw [eventsLeft_deliver, hsame.eventsLeft] at hless
      exact absurd hless (Nat.not_lt.2 (hleast _ (Nat.le_succ_of_le hm)))
    · exact hstill
  have hsame : StandsStill (σ n) (σ m) := by
    induction m, hm using Nat.le_induction with
    | base => exact .of_eq rfl
    | succ m hm ih =>
      obtain ⟨hf, hleft⟩ := (hstep m hm ih).1
      exact ⟨hf.trans ih.fstate, hleft.trans ih.eventsLeft⟩
  exact ⟨hsame, (hstep m hm hsame).2⟩

/-- Fair ports bring a command that stands still for ever nothing but noise (R269, log 14). -/
theorem OpenRun.noiseForEver (hfair : FairPorts d σ) {n : Nat} (hlive : ∀ m, n ≤ m → ¬ Ended (σ m))
    (hleast : ∀ m, n ≤ m → eventsLeft (σ n) ≤ eventsLeft (σ m)) : NoiseForEver d σ n := by
  have hinv := hrun.inv h0 n
  have hstill := fun m => hrun.standsStill h0 hlive hleast (m := m)
  have hsame : ∀ m, n ≤ m → (σ m).fstate = (σ n).fstate := fun m hm => (hstill m hm).1.fstate
  rcases hinv.reading_or_sending (hinv.busy_of_not_ended (hlive n le_rfl)) with hr | ht
  · have hread : ∀ m, n ≤ m → isReading (σ m).fstate = true := fun m hm => by rw [hsame m hm, hr]
    have hnoise : ∀ m, n ≤ m → ∀ e rest, engineTurn (before d σ m) →
        (before d σ m).env.rx = e :: rest → (σ m).fstate = .seekStart ∧ isNoise e = true :=
      fun m hm e rest hturn hq => ((hstill m hm).2 hturn).rx (hread m hm) e rest hq
    have hseek : (σ n).fstate = .seekStart := by
      obtain ⟨m, hm, hnot | ⟨hturn, hrx⟩⟩ := hfair.rx n hr
      · exact absurd (hread m hm) (by simp [hnot])
      · obtain ⟨e, rest, hq⟩ := List.exists_cons_of_ne_nil hrx
        exact (hsame m hm).symm.trans (hnoise m hm e rest hturn hq).1
    exact fun m hm => ⟨(hsame m hm).trans hseek,
      fun e rest hturn hq => (hnoise m hm e rest hturn hq).2⟩
  · have hsend : ∀ m, n ≤ m → (σ m).fstate = .tx := fun m hm => (hsame m hm).trans ht
    obtain ⟨m, hm, hnot | ⟨hturn, htx⟩⟩ := hfair.tx n ht
    · exact absurd (hsend m hm) hnot
    · exact absurd (((hstill m hm).2 hturn).tx (hsend m hm)) htx

/-- Under fair ports a command ends, or takes noise for ever: by induction on what it has left to take,
since noise for ever is met only with the most there can be left. -/
theorem OpenRun.ends_or_noise (hfair : FairPorts d σ) {k n : Nat} (hk : eventsLeft (σ n) = k) :
    (∃ m, n ≤ m ∧ Ended (σ m)) ∨ NoiseForEver d σ n := by
  induction k using Nat.strong_induction_on generalizing n with
  | h k ih =>
    subst hk
    by_cases hlive : ∃ m, n ≤ m ∧ Ended (σ m)
    · exact .inl hlive
    by_cases hless : ∃ m, n ≤ m ∧ eventsLeft (σ m) < eventsLeft (σ n)
    · obtain ⟨m, hm, hlt⟩ := hless
      rcases ih _ hlt rfl with ⟨l, hl, hend⟩ | hnoise
      · exact .inl ⟨l, hm.trans hl, hend⟩
      · have h260 := eventsLeft_seekStart (hnoise m le_rfl).1
        have hle := (hrun.inv h0 n).eventsLeft_le_260
        omega
    · exact .inr (hrun.noiseForEver h0 hfair (fun m hm hend => hlive ⟨m, hm, hend⟩)
        fun m hm => Nat.not_lt.1 fun hlt => hless ⟨m, hm, hlt⟩)

end

/-! ## The obligation -/

/-- Settles O60: `OpenRun.ends_or_noise` for fair runs, then a bound for each kind of stream command. -/
theorem streamCommandsEndWhenThePortsAnswer : Obligations.StreamCommandsEndWhenThePortsAnswer := by
  refine ⟨fun d σ hrun h0 hfair n => hrun.ends_or_noise h0 hfair rfl,
    fun s hm hr hes => endsWithin_of_streamEnd_or_fail hm hr rfl hes,
    fun s h hm hr hseek hq => endsWithin_eventsLeft h hm hr le_rfl hq (absurd · hseek),
    fun s p rest h hm hf hq hrest => endsWithin_of_startMarker h hm hf hq hrest,
    fun s h hm ht has => endsWithin_of_answers h hm ht rfl (has.imp_left fun hlen => ?_)⟩
  rw [eventsLeft_sending ht]
  omega

end Sys2Proof.Machine
end

section
/-! PROOFS. The encoding of spec/30_encoding.md R70, R71 and R74: the rows of the opcode map are the
commands with their LEN, so encode and decode are inverse. -/

namespace Sys2Proof.Machine

/-! ## Rows and commands -/

/-- Within LENMAX a row's command carries the LEN it was made with: a row without a LEN has LENMAX 0,
every other keeps it (R74). -/
theorem len_make_of_mem_opRows {r : OpRow} (h : r ∈ opRows) {n : Nat} (hn : n ≤ r.lenMax) :
    (r.make n).len = n := by
  simp only [opRows, List.mem_cons, List.not_mem_nil, or_false] at h
  rcases h with rfl | rfl | rfl | rfl | rfl | rfl | rfl | rfl | rfl | rfl | rfl | rfl | rfl | rfl |
    rfl | rfl | rfl | rfl | rfl <;> simp_all [Instr.len]

/-- Every command has its row in the opcode map, which makes it from its LEN (R71). -/
theorem exists_mem_opRows (i : Instr) :
    ∃ r ∈ opRows, r.op = opcode i ∧ r.lenMax = i.lenMax ∧ r.make i.len = i := by
  cases i <;> simp [opRows, opcode, Instr.lenMax, Instr.len]

/-- Every LENMAX fits the ten bits of LEN (R70, R74). -/
theorem lenMax_lt_of_mem_opRows : ∀ r ∈ opRows, r.lenMax < 1024 := by decide

/-! ## The decoder and the encoder, by the fields of the word -/

/-- A word whose OP has a row, whose reserved bits are 0 and whose LEN is within LENMAX decodes to the
row's command. The converse is `decode_eq_ok`. -/
theorem decode_of_mem_opRows {w : CmdWord} {r : OpRow} (hr : r ∈ opRows) (hop : r.op = opField w)
    (hres : reservedZero w = true) (hlen : (lenField w).toNat ≤ r.lenMax) :
    decode w = .ok (r.make (lenField w).toNat) := by
  simp [decode, ← hop, find_row hr, hres, hlen]

/-- A word with reserved bits 0 is the word of every command that has its OP and LEN. -/
theorem encode_eq_of_fields {w : CmdWord} {i : Instr} (hop : opcode i = opField w)
    (hres : reservedZero w = true) (hlen : i.len = (lenField w).toNat) : encode i = w := by
  obtain ⟨hmid, htop⟩ := (reservedZero_iff w).1 hres
  rw [lenField_toNat] at hlen
  refine BitVec.eq_of_toNat_eq ?_
  rw [encode_toNat, hop, opField_toNat, hlen]
  omega

/-! ## The obligations -/

/-- Settles O5: the word has the command's fields, and the row of its OP makes the command from its LEN. -/
theorem decodeOfEncodeIsTheCommand : Obligations.DecodeOfEncodeIsTheCommand := by
  intro i hi
  obtain ⟨r, hr, hrop, hmax, hmake⟩ := exists_mem_opRows i
  have hle : i.len ≤ r.lenMax := hi.trans_eq hmax.symm
  obtain ⟨hop, hres, hmod⟩ := Laws.WordFields.of_encode i
  have hlen : (lenField (encode i)).toNat = i.len :=
    hmod.trans (Nat.mod_eq_of_lt (hle.trans_lt (lenMax_lt_of_mem_opRows r hr)))
  calc decode (encode i) = .ok (r.make (lenField (encode i)).toNat) :=
        decode_of_mem_opRows hr (hrop.trans hop.symm) hres (hlen.trans_le hle)
    _ = .ok i := by rw [hlen, hmake]

/-- Settles O6: a decoded word has reserved bits 0, and its OP and LEN are the command's. -/
theorem encodeOfDecodeIsTheWord : Obligations.EncodeOfDecodeIsTheWord := by
  intro w i h
  refine ⟨wellFormed_of_decode h, ?_⟩
  obtain ⟨r, hr, -, hres, hle, rfl⟩ := decode_eq_ok h
  exact encode_eq_of_fields (opcode_of_decode h) hres (len_make_of_mem_opRows hr hle)

end Sys2Proof.Machine
end
